-- ==== Sys2Proof/Word.lean ====
section
/-! DEFINITION. The widths of the SPB's values (10_state.md rules R21 to R36) and the shape of a sparse
store. The operations over them are in Decode.lean and Machine/Ops.lean. -/

namespace Sys2Proof

/-- 8 bits: a palette index, a mask entry, a colour channel, a stream byte. -/
abbrev Byte := BitVec 8

/-- 16 bits: an edge value, a row's command count, a lightmap result. -/
abbrev Half := BitVec 16

/-- 32 bits: a host operand, a stream position, a header field. -/
abbrev Word := BitVec 32

/-- A sparse store: pairs of address and value, addresses strictly rising. An address that is not listed
holds no value, which is the spec's `undef` (00_scope.md rule R15). -/
abbrev Sparse (α : Type) := List (Nat × α)

/-- A colour: three 8-bit channels (10_state.md rule R34). There is no fourth lane (42_filtermap.md rule R200). -/
structure Rgb where
  r : Byte
  g : Byte
  b : Byte
deriving DecidableEq, Repr, Inhabited

end Sys2Proof
end

