-- ==== Sys2Proof/Syntax.lean ====
section
/-! DEFINITION. The instructions of spec/opcode_table.json, one constructor per row, and the decoded form of
the filter-command stream that the FM store holds (10_state.md rule R29). -/

namespace Sys2Proof

/-- The formats whose rows the opcode table lists (30_encoding.md rules R100, R118). Each is decoded at a port
of its own: `fc` and `sp` from the filter-command stream, `ho` from the `OP` register. -/
inductive Format where
  /-- 8 bits: a filter-command header (R101). -/
  | fc
  /-- 24 bits: one source pixel (R102). -/
  | sp
  /-- 8 bits: a host operation code (R110). -/
  | ho
deriving DecidableEq, Repr

/-- The width of a format (R100). -/
def Format.bits : Format → Nat
  | .fc => 8
  | .sp => 24
  | .ho => 8

/-- One constructor per row of the opcode table. Every operand has exactly its field's width, and every
value of it is legal (30_encoding.md rule R108), so every term is well formed. A whole filter command is the
header and the records together: `FilterCmd` below. -/
inductive Instr where
  /-- `BLEND`: the header of a filter command, followed by `n` `SRCPX` records (R101, R190). -/
  | blend (light n : BitVec 4)
  /-- `SRCPX`: one source pixel, an operand record of `BLEND` (R102, R183). -/
  | srcpx (sourceIndex : BitVec 15) (alpha : BitVec 9)
  /-- `ICM_LOAD`, code 0x01 (R131). -/
  | icmLoad
  /-- `ICM_LOOKUP`, code 0x02 (R132). -/
  | icmLookup
  /-- `PM_LOAD`, code 0x10 (R151). -/
  | pmLoad
  /-- `PM_IGNORE`, code 0x11 (R153). -/
  | pmIgnore
  /-- `PM_BRIGHTEN`, code 0x12 (R154). -/
  | pmBrighten
  /-- `PM_DARKEN`, code 0x13 (R155). -/
  | pmDarken
  /-- `PM_APPLY`, code 0x14 (R157). -/
  | pmApply
  /-- `PM_GETICM`, code 0x15 (R167). -/
  | pmGetIcm
  /-- `FM_LOAD`, code 0x20 (R181). -/
  | fmLoad
  /-- `ST_LOAD`, code 0x30 (R221). -/
  | stLoad
  /-- `ST_UNLOAD`, code 0x31 (R230). -/
  | stUnload
  /-- `ST_ISLOADED`, code 0x32 (R231). -/
  | stIsLoaded
  /-- `ST_PATCH`, code 0x33 (R240). -/
  | stPatch
deriving DecidableEq, Repr

/-- The format an instruction is written in (30_encoding.md rules R101, R102, R110). -/
def Instr.format : Instr → Format
  | .blend _ _ => .fc
  | .srcpx _ _ => .sp
  | .icmLoad => .ho
  | .icmLookup => .ho
  | .pmLoad => .ho
  | .pmIgnore => .ho
  | .pmBrighten => .ho
  | .pmDarken => .ho
  | .pmApply => .ho
  | .pmGetIcm => .ho
  | .fmLoad => .ho
  | .stLoad => .ho
  | .stUnload => .ho
  | .stIsLoaded => .ho
  | .stPatch => .ho

/-- A decoded source pixel, `FM[s].row[y].cmd[k].src[j]` (10_state.md rule R29). -/
structure SrcPx where
  sourceIndex : BitVec 15
  alpha : BitVec 9
deriving DecidableEq, Repr

/-- A decoded filter command, `FM[s].row[y].cmd[k]` (10_state.md rule R29). -/
structure FilterCmd where
  light : BitVec 4
  n : BitVec 4
  src : List SrcPx
deriving DecidableEq, Repr

/-- A decoded row, `FM[s].row[y]`. -/
structure FilterRow where
  width : Half
  cmds : List FilterCmd
deriving DecidableEq, Repr

/-- A decoded filtermap, `FM[s]`; `size` is stored as read and never used (10_state.md rule R29). -/
structure Filtermap where
  size : Word
  height : Word
  rows : List FilterRow
deriving DecidableEq, Repr

end Sys2Proof
end

