-- ==== Sys2Proof/WellFormed.lean ====
section
/-! DEFINITION. When a decoded filter program is well formed: each count field equals the length of the list it
counts (10_state.md rule R40 (b)). An `Instr` itself needs no check: its operands' widths are in its type, and
30_encoding.md rule R108 makes every value of them legal. -/

namespace Sys2Proof

/-- `len(cmd.src) = cmd.n`. -/
abbrev FilterCmd.WellFormed (c : FilterCmd) : Prop :=
  c.src.length = c.n.toNat

/-- `len(row.cmd) = row.width`, and every command is well formed. -/
abbrev FilterRow.WellFormed (r : FilterRow) : Prop :=
  r.cmds.length = r.width.toNat ∧ ∀ c ∈ r.cmds, c.WellFormed

/-- `len(FM[s].row) = FM[s].height`, and every row is well formed. -/
abbrev Filtermap.WellFormed (f : Filtermap) : Prop :=
  f.rows.length = f.height.toNat ∧ ∀ r ∈ f.rows, r.WellFormed

/-- A loaded FM store: exactly 17 filtermaps, one per slope, each well formed. -/
abbrev FilterStore.WellFormed (fm : List Filtermap) : Prop :=
  fm.length = 17 ∧ ∀ f ∈ fm, f.WellFormed

end Sys2Proof
end

