-- ==== Sys2Proof/Decode.lean ====
section
/-! DEFINITION. The decoders of the three formats, the encoders written from the same tables, and the decoding of a
word numbered as spec/opcode_table.json numbers it. -/

namespace Sys2Proof

/-- Why a decoder answers no instruction. -/
inductive DecodeError where
  /-- Fewer bytes than the format is long. -/
  | short
  /-- A host operation code that 30_encoding.md rule R111 does not list (R109). -/
  | illegalOperation (code : Byte)
deriving DecidableEq, Repr

/-! ### Byte order (20_memory.md rules R61, R63, R64, R69) -/

/-- `b[0] | (b[1] << 8)`. -/
def le16 (b0 b1 : Byte) : Half := b1 ++ b0

/-- `b[0] | (b[1] << 8) | (b[2] << 16) | (b[3] << 24)`. -/
def le32 (b0 b1 b2 b3 : Byte) : Word := b3 ++ b2 ++ b1 ++ b0

/-- `byte0 | (byte1_2 << 8)`, the packed value of a source pixel (R69). -/
def le24 (b0 : Byte) (b12 : Half) : BitVec 24 := b12 ++ b0

/-! ### Fields -/

/-- Bits 7:4 of a command header (R101). -/
def headerLight (h : Byte) : BitVec 4 := h.extractLsb' 4 4

/-- Bits 3:0 of a command header (R101). -/
def headerCount (h : Byte) : BitVec 4 := h.extractLsb' 0 4

/-- Bits 23:9 of a source pixel (R102). -/
def srcIndexField (v : BitVec 24) : BitVec 15 := v.extractLsb' 9 15

/-- Bits 8:0 of a source pixel (R102). -/
def alphaField (v : BitVec 24) : BitVec 9 := v.extractLsb' 0 9

/-! ### Decoders -/

/-- Format FC: every byte is a header (R101, R108). -/
def decodeHeader (h : Byte) : Instr := .blend (headerLight h) (headerCount h)

/-- Format SP: every value is a source pixel (R102, R108). -/
def decodePixel (v : BitVec 24) : Instr := .srcpx (srcIndexField v) (alphaField v)

/-- Format HO: the thirteen codes of 30_encoding.md rule R111; no other code names an operation (R109). -/
def decodeOperation (c : Byte) : Option Instr :=
  match c.toNat with
  | 0x01 => some .icmLoad
  | 0x02 => some .icmLookup
  | 0x10 => some .pmLoad
  | 0x11 => some .pmIgnore
  | 0x12 => some .pmBrighten
  | 0x13 => some .pmDarken
  | 0x14 => some .pmApply
  | 0x15 => some .pmGetIcm
  | 0x20 => some .fmLoad
  | 0x30 => some .stLoad
  | 0x31 => some .stUnload
  | 0x32 => some .stIsLoaded
  | 0x33 => some .stPatch
  | _ => none

/-- One instruction of the given format from the front of a byte list, with the bytes that follow it. -/
def decode (f : Format) (bytes : List Byte) : Except DecodeError (Instr × List Byte) :=
  match f, bytes with
  | .fc, h :: rest => .ok (decodeHeader h, rest)
  | .sp, b0 :: b1 :: b2 :: rest => .ok (decodePixel (le24 b0 (le16 b1 b2)), rest)
  | .ho, c :: rest =>
    match decodeOperation c with
    | some i => .ok (i, rest)
    | none => .error (.illegalOperation c)
  | _, _ => .error .short

/-- The low `k` bytes of `w`, least significant first: the order in which the SPB's streams hold a word (R61). -/
def bytesOf : Nat → Nat → List Byte
  | 0, _ => []
  | k + 1, w => BitVec.ofNat 8 w :: bytesOf k (w / 256)

/-- The instruction of a word of spec/opcode_table.json. A 24-bit word is an SP record. An 8-bit word is read at
the `OP` register where it is one of the thirteen codes, and as a filter-command header otherwise: the two
formats have no bit that tells them apart, only the port they arrive at (assumption 10). -/
def decodeTableWord (nbits w : Nat) : Option Instr :=
  match nbits with
  | 8 =>
    match decode .ho (bytesOf 1 w) with
    | .ok (i, _) => some i
    | .error _ => (decode .fc (bytesOf 1 w)).toOption.map Prod.fst
  | 24 => (decode .sp (bytesOf 3 w)).toOption.map Prod.fst
  | _ => none

/-! ### Encoders (30_encoding.md rule R104; the SPB itself never encodes) -/

/-- `(light << 4) | n`. -/
def encodeHeader (light n : BitVec 4) : Byte := light ++ n

/-- `(sourceIndex << 9) | alpha`. -/
def packPixel (sourceIndex : BitVec 15) (alpha : BitVec 9) : BitVec 24 := sourceIndex ++ alpha

/-- The three bytes of a packed source pixel, low byte first. -/
def encodePixel (sourceIndex : BitVec 15) (alpha : BitVec 9) : List Byte :=
  let v := packPixel sourceIndex alpha
  [v.extractLsb' 0 8, v.extractLsb' 8 8, v.extractLsb' 16 8]

/-- The bytes of one instruction, in its own format. -/
def encode : Instr → List Byte
  | .blend light n => [encodeHeader light n]
  | .srcpx si a => encodePixel si a
  | .icmLoad => [0x01]
  | .icmLookup => [0x02]
  | .pmLoad => [0x10]
  | .pmIgnore => [0x11]
  | .pmBrighten => [0x12]
  | .pmDarken => [0x13]
  | .pmApply => [0x14]
  | .pmGetIcm => [0x15]
  | .fmLoad => [0x20]
  | .stLoad => [0x30]
  | .stUnload => [0x31]
  | .stIsLoaded => [0x32]
  | .stPatch => [0x33]

/-- The two bytes of a 16-bit field, low byte first. -/
def encode16 (v : Half) : List Byte := [v.extractLsb' 0 8, v.extractLsb' 8 8]

/-- The four bytes of a 32-bit field, low byte first. -/
def encode32 (v : Word) : List Byte :=
  [v.extractLsb' 0 8, v.extractLsb' 8 8, v.extractLsb' 16 8, v.extractLsb' 24 8]

/-- A whole filter command: the header byte, then its records (30_encoding.md rule R115 orders 4 and 5). -/
def encodeCmd (c : FilterCmd) : List Byte :=
  encode (.blend c.light c.n) ++ c.src.flatMap fun p => encode (.srcpx p.sourceIndex p.alpha)

/-- A row: its 2-byte width, then its commands (R115 order 3). -/
def encodeRow (r : FilterRow) : List Byte :=
  encode16 r.width ++ r.cmds.flatMap encodeCmd

/-- A filtermap record: size, height, rows (R115). -/
def encodeFiltermap (f : Filtermap) : List Byte :=
  encode32 f.size ++ encode32 f.height ++ f.rows.flatMap encodeRow

/-- The FM stream: the records one after another, with no padding (R115). -/
def encodeFilterStore (fm : List Filtermap) : List Byte :=
  fm.flatMap encodeFiltermap

end Sys2Proof
end

