-- ==== Sys2Proof/Config.lean ====
section
/-! DEFINITION. What is fixed for the life of a model of the SPB: the four streams' bytes, the lightmap and the OPEN
parameters of 00_scope.md rule R8 (10_state.md rule R20: "configuration, fixed for the life of a model instance"),
and the free values for what the spec leaves without a value. -/

namespace Sys2Proof

/-- One entry of BLEND's list `colours`: a weight and a colour (42_filtermap.md rule R190). -/
structure Tap where
  alpha : BitVec 9
  rgb : Rgb
deriving DecidableEq, Repr

/-- Which function `BLEND_FN` is: a parameter with a decided default (00_scope.md rule R8; 42_filtermap.md rule R196;
assumption 14). -/
inductive BlendBody where
  /-- The body that rule R196 decides, the default. -/
  | decided
  /-- Another total function of the list, given by its values; at a list that is not given it is open
  (`Config.openBlend`), so that with no value given it is uninterpreted. -/
  | replaced (values : List (List Tap × Rgb))
deriving DecidableEq, Repr

/-- One instance's configuration, as plain data. A lightmap entry that is not listed, and a polarity that is not
given, are open: they are the opaque constants below (assumption 3). A capacity `none` is unbounded, which rule
R8 lets a model take. -/
structure Config where
  /-- `S_ICM.BYTES` (10_state.md rule R26). -/
  icmStream : List Byte
  /-- `S_PM.BYTES`. -/
  pmStream : List Byte
  /-- `S_FM.BYTES`. -/
  fmStream : List Byte
  /-- `S_ST.BYTES`. -/
  stStream : List Byte
  /-- `LIGHTMAP(m, l)` at key `m*16 + l` (10_state.md rule R35). -/
  lightmap : Sparse Half
  /-- `PM_BRIGHTEN_WHEN_BIT1` (41_pattern_mask.md rule R154). -/
  brightenWhenBit1 : Option (BitVec 1)
  /-- `BLEND_FN` (42_filtermap.md rule R196). -/
  blendBody : BlendBody
  /-- `ICM_MAX_CUBES` (40_icm_lookup.md rule R131). -/
  icmMaxCubes : Option Nat
  /-- `FM_MAX_ROWS` (42_filtermap.md rule R181). -/
  fmMaxRows : Option Nat
  /-- `FM_MAX_ROW_CMDS` (42_filtermap.md rule R181). -/
  fmMaxRowCmds : Option Nat
  /-- `ST_MAX_ROWS` (43_slope_template.md rule R222). -/
  stMaxRows : Option Nat
  /-- `PSET_MAX` (41_pattern_mask.md rule R167). -/
  psetMax : Option Nat
deriving DecidableEq, Repr

/-- The instance with empty streams in which every parameter is open, unbounded or at its decided default
(assumption 2). -/
def Config.blank : Config where
  icmStream := []
  pmStream := []
  fmStream := []
  stStream := []
  lightmap := []
  brightenWhenBit1 := none
  blendBody := .decided
  icmMaxCubes := none
  fmMaxRows := none
  fmMaxRowCmds := none
  stMaxRows := none
  psetMax := none

/-- The bounds the spec puts on a configuration: `S.LEN < 2^32` (10_state.md rule R26), `FM_MAX_ROW_CMDS` at most
65535 and `PSET_MAX` at least 1 (00_scope.md rule R8). -/
abbrev Config.WellFormed (c : Config) : Prop :=
  c.icmStream.length < 2 ^ 32 ∧ c.pmStream.length < 2 ^ 32 ∧ c.fmStream.length < 2 ^ 32 ∧
    c.stStream.length < 2 ^ 32 ∧ (∀ m ∈ c.fmMaxRowCmds, m ≤ 65535) ∧ (∀ m ∈ c.psetMax, 1 ≤ m)

/-- The stores whose cells are single bytes. -/
inductive Space where
  | icm
  | pm
  | basePix
  | pset
deriving DecidableEq, Repr

/-- FREE VALUE (assumption 4): what the SPB reads from a byte cell that nothing has written. -/
opaque Config.undefByte : Space → Nat → Byte

/-- FREE VALUE (assumption 4): what the SPB reads from a palette entry that nothing has written. -/
opaque Config.undefColour : Nat → Rgb

/-- FREE VALUE (assumption 4): `BASE.width` while nothing has written it. -/
opaque Config.undefBaseWidth : Word

/-- FREE VALUE (assumption 4): `BASE.height` while nothing has written it. -/
opaque Config.undefBaseHeight : Word

/-- FREE VALUE (assumption 4): an edge of `OUT` outside its array, which no run reads. -/
opaque Config.undefEdge : Nat → Half

/-- FREE VALUE (assumption 5): what the `n`-th host read of an `undef` cell returns. -/
opaque Config.freeRead : Nat → Word

/-- OPEN (assumption 3): a lightmap entry the configuration does not list. -/
opaque Config.openLightmap : Nat → Nat → Half

/-- OPEN (assumption 3): the polarity, where the configuration does not give it. -/
opaque Config.openBrightenBit : BitVec 1

/-- OPEN (assumption 14): a replaced `BLEND_FN` at a list whose value the configuration does not give. All that may be
assumed of it is that it is a function of the list alone (42_filtermap.md rule R196). -/
opaque Config.openBlend : List Tap → Rgb

end Sys2Proof
end

