-- ==== Sys2Proof/Machine/State.lean ====
section
/-! DEFINITION. The SPB's state as plain data (10_state.md rule R20), the outcomes of a step that are not a next
state, and the state after reset (rule R42). -/

namespace Sys2Proof.Machine

/-- A byte store: pairs of address and byte, addresses strictly rising (`Memory.wf` in Machine/Ops.lean). An
address that is not listed is `undef`: nothing has written it since reset or since the operation that
invalidated it (00_scope.md rule R15). -/
abbrev Memory := List Host.Cell

/-- The level of a log record (10_state.md rule R38). -/
inductive Level where
  | error
  | warning
deriving DecidableEq, Repr

/-- The outcomes of 60_exceptions.md rule R261, in the order of their numbers 0 to 11. -/
inductive Code where
  | ok
  | formatError
  | rangeError
  | preconditionError
  | ioError
  | tableAbsentFault
  | icmAbsentFault
  | srcRangeFault
  | paletteRangeFault
  | destRangeFault
  | capacityError
  | illegalOperation
deriving DecidableEq, Repr

/-- A record of the log port (10_state.md rule R38). -/
structure LogRecord where
  level : Level
  code : Code
  info : Word
deriving DecidableEq, Repr

/-- The header registers of one slope template (10_state.md rule R30). The two rebased offsets are exact naturals,
as 43_slope_template.md rule R224 lets a model keep them (assumption 20). `hotx` and `hoty` are two's-complement. -/
structure Header where
  width : Word
  height : Word
  hotx : Word
  hoty : Word
  dataSize : Word
  outlineOff : Nat
  cmdOff : Nat
deriving DecidableEq, Repr

/-- One slope template: its header registers and its row stores (10_state.md rules R30, R31). -/
structure Template where
  hdr : Header
  left : List Half
  right : List Half
  cmdOffRow : List Word
deriving DecidableEq, Repr

/-- The base frame store (10_state.md rule R32). A field the host has not written holds no value. -/
structure BaseFrame where
  width : Option Word
  height : Option Word
  hotx : Option Word
  hoty : Option Word
  left : Sparse Half
  right : Sparse Half
  pix : Memory
deriving DecidableEq, Repr

/-- The output frame store (10_state.md rule R33). A pixel that `pix` does not list is `undef`. -/
structure OutFrame where
  width : Word
  height : Word
  hotx : Word
  hoty : Word
  left : List Half
  right : List Half
  pix : Memory
deriving DecidableEq, Repr

/-- The operation in progress: none, or an `ST_PATCH` of a slope (43_slope_template.md rule R243). Every other
operation is one step. -/
inductive Phase where
  | idle
  | patching (slope : Nat)
deriving DecidableEq, Repr

/-- A field of a frame store, as the host addresses it (10_state.md rules R32, R33). -/
inductive FrameField where
  | width
  | height
  | hotx
  | hoty
  | left (y : Nat)
  | right (y : Nat)
  | pix (a : Nat)
deriving DecidableEq, Repr

/-- What the host does to the SPB, one access at a time (10_state.md rules R21, R22, R32 to R36; assumption 1). A
written value may be wider than the register that takes it (R21). -/
inductive HostEvent where
  /-- A write to register `x[i]`; a write to `x[0]`, `OP`, starts an operation. -/
  | writeReg (i : BitVec 4) (v : Nat)
  /-- A read of register `x[i]`. -/
  | readReg (i : BitVec 4)
  /-- A write to the base frame store. -/
  | writeBase (f : FrameField) (v : Nat)
  /-- A read of the base frame store. -/
  | readBase (f : FrameField)
  /-- A read of the output frame store. -/
  | readOut (f : FrameField)
  /-- A write of palette entry `p`. -/
  | writePal (p : Byte) (c : Rgb)
  /-- A write of active-pattern entry `j`. -/
  | writePset (j : Byte) (id : Byte)
  /-- Reset, an external event (70_reset_and_hazards.md rule R300; assumption 17). -/
  | reset
deriving DecidableEq, Repr

/-- Why the machine stops with a fault. Both are for states that no run from reset reaches (assumption 13); both
are SAFE: the model stops where the spec gives no effect. The SPB's own errors and faults are next states
(60_exceptions.md rule R260: control never transfers anywhere). -/
inductive Fault where
  /-- Raised by `BLEND` and `SRCPX` executed while no `ST_PATCH` is in progress, by `BLEND` where `OUT` is `undef`,
  by `ST_PATCH` where the unit is Loaded but holds no template for the slope, and by the fetch of a command
  that the FM store does not hold. 00_scope.md rule R15: "Reading `undef` inside the SPB never happens on a
  path the rules allow". Safe. -/
  | undefStore
  /-- Raised by `BLEND` when the number of operand records executed is not its count field: 42_filtermap.md rule
  R190 executes exactly `n` of them first. Safe. -/
  | operandsMissing
deriving DecidableEq, Repr

/-- Why a step is refused. -/
inductive Refusal where
  /-- Answered only by an arm of `exec` for an instruction that has no meaning yet. Safe. -/
  | notModelled (mnemonic : String)
  /-- Answered to a host read of register `x[0]`: "`OP` is not readable" (10_state.md rule R22; assumption 12). Safe. -/
  | opNotReadable
deriving DecidableEq, Repr

/-- The SPB's state. -/
structure State where
  /-- The configuration, which nothing writes (10_state.md rule R20; assumption 2). -/
  cfg : Config
  /-- The operation in progress. -/
  phase : Phase
  /-- BLEND's list `colours` (42_filtermap.md rule R190; assumption 8). -/
  taps : List Tap
  /-- `CUR_Y` (10_state.md rule R25). -/
  curY : Word
  /-- `CUR_K` (10_state.md rule R25). -/
  curK : Word
  /-- `STATUS`, register 1 (R23). -/
  status : Byte
  /-- `RESULT`, register 2 (R24). -/
  result : Word
  /-- `RESULT_VALID`, register 3 (R24). -/
  resultValid : BitVec 1
  /-- `ARG0`, register 4. -/
  arg0 : Word
  /-- `ARG1`, register 5. -/
  arg1 : Word
  /-- `ARG2`, register 6. -/
  arg2 : Word
  /-- `ARG3`, register 7. -/
  arg3 : Word
  /-- `SRC_PRESENT`, register 8 (R37). -/
  srcPresent : BitVec 1
  /-- `PSET_LEN`, register 9 (R36). -/
  psetLen : Byte
  /-- `PAL_LEN`, register 10 (R34). -/
  palLen : BitVec 9
  /-- `ICM_STATE`, register 11 (R27). -/
  icmState : BitVec 1
  /-- `ICM_COUNT`, register 12 (R27). -/
  icmCount : Word
  /-- `PM_STATE`, register 13 (R28). -/
  pmState : BitVec 1
  /-- `FM_STATE`, register 14 (R29). -/
  fmState : BitVec 1
  /-- `ST_STATE`, register 15 (R30): 0 Unloaded, 1 Loaded, 2 PartiallyUnloaded. -/
  stState : BitVec 2
  /-- `S_ICM.POS` (R26). -/
  icmPos : Word
  /-- `S_PM.POS`. -/
  pmPos : Word
  /-- `S_FM.POS`. -/
  fmPos : Word
  /-- `S_ST.POS`. -/
  stPos : Word
  /-- `ICM[c][a]` at address `c*32768 + a` (R27; 20_memory.md rule R60). -/
  icm : Memory
  /-- `PM[id][i]` at address `id*4096 + i` (R28; 20_memory.md rule R60). -/
  pm : Memory
  /-- `FM[s]`, one filtermap per slope; empty while the whole store is `undef` (R29). -/
  fm : List Filtermap
  /-- `T[s]`, one template per slope; empty while the header registers are `undef` (R30, R31). -/
  templates : List Template
  /-- `BASE` (R32). -/
  base : BaseFrame
  /-- `PAL[p]` (R34). -/
  pal : Sparse Rgb
  /-- `PSET[j]` (R36). -/
  pset : Memory
  /-- `OUT` (R33); `none` while every field of it is `undef`. -/
  out : Option OutFrame
  /-- `LOG`, oldest record first (R38). -/
  log : List LogRecord
  /-- The model's own: the host events to come, next one first (assumption 1). -/
  pending : List HostEvent
  /-- The model's own: what the last host read returned (assumption 5). -/
  readData : Word
  /-- The model's own: how many free values host reads have drawn (assumption 5). -/
  draws : Nat
deriving DecidableEq, Repr

/-- The state after reset of an instance with configuration `c` (10_state.md rule R42). The cursor's value is
the model's (assumption 6), and so are the last three fields' (assumptions 1, 5). -/
def State.resetWith (c : Config) : State where
  cfg := c
  phase := .idle
  taps := []
  curY := 0
  curK := 0
  status := 0
  result := 0
  resultValid := 0
  arg0 := 0
  arg1 := 0
  arg2 := 0
  arg3 := 0
  srcPresent := 0
  psetLen := 0
  palLen := 0
  icmState := 0
  icmCount := 0
  pmState := 0
  fmState := 0
  stState := 0
  icmPos := 0
  pmPos := 0
  fmPos := 0
  stPos := 0
  icm := []
  pm := []
  fm := []
  templates := []
  base := { width := none, height := none, hotx := none, hoty := none, left := [], right := [], pix := [] }
  pal := []
  pset := []
  out := none
  log := []
  pending := []
  readData := 0
  draws := 0

/-- The machine right after reset, in the instance whose parameters are all open (assumption 2). -/
def State.reset : State := State.resetWith Config.blank

end Sys2Proof.Machine
end

