-- ==== Sys2Proof/Machine/Ops.lean ====
section
/-! DEFINITION. The operations over stores, streams and outcomes that the instructions' meanings share: sparse memory,
the stream primitives of 20_memory.md section 3, the end of an operation (10_state.md rules R23, R24), and the
raising of an error (60_exceptions.md rules R260, R266). -/

namespace Sys2Proof.Machine

/-! ### Sparse stores -/

/-- The canonical form: addresses strictly rising. No entry can equal what an unlisted address reads as, since
that is no value. -/
abbrev Memory.wf {α : Type} (m : Sparse α) : Prop :=
  m.Pairwise fun c d => c.1 < d.1

/-- What the store holds at an address; `none` is `undef`. -/
def Memory.read {α : Type} : Sparse α → Nat → Option α
  | [], _ => none
  | (k, v) :: rest, a => if k = a then some v else Memory.read rest a

/-- Writes one cell, keeping the addresses in order. -/
def Memory.write {α : Type} : Sparse α → Nat → α → Sparse α
  | [], a, v => [(a, v)]
  | (k, x) :: rest, a, v =>
    if a < k then (a, v) :: (k, x) :: rest
    else if a = k then (a, v) :: rest
    else (k, x) :: Memory.write rest a v

/-- The store that holds a list of values at consecutive addresses from `base`, and nothing else. -/
def Memory.ofList {α : Type} : Nat → List α → Sparse α
  | _, [] => []
  | base, x :: xs => (base, x) :: Memory.ofList (base + 1) xs

/-- A byte cell as the SPB reads it: a cell that holds no value gives a free value (assumption 4). -/
def byteAt (sp : Space) (m : Memory) (a : Nat) : Byte :=
  (Memory.read m a).getD (Config.undefByte sp a)

/-! ### Capacities -/

/-- Whether a count exceeds a capacity; `none` is unbounded (00_scope.md rule R8). -/
def exceeds (n : Nat) : Option Nat → Bool
  | none => false
  | some m => decide (m < n)

/-! ### Stream primitives -/

/-- What a reader of a stream answers: a value and the new position, or an error with its `info` and the position
it leaves (20_memory.md rule R68; the position of a failed load is left where it was, 60_exceptions.md rule R266). -/
inductive Rd (α : Type) where
  | ok (v : α) (pos : Nat)
  | fail (code : Code) (info : Nat) (pos : Nat)
deriving DecidableEq, Repr

/-- One reader, then another that depends on its value. -/
def Rd.bind {α β : Type} (r : Rd α) (f : α → Nat → Rd β) : Rd β :=
  match r with
  | .ok v pos => f v pos
  | .fail c i pos => .fail c i pos

/-- `StrU8` (20_memory.md rule R62). -/
def strU8 (b : List Byte) (pos : Nat) : Rd Byte :=
  match b.drop pos with
  | x :: _ => .ok x (pos + 1)
  | _ => .fail .ioError pos pos

/-- `StrU16` (R63). -/
def strU16 (b : List Byte) (pos : Nat) : Rd Half :=
  match b.drop pos with
  | x :: y :: _ => .ok (le16 x y) (pos + 2)
  | _ => .fail .ioError pos pos

/-- `StrU32`, and `StrS32` where the value is read as two's-complement (R64). -/
def strU32 (b : List Byte) (pos : Nat) : Rd Word :=
  match b.drop pos with
  | x :: y :: z :: w :: _ => .ok (le32 x y z w) (pos + 4)
  | _ => .fail .ioError pos pos

/-- `StrBytes` (R65). -/
def strBytes (b : List Byte) (n pos : Nat) : Rd (List Byte) :=
  if pos + n ≤ b.length then .ok ((b.drop pos).take n) (pos + n) else .fail .ioError pos pos

/-- `StrSeek` (R66): the target is a natural number, with no wrap-around; a seek to the end is legal. -/
def strSeek (b : List Byte) (target pos : Nat) : Rd Unit :=
  if target ≤ b.length then .ok () target else .fail .ioError target pos

/-- `StrU24` (R69): a byte, then a 2-byte unit. -/
def strU24 (b : List Byte) (pos : Nat) : Rd (BitVec 24) :=
  (strU8 b pos).bind fun b0 pos =>
  (strU16 b pos).bind fun b12 pos =>
  .ok (le24 b0 b12) pos

/-- `for j in first .. first+n-1`: the values of `n` readers one after another, in read order. -/
def repeatRd {α : Type} (f : Nat → Nat → Rd α) : (n first pos : Nat) → Rd (List α)
  | 0, _, pos => .ok [] pos
  | n + 1, j, pos =>
    (f j pos).bind fun x pos =>
    (repeatRd f n (j + 1) pos).bind fun xs pos =>
    .ok (x :: xs) pos

/-! ### The end of an operation -/

/-- The number of an outcome (60_exceptions.md rule R261). -/
def Code.toByte : Code → Byte
  | .ok => 0
  | .formatError => 1
  | .rangeError => 2
  | .preconditionError => 3
  | .ioError => 4
  | .tableAbsentFault => 5
  | .icmAbsentFault => 6
  | .srcRangeFault => 7
  | .paletteRangeFault => 8
  | .destRangeFault => 9
  | .capacityError => 10
  | .illegalOperation => 11

/-- `done()`: success, no value: `RESULT` and `RESULT_VALID` become 0 (10_state.md rule R24). -/
def State.done (s : State) : State :=
  { s with status := Code.ok.toByte, result := 0, resultValid := 0 }

/-- `done(v)`: success with a scalar (10_state.md rule R24). -/
def State.doneWith (s : State) (v : Word) : State :=
  { s with status := Code.ok.toByte, result := v, resultValid := 1 }

/-- `log(level, code, info)`: emits a record and goes on (00_scope.md rule R13). -/
def State.emit (s : State) (l : Level) (c : Code) (info : Word) : State :=
  { s with log := s.log ++ [{ level := l, code := c, info := info }] }

/-- `raise`: an error ends the operation (00_scope.md rule R13). This is the part common to every operation
(60_exceptions.md rule R266); what an operation changes besides is in Machine/Flags.lean. -/
def State.raise (s : State) (c : Code) (info : Word) : State :=
  { s.emit .error c info with status := c.toByte, result := 0, resultValid := 0 }

/-- A write to `OP` of a code that names no operation (60_exceptions.md rule R275). -/
def State.illegalOperation (s : State) (code : Byte) : State :=
  s.raise .illegalOperation (code.setWidth 32)

end Sys2Proof.Machine
end

