-- ==== Sys2Proof/Machine/Flags.lean ====
section
/-! DEFINITION. The SPB's flags: the five unit state registers and what an operation does to a unit with them
(10_state.md rule R39; 60_exceptions.md rule R266): 0 is Unloaded, 1 is Loaded, and for `ST_STATE` 2 is PartiallyUnloaded
(rule R21). `RESULT_VALID` is written by `State.done`, `State.doneWith` and
`State.raise`. -/

namespace Sys2Proof.Machine

/-! ### What a failed operation leaves (60_exceptions.md rule R266) -/

/-- A failed `ICM_LOAD`: Unloaded, no cube, all cells `undef`; the position stays where the load left it. -/
def State.icmFail (s : State) (c : Code) (info pos : Nat) : State :=
  { s.raise c (BitVec.ofNat 32 info) with
    icmState := 0, icmCount := 0, icm := [], icmPos := BitVec.ofNat 32 pos }

/-- A failed `PM_LOAD`: Unloaded, all masks `undef`. -/
def State.pmFail (s : State) (c : Code) (info pos : Nat) : State :=
  { s.raise c (BitVec.ofNat 32 info) with
    pmState := 0, pm := [], pmPos := BitVec.ofNat 32 pos }

/-- A failed `FM_LOAD`: Unloaded, all filtermaps `undef`. -/
def State.fmFail (s : State) (c : Code) (info pos : Nat) : State :=
  { s.raise c (BitVec.ofNat 32 info) with
    fmState := 0, fm := [], fmPos := BitVec.ofNat 32 pos }

/-- A failed `ST_LOAD`: Unloaded, all header registers `undef`, all row arrays empty. -/
def State.stFail (s : State) (c : Code) (info pos : Nat) : State :=
  { s.raise c (BitVec.ofNat 32 info) with
    stState := 0, templates := [], stPos := BitVec.ofNat 32 pos }

/-- A failed `ST_PATCH`, in `Precheck` or in a command: the operation is over and all of `OUT` is `undef`. -/
def State.patchFail (s : State) (c : Code) (info : Word) : State :=
  { s.raise c info with out := none, phase := .idle, taps := [] }

/-! ### What a successful operation leaves -/

/-- `ICM_LOAD` succeeded: the cubes' bytes at consecutive addresses (20_memory.md rule R70). -/
def State.icmLoadDone (s : State) (count : Nat) (bytes : List Byte) (pos : Nat) : State :=
  { s.done with
    icmState := 1, icmCount := BitVec.ofNat 32 count, icm := Memory.ofList 0 bytes
    icmPos := BitVec.ofNat 32 pos }

/-- `PM_LOAD` succeeded: the masks' bytes at consecutive addresses (20_memory.md rule R71). -/
def State.pmLoadDone (s : State) (bytes : List Byte) (pos : Nat) : State :=
  { s.done with pmState := 1, pm := Memory.ofList 0 bytes, pmPos := BitVec.ofNat 32 pos }

/-- `FM_LOAD` succeeded. -/
def State.fmLoadDone (s : State) (fm : List Filtermap) (pos : Nat) : State :=
  { s.done with fmState := 1, fm := fm, fmPos := BitVec.ofNat 32 pos }

/-- `ST_LOAD` succeeded. -/
def State.stLoadDone (s : State) (ts : List Template) (pos : Nat) : State :=
  { s.done with stState := 1, templates := ts, stPos := BitVec.ofNat 32 pos }

/-- `ST_PATCH` succeeded: `RESULT_VALID <- 1`, `STATUS <- OK`, `RESULT <- 0` (43_slope_template.md rule R244). -/
def State.patchDone (s : State) : State :=
  { s.doneWith 0 with phase := .idle, taps := [] }

end Sys2Proof.Machine
end

