-- ==== Sys2Proof/Machine/Operands.lean ====
section
/-! DEFINITION. The operand forms of 30_encoding.md rule R112: the low byte of an `ARG`, the active pattern list, a
mask entry and its fields, a lightmap entry, a cube cell, a base pixel and its palette colour. A form that can raise
answers `Except.error` with the code and the `info` of the record. -/

namespace Sys2Proof.Machine

/-- A code of 60_exceptions.md rule R261 with its `info`. -/
abbrev Cause := Code × Word

/-- `ARGn[7:0]`: the operation ignores the rest (R112). -/
def lowByte (w : Word) : Byte := w.extractLsb' 0 8

/-! ### The active pattern list (10_state.md rule R36) -/

/-- `[PSET[0], ..., PSET[PSET_LEN-1]]`. -/
def State.patternList (s : State) : List Byte :=
  (List.range s.psetLen.toNat).map (byteAt .pset s.pset)

/-- The checks on the pattern list that `PM_GETICM` and `ST_PATCH` share: its length against `PSET_MAX`, then each id in
list order (41_pattern_mask.md rule R167, 43_slope_template.md rule R241). -/
def State.patternCause (s : State) : Option Cause :=
  if exceeds s.psetLen.toNat s.cfg.psetMax then some (.preconditionError, s.psetLen.setWidth 32)
  else (s.patternList.find? fun id => decide (40 ≤ id.toNat)).map fun id =>
    (.preconditionError, id.setWidth 32)

/-! ### Mask entries (41_pattern_mask.md rule R152) -/

/-- `PM[id][i]` (20_memory.md rule R60: byte address `id*4096 + i`). -/
def State.pmEntry (s : State) (id i : Nat) : Byte := byteAt .pm s.pm (id * 4096 + i)

/-- `ign(m) = m[0]`. -/
def entryIgnore (m : Byte) : BitVec 1 := m.extractLsb' 0 1

/-- `mode(m) = m[1]`. -/
def entryMode (m : Byte) : BitVec 1 := m.extractLsb' 1 1

/-- `cand(m) = m >> 2`, 0 to 63. -/
def entryCandidate (m : Byte) : Byte := m >>> 2

/-- `chk(ARG0, ARG1)`: table absent, then id, then index (41_pattern_mask.md rule R150). -/
def State.maskCause (s : State) : Option Cause :=
  if s.pmState = 0 then some (.tableAbsentFault, 0x10)
  else if 40 ≤ s.arg0.toNat then some (.preconditionError, s.arg0)
  else if 4096 ≤ s.arg1.toNat then some (.preconditionError, s.arg1)
  else none

/-- The entry that `ARG0` and `ARG1` name. -/
def State.argEntry (s : State) : Byte := s.pmEntry s.arg0.toNat s.arg1.toNat

/-- `PM_BRIGHTEN_WHEN_BIT1`, or the open value (assumption 3). -/
def brightenBit (c : Config) : BitVec 1 := c.brightenWhenBit1.getD Config.openBrightenBit

/-- `LIGHTMAP(m, l)`, or the open value (10_state.md rule R35; assumption 3). -/
def lightmapAt (c : Config) (m l : Nat) : Half :=
  (Memory.read c.lightmap (m * 16 + l)).getD (Config.openLightmap m l)

/-! ### Cube cells (30_encoding.md rule R107; 20_memory.md rule R70) -/

/-- The 15-bit address `r5 ++ g5 ++ b5`, each five bits the top of its channel. -/
def cubeAddress (c : Rgb) : BitVec 15 :=
  c.r.extractLsb' 3 5 ++ c.g.extractLsb' 3 5 ++ c.b.extractLsb' 3 5

/-- `paletteIndex(c, r, g, b)` (40_icm_lookup.md rule R133). -/
def State.paletteIndex (s : State) (c : Word) (col : Rgb) : Except Cause Byte :=
  if s.icmCount.toNat ≤ c.toNat then .error (.icmAbsentFault, c)
  else .ok (byteAt .icm s.icm (c.toNat * 32768 + (cubeAddress col).toNat))

/-! ### Base pixels and their colours (42_filtermap.md rules R194, R195) -/

/-- `BASE.width` as the SPB reads it (assumption 4). -/
def State.baseWidth (s : State) : Word := s.base.width.getD Config.undefBaseWidth

/-- `BASE.height` as the SPB reads it (assumption 4). -/
def State.baseHeight (s : State) : Word := s.base.height.getD Config.undefBaseHeight

/-- `(y << 16) | x`, each the low 16 bits: the `info` of a range fault (60_exceptions.md rule R261). -/
def packInfo (y x : Nat) : Word := BitVec.ofNat 16 y ++ BitVec.ofNat 16 x

/-- `FetchSrc(y, sourceIndex)` (R194). -/
def State.fetchSrc (s : State) (y : Nat) (sourceIndex : BitVec 15) : Except Cause Byte :=
  if s.baseHeight.toNat ≤ y ∨ s.baseWidth.toNat ≤ sourceIndex.toNat then
    .error (.srcRangeFault, packInfo y sourceIndex.toNat)
  else .ok (byteAt .basePix s.base.pix (y * s.baseWidth.toNat + sourceIndex.toNat))

/-- `Resolve(p)` (R195). -/
def State.resolve (s : State) (p : Byte) : Except Cause Rgb :=
  if s.palLen.toNat ≤ p.toNat then .error (.paletteRangeFault, p.setWidth 32)
  else .ok ((Memory.read s.pal p.toNat).getD (Config.undefColour p.toNat))

/-- One turn of BLEND's loop: the fetch, then the resolve (42_filtermap.md rule R190). -/
def State.sourceColour (s : State) (y : Nat) (sourceIndex : BitVec 15) : Except Cause Rgb :=
  match s.fetchSrc y sourceIndex with
  | .error e => .error e
  | .ok p => s.resolve p

end Sys2Proof.Machine
end

