-- ==== Sys2Proof/Machine/PatternMask.lean ====
section
/-! DEFINITION. The PM unit's instructions and the functions `apply` and `getIcm` (41_pattern_mask.md). -/

namespace Sys2Proof.Machine

/-- `apply(m, input)` (R156). The raising test is `candidate & 2` (90_conflicts.md C1), and a 6-bit number is compared
with a 5-bit one as they stand (C8). -/
def applyEntry (m input : Byte) : Byte :=
  let candidate := entryCandidate m
  let window := (input >>> 2) &&& 0x1F
  if entryIgnore m = 1 then input
  else if candidate &&& 2 ≠ 0 ∧ window < candidate then candidate
  else if candidate < window then candidate
  else input

/-- The fold of `getIcm` after its seed: every further mask is read at the ORIGINAL light index (R165). -/
def State.foldMasks (s : State) (light : Nat) (ids : List Byte) (running : Byte) : Byte :=
  ids.foldl (fun r id => applyEntry (s.pmEntry id.toNat light) r) running

/-- `getIcm(light, P)` (R165, R166): the state with its log, and the cube index. An empty list gives the neutral cube 4
with no check and no record; a lightmap result out of range is logged as a warning and replaced by 4. -/
def State.getIcm (s : State) (light : Nat) : List Byte → State × Word
  | [] => (s, 4)
  | p :: ps =>
    let running := s.foldMasks light ps (entryCandidate (s.pmEntry p.toNat light))
    let cube : Word := (lightmapAt s.cfg running.toNat light).setWidth 32
    if s.icmCount.toNat ≤ cube.toNat then (s.emit .warning .rangeError cube, 4) else (s, cube)

/-- The 40 records of a PM stream: a length that must be 4096, then the mask (R151). -/
def pmMasks (b : List Byte) : Rd (List (List Byte)) :=
  repeatRd (fun id pos =>
    (strU32 b pos).bind fun len pos =>
    if len = 4096 then strBytes b 4096 pos else .fail .formatError id pos) 40 0 0

/-- `PM_LOAD` (R151). -/
def execPmLoad (s : State) : Host.Outcome State Fault Refusal :=
  .next <|
    if s.pmState = 1 then s.raise .preconditionError 0x10
    else
      match pmMasks s.cfg.pmStream with
      | .ok masks pos => s.pmLoadDone masks.flatten pos
      | .fail c info pos => s.pmFail c info pos

/-- A query of the entry that `ARG0` and `ARG1` name: `chk`, then the result (R150). -/
def State.maskQuery (s : State) (f : Byte → Word) : State :=
  match s.maskCause with
  | some (c, info) => s.raise c info
  | none => s.doneWith (f s.argEntry)

/-- `PM_IGNORE id, i` (R153). -/
def execPmIgnore (s : State) : Host.Outcome State Fault Refusal :=
  .next <| s.maskQuery fun m => (entryIgnore m).setWidth 32

/-- `PM_BRIGHTEN id, i` (R154). -/
def execPmBrighten (s : State) : Host.Outcome State Fault Refusal :=
  .next <| s.maskQuery fun m => if entryMode m = brightenBit s.cfg then 1 else 0

/-- `PM_DARKEN id, i` (R155). -/
def execPmDarken (s : State) : Host.Outcome State Fault Refusal :=
  .next <| s.maskQuery fun m => if entryMode m = brightenBit s.cfg then 0 else 1

/-- `PM_APPLY id, i, input` (R157). -/
def execPmApply (s : State) : Host.Outcome State Fault Refusal :=
  .next <| s.maskQuery fun m => (applyEntry m (lowByte s.arg2)).setWidth 32

/-- The checks of `PM_GETICM`, in order: light, list length, ids, table absent (R167; 60_exceptions.md rule R277). -/
def State.getIcmCause (s : State) : Option Cause :=
  if 16 ≤ s.arg0.toNat then some (.preconditionError, s.arg0)
  else
    match s.patternCause with
    | some e => some e
    | none => if s.psetLen ≠ 0 ∧ s.pmState = 0 then some (.tableAbsentFault, 0x10) else none

/-- `PM_GETICM light` (R167). A recovered `RangeError` leaves its record and `STATUS` ends `OK`. -/
def execPmGetIcm (s : State) : Host.Outcome State Fault Refusal :=
  .next <|
    match s.getIcmCause with
    | some (c, info) => s.raise c info
    | none =>
      let r := s.getIcm s.arg0.toNat s.patternList
      r.1.doneWith r.2

end Sys2Proof.Machine
end

