-- ==== Sys2Proof/Machine/Filtermap.lean ====
section
/-! DEFINITION. The FM unit: the decoder of the filter-command stream, and the compositor's two instructions `SRCPX` and
`BLEND` (42_filtermap.md). A command is executed from the FM store as its `n` `SRCPX` records in list order, then
its `BLEND` header: the turns of R190's loop, then the rest of R190 (assumption 8). -/

namespace Sys2Proof.Machine

/-! ### Decoding the stream -/

/-- `DecodeSrc(S)` (R183). -/
def readSrc (b : List Byte) (pos : Nat) : Rd SrcPx :=
  (strU24 b pos).bind fun v pos =>
  .ok { sourceIndex := srcIndexField v, alpha := alphaField v } pos

/-- `DecodeCmd(S)` (R182). -/
def readCmd (b : List Byte) (pos : Nat) : Rd FilterCmd :=
  (strU8 b pos).bind fun h pos =>
  (repeatRd (fun _ pos => readSrc b pos) (headerCount h).toNat 0 pos).bind fun src pos =>
  .ok { light := headerLight h, n := headerCount h, src := src } pos

/-- One row of filtermap `s`: its width, the capacity check, its commands (R181). -/
def readRow (c : Config) (s pos : Nat) : Rd FilterRow :=
  (strU16 c.fmStream pos).bind fun w pos =>
  if exceeds w.toNat c.fmMaxRowCmds then .fail .capacityError s pos
  else
    (repeatRd (fun _ pos => readCmd c.fmStream pos) w.toNat 0 pos).bind fun cmds pos =>
    .ok { width := w, cmds := cmds } pos

/-- Filtermap `s`: size, height, the capacity check, its rows (R181). -/
def readFiltermap (c : Config) (s pos : Nat) : Rd Filtermap :=
  (strU32 c.fmStream pos).bind fun size pos =>
  (strU32 c.fmStream pos).bind fun height pos =>
  if exceeds height.toNat c.fmMaxRows then .fail .capacityError s pos
  else
    (repeatRd (fun _ pos => readRow c s pos) height.toNat 0 pos).bind fun rows pos =>
    .ok { size := size, height := height, rows := rows } pos

/-- `FM_LOAD` (R181): seventeen filtermaps, each where the one before it ended. -/
def execFmLoad (s : State) : Host.Outcome State Fault Refusal :=
  .next <|
    if s.fmState = 1 then s.raise .preconditionError 0x20
    else
      match repeatRd (readFiltermap s.cfg) 17 0 0 with
      | .ok fm pos => s.fmLoadDone fm pos
      | .fail c info pos => s.fmFail c info pos

/-! ### The compositor -/

/-- One channel of `BLEND_FN`'s decided body: the exact sum of weight times channel, shifted right by 8, saturated at 255 (R196). -/
def blendLane (taps : List Tap) (channel : Rgb → Byte) : Byte :=
  BitVec.ofNat 8 (min 255 ((taps.map fun t => t.alpha.toNat * (channel t.rgb).toNat).sum >>> 8))

/-- `BLEND_FN`'s decided body (R196): three independent lanes (R200). -/
def weightedBlend (taps : List Tap) : Rgb :=
  ⟨blendLane taps Rgb.r, blendLane taps Rgb.g, blendLane taps Rgb.b⟩

/-- `BLEND_FN(colours)`, the function the configuration holds: the decided body, or a replacement (R196; assumption 14). -/
def blendFn (c : Config) (taps : List Tap) : Rgb :=
  match c.blendBody with
  | .decided => weightedBlend taps
  | .replaced values => (values.lookup taps).getD (Config.openBlend taps)

/-- The address `WriteDest(y, k, idx)` writes in a frame, or the fault it raises (R199). The row is tested before the
column, and the column starts at the row's left edge. -/
def destAddress (f : OutFrame) (y k : Nat) : Except Cause Nat :=
  if f.height.toNat ≤ y then .error (.destRangeFault, packInfo y k)
  else
    let x := (f.left.getD y (Config.undefEdge y)).toNat + k
    if f.width.toNat ≤ x then .error (.destRangeFault, packInfo y x) else .ok (y * f.width.toNat + x)

/-- The end of a command: its pixel is written, its operands are dropped, and the cursor moves on (R199;
43_slope_template.md rule R243). -/
def State.commandDone (s : State) (f : OutFrame) (a : Nat) (idx : Byte) : State :=
  { s with out := some { f with pix := Memory.write f.pix a idx }, taps := [], curK := s.curK + 1 }

/-- BLEND after its operands are fetched: blend, select the cube, quantize, write (R190, R196 to R199). -/
def State.composite (s : State) (light : BitVec 4) : Host.Outcome State Fault Refusal :=
  let sel := s.getIcm light.toNat s.patternList
  match sel.1.paletteIndex sel.2 (blendFn s.cfg s.taps) with
  | .error (c, info) => .next (sel.1.patchFail c info)
  | .ok idx =>
    match s.out with
    | none => .fault .undefStore
    | some f =>
      .next <|
        match destAddress f s.curY.toNat s.curK.toNat with
        | .error (c, info) => sel.1.patchFail c info
        | .ok a => sel.1.commandDone f a idx

/-- `SRCPX`: one operand record of the command at the cursor (R183): a turn of R190's loop. A fault ends the
`ST_PATCH` (43_slope_template.md rule R244). -/
def execSrcpx (sourceIndex : BitVec 15) (alpha : BitVec 9) (s : State) :
    Host.Outcome State Fault Refusal :=
  match s.phase with
  | .idle => .fault .undefStore
  | .patching _ =>
    .next <|
      match s.sourceColour s.curY.toNat sourceIndex with
      | .error (c, info) => s.patchFail c info
      | .ok rgb => { s with taps := s.taps ++ [{ alpha := alpha, rgb := rgb }] }

/-- `BLEND`: the command at the cursor, its `n` operand records executed (R190). -/
def execBlend (light n : BitVec 4) (s : State) : Host.Outcome State Fault Refusal :=
  match s.phase with
  | .idle => .fault .undefStore
  | .patching _ => if s.taps.length = n.toNat then s.composite light else .fault .operandsMissing

end Sys2Proof.Machine
end

