-- ==== Sys2Proof/Machine/Icm.lean ====
section
/-! DEFINITION. The ICM unit's instructions (40_icm_lookup.md). -/

namespace Sys2Proof.Machine

/-- The loop of `ICM_LOAD` (R131) from position `pos` with `n` cubes read: the bytes of the cubes still to come. At
each turn: end of stream, then a partial cube, then the capacity, then the read. Each turn takes 32768 bytes, so
`fuel` larger than the whole cubes that remain is never used up. -/
def icmCubes (b : List Byte) (maxCubes : Option Nat) : (fuel n pos : Nat) → Rd (List Byte)
  | 0, _, pos => .ok [] pos
  | fuel + 1, n, pos =>
    if pos = b.length then .ok [] pos
    else if b.length - pos < 32768 then .fail .formatError pos pos
    else if exceeds (n + 1) maxCubes then .fail .capacityError n pos
    else
      (strBytes b 32768 pos).bind fun cube pos =>
      (icmCubes b maxCubes fuel (n + 1) pos).bind fun rest pos =>
      .ok (cube ++ rest) pos

/-- `ICM_LOAD` (R131). -/
def execIcmLoad (s : State) : Host.Outcome State Fault Refusal :=
  .next <|
    if s.icmState = 1 then s.raise .preconditionError 0x01
    else
      match icmCubes s.cfg.icmStream s.cfg.icmMaxCubes (s.cfg.icmStream.length / 32768 + 1) 0 0 with
      | .ok bytes pos => s.icmLoadDone (bytes.length / 32768) bytes pos
      | .fail c info pos => s.icmFail c info pos

/-- `ICM_LOOKUP c, r, g, b` (R132): `ARG0` in full, the low bytes of the other three. -/
def execIcmLookup (s : State) : Host.Outcome State Fault Refusal :=
  .next <|
    match s.paletteIndex s.arg0 ⟨lowByte s.arg1, lowByte s.arg2, lowByte s.arg3⟩ with
    | .error (c, info) => s.raise c info
    | .ok v => s.doneWith (v.setWidth 32)

end Sys2Proof.Machine
end

