-- ==== Sys2Proof/Machine/SlopeTemplate.lean ====
section
/-! DEFINITION. The ST unit's instructions (43_slope_template.md). -/

namespace Sys2Proof.Machine

/-! ### ST_LOAD -/

/-- `Pass1(s)` (R222): the block size, then the seven header fields in the source's order; the two table offsets are
rebased by the position after the block size (R223, R224); the skip is done for every slot (R225). -/
def readHeader (c : Config) (s pos : Nat) : Rd Header :=
  let b := c.stStream
  (strU32 b pos).bind fun blockSize blockStart =>
  (strU32 b blockStart).bind fun width pos =>
  (strU32 b pos).bind fun height pos =>
  (strU32 b pos).bind fun hotx pos =>
  (strU32 b pos).bind fun hoty pos =>
  (strU32 b pos).bind fun dataSize pos =>
  (strU32 b pos).bind fun relOutline pos =>
  (strU32 b pos).bind fun relCmd pos =>
  if exceeds height.toNat c.stMaxRows then .fail .capacityError s pos
  else
    (strSeek b (blockStart + blockSize.toNat) pos).bind fun _ pos =>
    .ok { width := width, height := height, hotx := hotx, hoty := hoty, dataSize := dataSize
          outlineOff := relOutline.toNat + blockStart, cmdOff := relCmd.toNat + blockStart } pos

/-- One element of the outline table: left, then right (R226). -/
def readEdges (b : List Byte) (pos : Nat) : Rd (Half × Half) :=
  (strU16 b pos).bind fun l pos =>
  (strU16 b pos).bind fun r pos =>
  .ok (l, r) pos

/-- `Pass2(s)` (R226): both seeks are done even when `height` is 0; the command offsets are stored as read
(90_conflicts.md C3). -/
def readTables (b : List Byte) (h : Header) (pos : Nat) : Rd Template :=
  (strSeek b h.outlineOff pos).bind fun _ pos =>
  (repeatRd (fun _ pos => readEdges b pos) h.height.toNat 0 pos).bind fun edges pos =>
  (strSeek b h.cmdOff pos).bind fun _ pos =>
  (repeatRd (fun _ pos => strU32 b pos) h.height.toNat 0 pos).bind fun offs pos =>
  .ok { hdr := h, left := edges.map Prod.fst, right := edges.map Prod.snd, cmdOffRow := offs } pos

/-- `for s in 0 .. 16: Pass2(s)`, over the headers that pass 1 read. -/
def readAllTables (b : List Byte) : List Header → Nat → Rd (List Template)
  | [], pos => .ok [] pos
  | h :: hs, pos =>
    (readTables b h pos).bind fun t pos =>
    (readAllTables b hs pos).bind fun ts pos =>
    .ok (t :: ts) pos

/-- The two passes (R221): pass 2 begins only after pass 1 has run for all seventeen slots. -/
def readTemplates (c : Config) : Rd (List Template) :=
  (repeatRd (readHeader c) 17 0 0).bind fun hs pos => readAllTables c.stStream hs pos

/-- `ST_LOAD` (R221): refused only in state Loaded. -/
def execStLoad (s : State) : Host.Outcome State Fault Refusal :=
  .next <|
    if s.stState = 1 then s.raise .preconditionError 0x30
    else
      match readTemplates s.cfg with
      | .ok ts pos => s.stLoadDone ts pos
      | .fail c info pos => s.stFail c info pos

/-! ### ST_UNLOAD, ST_ISLOADED -/

/-- A template whose row arrays are discarded and whose header registers are kept. -/
def Template.clearRows (t : Template) : Template :=
  { t with left := [], right := [], cmdOffRow := [] }

/-- `ST_UNLOAD` (R230): it always ends `OK`; the warning of a call while not Loaded goes to the log only. -/
def execStUnload (s : State) : Host.Outcome State Fault Refusal :=
  .next <|
    let warned := if s.stState = 1 then s else s.emit .warning .preconditionError 0x31
    { warned.done with
      templates := s.templates.map Template.clearRows
      stState := if s.stState = 1 then 2 else s.stState }

/-- `ST_ISLOADED` (R231). -/
def execStIsLoaded (s : State) : Host.Outcome State Fault Refusal :=
  .next <| s.doneWith (if s.stState = 1 then 1 else 0)

/-! ### ST_PATCH -/

/-- `Precheck` (R241), in its order (60_exceptions.md rule R277). -/
def State.patchCause (s : State) : Option Cause :=
  if s.srcPresent = 0 then some (.preconditionError, 0)
  else if s.fmState = 0 then some (.preconditionError, 0x20)
  else if 17 ≤ s.arg0.toNat then some (.preconditionError, s.arg0)
  else
    match s.patternCause with
    | some e => some e
    | none =>
      if s.stState ≠ 1 then some (.tableAbsentFault, 0x30)
      else if s.psetLen ≠ 0 ∧ s.pmState = 0 then some (.tableAbsentFault, 0x10)
      else none

/-- The frame of `Setup` (R242): the template's geometry and edge arrays, every pixel `undef`. -/
def setupFrame (t : Template) : OutFrame :=
  { width := t.hdr.width, height := t.hdr.height, hotx := t.hdr.hotx, hoty := t.hdr.hoty
    left := t.left, right := t.right, pix := [] }

/-- The frame of `Setup` and the cursor at the slope's first command: the start of every `ST_PATCH` writes the cursor
(10_state.md rule R25; R243; assumption 9). -/
def State.patchStart (s : State) (slope : Nat) (t : Template) : State :=
  { s with
    out := some (setupFrame t), phase := .patching slope, taps := []
    curY := 0, curK := 0 }

/-- `ST_PATCH s` (R240): `Precheck`, `Setup`, and the start of `Run`. Its commands are the steps that follow, and
`State.runControl` (Machine/Fetch.lean) ends it (assumption 8). -/
def execStPatch (s : State) : Host.Outcome State Fault Refusal :=
  match s.patchCause with
  | some (c, info) => .next (s.patchFail c info)
  | none =>
    match s.templates[s.arg0.toNat]? with
    | none => .fault .undefStore
    | some t => .next (s.patchStart s.arg0.toNat t)

end Sys2Proof.Machine
end

