-- ==== Sys2Proof/Machine/Dispatch.lean ====
section
/-! DEFINITION. What each instruction does: one arm per constructor of `Instr`. -/

namespace Sys2Proof.Machine

def exec (i : Instr) (s : State) : Host.Outcome State Fault Refusal :=
  match i with
  | .blend light n => Sys2Proof.Machine.execBlend light n s
  | .srcpx sourceIndex alpha => Sys2Proof.Machine.execSrcpx sourceIndex alpha s
  | .icmLoad => Sys2Proof.Machine.execIcmLoad s
  | .icmLookup => Sys2Proof.Machine.execIcmLookup s
  | .pmLoad => Sys2Proof.Machine.execPmLoad s
  | .pmIgnore => Sys2Proof.Machine.execPmIgnore s
  | .pmBrighten => Sys2Proof.Machine.execPmBrighten s
  | .pmDarken => Sys2Proof.Machine.execPmDarken s
  | .pmApply => Sys2Proof.Machine.execPmApply s
  | .pmGetIcm => Sys2Proof.Machine.execPmGetIcm s
  | .fmLoad => Sys2Proof.Machine.execFmLoad s
  | .stLoad => Sys2Proof.Machine.execStLoad s
  | .stUnload => Sys2Proof.Machine.execStUnload s
  | .stIsLoaded => Sys2Proof.Machine.execStIsLoaded s
  | .stPatch => Sys2Proof.Machine.execStPatch s

end Sys2Proof.Machine
end

