-- ==== Sys2Proof/Machine/HostPort.lean ====
section
/-! DEFINITION. The host's accesses other than the start of an operation: register writes and reads, the operand
stores, the result store and reset (10_state.md rules R21 to R36). -/

namespace Sys2Proof.Machine

/-- A host write to a register other than `OP`: the low bits are kept, and a write to a read-only register is
ignored (R21). -/
def State.writeReg (s : State) (i : BitVec 4) (v : Nat) : State :=
  match i.toNat with
  | 4 => { s with arg0 := BitVec.ofNat 32 v }
  | 5 => { s with arg1 := BitVec.ofNat 32 v }
  | 6 => { s with arg2 := BitVec.ofNat 32 v }
  | 7 => { s with arg3 := BitVec.ofNat 32 v }
  | 8 => { s with srcPresent := BitVec.ofNat 1 v }
  | 9 => { s with psetLen := BitVec.ofNat 8 v }
  | 10 => { s with palLen := BitVec.ofNat 9 v }
  | _ => s

/-- A register's value, widened with zeros; `none` for `OP`, which is not readable (R21, R22). -/
def State.regValue (s : State) (i : BitVec 4) : Option Word :=
  match i.toNat with
  | 1 => some (s.status.setWidth 32)
  | 2 => some s.result
  | 3 => some (s.resultValid.setWidth 32)
  | 4 => some s.arg0
  | 5 => some s.arg1
  | 6 => some s.arg2
  | 7 => some s.arg3
  | 8 => some (s.srcPresent.setWidth 32)
  | 9 => some (s.psetLen.setWidth 32)
  | 10 => some (s.palLen.setWidth 32)
  | 11 => some (s.icmState.setWidth 32)
  | 12 => some s.icmCount
  | 13 => some (s.pmState.setWidth 32)
  | 14 => some (s.fmState.setWidth 32)
  | 15 => some (s.stState.setWidth 32)
  | _ => none

/-- A host write to the base frame store (R32): the low bits are kept. -/
def BaseFrame.write (b : BaseFrame) (v : Nat) : FrameField → BaseFrame
  | .width => { b with width := some (BitVec.ofNat 32 v) }
  | .height => { b with height := some (BitVec.ofNat 32 v) }
  | .hotx => { b with hotx := some (BitVec.ofNat 32 v) }
  | .hoty => { b with hoty := some (BitVec.ofNat 32 v) }
  | .left y => { b with left := Memory.write b.left y (BitVec.ofNat 16 v) }
  | .right y => { b with right := Memory.write b.right y (BitVec.ofNat 16 v) }
  | .pix a => { b with pix := Memory.write b.pix a (BitVec.ofNat 8 v) }

/-- What a field of the base frame store holds. The host reaches a pixel in the plane (20_memory.md rule R60); that a
read of another field, or outside the declared size, is accepted is the model's choice (assumption 24). -/
def BaseFrame.read (b : BaseFrame) : FrameField → Option Word
  | .width => b.width
  | .height => b.height
  | .hotx => b.hotx
  | .hoty => b.hoty
  | .left y => (Memory.read b.left y).map (·.setWidth 32)
  | .right y => (Memory.read b.right y).map (·.setWidth 32)
  | .pix a => (Memory.read b.pix a).map (·.setWidth 32)

/-- What a field of an output frame holds. A pixel or an edge outside the frame (`a >= width*height`, `y >= height`) holds
no value, so that a host read of it is accepted and answers a free value: the model's choice, where the spec is
silent (assumption 24). -/
def OutFrame.read (f : OutFrame) : FrameField → Option Word
  | .width => some f.width
  | .height => some f.height
  | .hotx => some f.hotx
  | .hoty => some f.hoty
  | .left y => f.left[y]?.map (·.setWidth 32)
  | .right y => f.right[y]?.map (·.setWidth 32)
  | .pix a => (Memory.read f.pix a).map (·.setWidth 32)

/-- `OUT` as the host sees it: every field is `undef` while `RESULT_VALID` is 0 (R33; assumption 7). -/
def State.outView (s : State) : Option OutFrame :=
  if s.resultValid = 1 then s.out else none

/-- A host read delivers a value, or, where the cell is `undef`, a fresh free value (00_scope.md rule R15;
assumption 5). No read changes anything else (20_memory.md rule R75). -/
def State.deliver (s : State) : Option Word → State
  | some v => { s with readData := v }
  | none => { s with readData := Config.freeRead s.draws, draws := s.draws + 1 }

/-- Reset puts every piece of state at its reset value (70_reset_and_hazards.md rule R300). The host's own side, the
model's three fields, goes on (assumption 17). -/
def State.resetAgain (s : State) : State :=
  { State.resetWith s.cfg with pending := s.pending, readData := s.readData, draws := s.draws }

/-- Serves one host event that starts no operation. -/
def State.serve (s : State) : HostEvent → Host.Outcome State Fault Refusal
  | .writeReg i v => .next (s.writeReg i v)
  | .readReg i =>
    match s.regValue i with
    | some v => .next (s.deliver (some v))
    | none => .refused .opNotReadable
  | .writeBase f v => .next { s with base := BaseFrame.write s.base v f }
  | .readBase f => .next (s.deliver (BaseFrame.read s.base f))
  | .readOut f => .next (s.deliver (s.outView.bind fun o => OutFrame.read o f))
  | .writePal p c => .next { s with pal := Memory.write s.pal p.toNat c }
  | .writePset j id => .next { s with pset := Memory.write s.pset j.toNat id }
  | .reset => .next s.resetAgain

end Sys2Proof.Machine
end

