-- ==== Sys2Proof/Machine/Fetch.lean ====
section
/-! DEFINITION. What the sequencer does next: the instruction it fetches, or an act of its own. While an `ST_PATCH` is
in progress it fetches from the FM store at the cursor (10_state.md rules R25, R29; 00_scope.md rule R14); otherwise it
takes the host's next event (R22). -/

namespace Sys2Proof.Machine

/-- What the sequencer does next. -/
inductive Fetched where
  /-- Execute an instruction in a state. -/
  | run (i : Instr) (s : State)
  /-- An act that is no instruction, with its outcome. -/
  | act (o : Host.Outcome State Fault Refusal)
deriving Repr

/-- The end of a row: `CUR_Y` by one, and `CUR_K <- 0` as the next row is entered (43_slope_template.md rule R243). After
the last row no row is entered: the end state of program P1 of 95_test_vectors.md, whose rows have two commands,
is `CUR_Y = 2`, `CUR_K = 2`. -/
def State.nextRow (s : State) (height : Word) : State :=
  { s with curY := s.curY + 1, curK := if (s.curY + 1).toNat < height.toNat then 0 else s.curK }

/-- The next instruction of the command at the cursor: its first operand record not yet executed, else its header. -/
def nextOfCommand (c : FilterCmd) (taps : Nat) : Option Instr :=
  if taps < c.n.toNat then
    match c.src[taps]? with
    | some p => some (.srcpx p.sourceIndex p.alpha)
    | none => none
  else some (.blend c.light c.n)

/-- The control of `Run(s)` (43_slope_template.md rule R243): rows top to bottom, commands left to right, and the
completion of R244 when no row is left. There is no other control flow. -/
def State.runControl (s : State) (slope : Nat) : Fetched :=
  match s.fm[slope]? with
  | none => .act (.fault .undefStore)
  | some f =>
    if f.height.toNat ≤ s.curY.toNat then .act (.next s.patchDone)
    else
      match f.rows[s.curY.toNat]? with
      | none => .act (.fault .undefStore)
      | some row =>
        if row.width.toNat ≤ s.curK.toNat then .act (.next (s.nextRow f.height))
        else
          match row.cmds[s.curK.toNat]?.bind fun c => nextOfCommand c s.taps.length with
          | some i => .run i s
          | none => .act (.fault .undefStore)

/-- A host write to `OP`: the low 8 bits (10_state.md rule R21) start the operation whose code they are (R22); a code
that names none raises `IllegalOperation` (60_exceptions.md rule R275). -/
def State.startOperation (s : State) (v : Nat) : Fetched :=
  match decodeOperation (BitVec.ofNat 8 v) with
  | some i => .run i s
  | none => .act (.next (s.illegalOperation (BitVec.ofNat 8 v)))

/-- One host event, taken with no operation in progress: a write to register 0, `OP`, starts an operation. -/
def State.accept (s : State) (e : HostEvent) : Fetched :=
  match e with
  | .writeReg i v => if i = 0 then s.startOperation v else .act (s.serve e)
  | _ => .act (s.serve e)

/-- The host's next event, with no operation in progress; with none the SPB waits (10_state.md rule R42; assumption 1). -/
def State.hostControl (s : State) : Fetched :=
  match s.pending with
  | [] => .act (.next s)
  | e :: rest => State.accept { s with pending := rest } e

/-- What the sequencer does next; a host access is not served while an operation runs (R22, R310). -/
def State.fetch (s : State) : Fetched :=
  match s.phase with
  | .patching slope => s.runControl slope
  | .idle => s.hostControl

/-- An FM store in which slope 0 has one row of one command and every other slope has none. -/
def oneCommand (c : FilterCmd) : List Filtermap :=
  { size := 0, height := 1, rows := [{ width := 1, cmds := [c] }] } ::
    List.replicate 16 { size := 0, height := 0, rows := [] }

/-- The state in which an `ST_PATCH` of slope 0 stands at its first command, which is `c`, with the given operand
records executed (assumption 11). -/
def State.atCommand (s : State) (c : FilterCmd) (taps : List Tap) : State :=
  { s with
    phase := .patching 0, curY := 0, curK := 0, taps := taps
    fmState := 1, fm := oneCommand c }

/-- The state in which an instruction is the next that the sequencer runs: a command's header with `n` records of
zeros executed, a command's first operand record, or a pending write to `OP` (assumption 11). -/
def State.withInstr (s : State) (i : Instr) (w : Nat) : State :=
  match i with
  | .blend light n =>
    s.atCommand { light := light, n := n, src := List.replicate n.toNat { sourceIndex := 0, alpha := 0 } }
      (List.replicate n.toNat { alpha := 0, rgb := ⟨0, 0, 0⟩ })
  | .srcpx si a => s.atCommand { light := 0, n := 1, src := [{ sourceIndex := si, alpha := a }] } []
  | _ => { s with phase := .idle, taps := [], pending := .writeReg 0 w :: s.pending }

end Sys2Proof.Machine
end

