-- ==== Sys2Proof/Machine/Step.lean ====
section
/-! DEFINITION. One step of the machine. -/

namespace Sys2Proof.Machine

/-- One step: the instruction the sequencer fetches is executed, or the sequencer's own act is done. -/
def step (s : State) : Host.Outcome State Fault Refusal :=
  match s.fetch with
  | .run i s' => exec i s'
  | .act o => o

/-- `s` with the instruction of a table word placed where the next step fetches it. A word that no decoder reads
leaves `s` as it is. -/
def State.withFetchWord (s : State) (nbits w : Nat) : State :=
  match decodeTableWord nbits w with
  | some i => s.withInstr i w
  | none => s

end Sys2Proof.Machine
end

