-- ==== Sys2Proof/Safety.lean ====
section
/-! DEFINITION. What the statements speak of: the invariant of a reachable state (10_state.md rule R40), what reset
leaves (rule R42), a filter command executed as one function (42_filtermap.md rule R190), the layouts of the
streams, and a bound on the steps of an `ST_PATCH` (70_reset_and_hazards.md rule R320). -/

namespace Sys2Proof.Machine

/-! ### The invariant, unit by unit -/

/-- Every sparse store is in canonical form. -/
def StoresCanonical (s : State) : Prop :=
  Memory.wf s.icm ∧ Memory.wf s.pm ∧ Memory.wf s.base.left ∧ Memory.wf s.base.right ∧
    Memory.wf s.base.pix ∧ Memory.wf s.pal ∧ Memory.wf s.pset ∧ ∀ f ∈ s.out, Memory.wf f.pix

/-- Each position lies in its stream (10_state.md rule R26). -/
def PositionsInStreams (s : State) : Prop :=
  s.icmPos.toNat ≤ s.cfg.icmStream.length ∧ s.pmPos.toNat ≤ s.cfg.pmStream.length ∧
    s.fmPos.toNat ≤ s.cfg.fmStream.length ∧ s.stPos.toNat ≤ s.cfg.stStream.length

/-- R40 (e): Unloaded means no cube. Every cell of a cube held is defined, and the capacity is kept (R27). -/
def IcmSound (s : State) : Prop :=
  (s.icmState = 0 → s.icmCount = 0 ∧ s.icm = []) ∧
    (∀ a < s.icmCount.toNat * 32768, (Memory.read s.icm a).isSome) ∧
    exceeds s.icmCount.toNat s.cfg.icmMaxCubes = false

/-- R40 (a): Loaded means that all 40 x 4096 cells are defined; Unloaded means that none is (R28). -/
def PmSound (s : State) : Prop :=
  (s.pmState = 0 → s.pm = []) ∧ (s.pmState = 1 → ∀ a < 163840, (Memory.read s.pm a).isSome)

/-- R40 (b): Loaded means 17 filtermaps whose counts are their lists' lengths; Unloaded means that none is defined. -/
def FmSound (s : State) : Prop :=
  (s.fmState = 0 → s.fm = []) ∧ (s.fmState = 1 → FilterStore.WellFormed s.fm)

/-- R40 (c), (d) and (f), with R30: `ST_STATE` is never 3; Unloaded holds no header; otherwise there are 17 templates
whose two offsets are positions in the stream; the row arrays have length `height` when Loaded and 0 when not. -/
def StSound (s : State) : Prop :=
  s.stState ≠ 3 ∧ (s.stState = 0 → s.templates = []) ∧
    (s.stState ≠ 0 → s.templates.length = 17) ∧
    (∀ t ∈ s.templates,
      t.hdr.outlineOff ≤ s.cfg.stStream.length ∧ t.hdr.cmdOff ≤ s.cfg.stStream.length) ∧
    (s.stState = 1 → ∀ t ∈ s.templates, t.left.length = t.hdr.height.toNat ∧
      t.right.length = t.hdr.height.toNat ∧ t.cmdOffRow.length = t.hdr.height.toNat) ∧
    (s.stState ≠ 1 → ∀ t ∈ s.templates, t.left = [] ∧ t.right = [] ∧ t.cmdOffRow = [])

/-- 10_state.md rule R40, clauses (a) to (f). -/
def TablesSound (s : State) : Prop :=
  IcmSound s ∧ PmSound s ∧ FmSound s ∧ StSound s

/-- The edge arrays of `OUT` have one element per row (42_filtermap.md rule R199). -/
def OutSound (s : State) : Prop :=
  ∀ f ∈ s.out, f.left.length = f.height.toNat ∧ f.right.length = f.height.toNat

/-- The command at the cursor of an `ST_PATCH` of the given slope, if the FM store holds one there. -/
def State.commandAt (s : State) (slope : Nat) : Option FilterCmd :=
  (s.fm[slope]?.bind fun f => f.rows[s.curY.toNat]?).bind fun r => r.cmds[s.curK.toNat]?

/-- What an operation in progress relies on: no operation, no operands; an `ST_PATCH` has passed its `Precheck`
(43_slope_template.md rule R241), its frame is set up, and no more operand records are executed than the command at the
cursor has, which is none where the cursor is at no command. -/
def PhaseSound (s : State) : Prop :=
  match s.phase with
  | .idle => s.taps = []
  | .patching slope =>
    slope < 17 ∧ s.srcPresent = 1 ∧ s.fmState = 1 ∧ s.stState = 1 ∧
      (∀ id ∈ s.patternList, id.toNat < 40) ∧ (s.psetLen ≠ 0 → s.pmState = 1) ∧ s.out.isSome ∧
      s.taps.length ≤ ((s.commandAt slope).map fun c => c.n.toNat).getD 0

/-- The invariant of every reachable state. -/
def StateSound (s : State) : Prop :=
  s.cfg.WellFormed ∧ StoresCanonical s ∧ PositionsInStreams s ∧ TablesSound s ∧ OutSound s ∧
    PhaseSound s

/-! ### What reset leaves -/

/-- The rows of 10_state.md rule R42 that give a value; `undef` is a store that lists nothing. -/
def ResetValues (s : State) : Prop :=
  (s.icmState = 0 ∧ s.pmState = 0 ∧ s.fmState = 0 ∧ s.stState = 0 ∧ s.icmCount = 0) ∧
    (s.icm = [] ∧ s.pm = [] ∧ s.fm = [] ∧ s.templates = []) ∧
    (s.status = 0 ∧ s.result = 0 ∧ s.resultValid = 0) ∧
    (s.arg0 = 0 ∧ s.arg1 = 0 ∧ s.arg2 = 0 ∧ s.arg3 = 0 ∧ s.srcPresent = 0 ∧ s.psetLen = 0 ∧
      s.palLen = 0) ∧
    (s.pset = [] ∧ s.pal = [] ∧ (∀ fld, BaseFrame.read s.base fld = none) ∧ s.out = none) ∧
    (s.icmPos = 0 ∧ s.pmPos = 0 ∧ s.fmPos = 0 ∧ s.stPos = 0 ∧ s.log = [])

/-! ### A filter command as one function -/

/-- The loop of R190 over the source pixels, from the operands gathered so far. -/
def State.gather (s : State) (y : Nat) : List SrcPx → List Tap → Except Cause (List Tap)
  | [], taps => .ok taps
  | p :: ps, taps =>
    match s.sourceColour y p.sourceIndex with
    | .error e => .error e
    | .ok rgb => s.gather y ps (taps ++ [{ alpha := p.alpha, rgb := rgb }])

/-- `BLEND(cmd, y, k)` of R190, whole, at the cursor. -/
def State.blendWhole (s : State) (c : FilterCmd) : Host.Outcome State Fault Refusal :=
  match s.gather s.curY.toNat c.src [] with
  | .error (code, info) => .next (s.patchFail code info)
  | .ok taps => State.composite { s with taps := taps } c.light

/-! ### The layout of a stream, as numbers -/

/-- The 16-bit number at a stream position, least significant byte first (20_memory.md rule R63). -/
def halfAt (b : List Byte) (p : Nat) : Option Nat :=
  match b[p]?, b[p + 1]? with
  | some x, some y => some (x.toNat + 256 * y.toNat)
  | _, _ => none

/-- The 32-bit number at a stream position, least significant byte first (20_memory.md rule R64). -/
def wordAt (b : List Byte) (p : Nat) : Option Nat :=
  match halfAt b p, halfAt b (p + 2) with
  | some x, some y => some (x + 65536 * y)
  | _, _ => none

/-- A slope-template block lies at `start` in the stream with the given block size: the size field before it, the seven
header fields, and the block's end, which the skip seeks to (30_encoding.md rule R116; 43_slope_template.md rules R222
to R225). -/
def HeaderAt (b : List Byte) (start size : Nat) (h : Header) : Prop :=
  wordAt b (start - 4) = some size ∧ start + size ≤ b.length ∧
    wordAt b start = some h.width.toNat ∧ wordAt b (start + 4) = some h.height.toNat ∧
    wordAt b (start + 8) = some h.hotx.toNat ∧ wordAt b (start + 12) = some h.hoty.toNat ∧
    wordAt b (start + 16) = some h.dataSize.toNat ∧
    (∃ r, wordAt b (start + 20) = some r ∧ h.outlineOff = r + start) ∧
    ∃ r, wordAt b (start + 24) = some r ∧ h.cmdOff = r + start

/-- A template's two out-of-band tables lie in the stream where its rebased offsets say (43_slope_template.md rule R226). -/
def TablesAt (b : List Byte) (t : Template) : Prop :=
  t.hdr.outlineOff ≤ b.length ∧ t.hdr.cmdOff ≤ b.length ∧
    t.left.length = t.hdr.height.toNat ∧ t.right.length = t.hdr.height.toNat ∧
    t.cmdOffRow.length = t.hdr.height.toNat ∧
    ∀ y < t.hdr.height.toNat,
      halfAt b (t.hdr.outlineOff + 4 * y) = t.left[y]?.map BitVec.toNat ∧
      halfAt b (t.hdr.outlineOff + 4 * y + 2) = t.right[y]?.map BitVec.toNat ∧
      wordAt b (t.hdr.cmdOff + 4 * y) = t.cmdOffRow[y]?.map BitVec.toNat

/-- A template's block lies at `start` in the stream, and its tables where its offsets say. -/
def SlotAt (b : List Byte) (start size : Nat) (t : Template) : Prop :=
  HeaderAt b start size t.hdr ∧ TablesAt b t

/-! ### The FM stream, read by read -/

/-- The bytes of each read of `DecodeCmd`: the header, then for each record a byte and a 2-byte unit (42_filtermap.md
rules R182, R183; 20_memory.md rule R69). -/
def cmdReads (c : FilterCmd) : List (List Byte) :=
  encode (.blend c.light c.n) :: c.src.flatMap fun p =>
    [(encodePixel p.sourceIndex p.alpha).take 1, (encodePixel p.sourceIndex p.alpha).drop 1]

/-- The bytes of each read of a row: its width, then its commands (42_filtermap.md rule R181). -/
def rowReads (r : FilterRow) : List (List Byte) :=
  encode16 r.width :: r.cmds.flatMap cmdReads

/-- The bytes of each read of a filtermap: size, height, rows (42_filtermap.md rule R181). -/
def filtermapReads (f : Filtermap) : List (List Byte) :=
  encode32 f.size :: encode32 f.height :: f.rows.flatMap rowReads

/-- The bytes of each read of a whole FM stream, in order. -/
def storeReads (fm : List Filtermap) : List (List Byte) :=
  fm.flatMap filtermapReads

/-- A row's command count is within `FM_MAX_ROW_CMDS`. -/
def RowFits (c : Config) (r : FilterRow) : Prop :=
  ∀ m ∈ c.fmMaxRowCmds, r.width.toNat ≤ m

/-- A filtermap's row count is within `FM_MAX_ROWS`, and each of its rows fits. -/
def FiltermapFits (c : Config) (f : Filtermap) : Prop :=
  (∀ m ∈ c.fmMaxRows, f.height.toNat ≤ m) ∧ ∀ r ∈ f.rows, RowFits c r

/-! ### The steps of an ST_PATCH -/

/-- A bound on the steps from the start of `Run` over a filtermap to its end: each command's records and its header,
one step for the end of each row, and one for the completion. -/
def patchBudget (f : Filtermap) : Nat :=
  (f.rows.map fun r => 1 + (r.cmds.map fun c => c.n.toNat + 1).sum).sum + 1

end Sys2Proof.Machine
end

