-- ==== Sys2Proof/Certificates/Slice0/Obligations.lean ====
section
/-! DEFINITION. The statements for the provers, from the numbered rules of spec/. -/

open Sys2Proof Sys2Proof.Machine

/-! ### Encodings -/

/-- Words written out bit by bit from 30_encoding.md rules R101, R102 and R111 decode to what they stand for. -/
def Obligations.WordsFromTheTablesDecode : Prop :=
  decode .fc [0b10010101] = .ok (.blend 9 5, []) ∧
  decode .sp [0b00101100, 0b00001001, 0b00000000] = .ok (.srcpx 4 300, []) ∧
  decode .sp [0x12, 0x34, 0x56] = .ok (.srcpx 11034 18, []) ∧
  decode .ho [0b00000010] = .ok (.icmLookup, []) ∧
  decode .ho [0b00010100] = .ok (.pmApply, []) ∧
  decode .ho [0b00100000] = .ok (.fmLoad, []) ∧
  decode .ho [0b00110011] = .ok (.stPatch, []) ∧
  decode .ho [0b00110100] = .error (.illegalOperation 0x34)

/-- R104: the packing formulas, the source's two examples, and that packing and decoding undo each other on every
header byte and every 24-bit value. -/
def Obligations.PackingAndDecodingAreInverse : Prop :=
  (∀ light n : BitVec 4, (encodeHeader light n).toNat = light.toNat * 16 + n.toNat ∧
    decodeHeader (encodeHeader light n) = .blend light n) ∧
  (∀ h : Byte, encodeHeader (headerLight h) (headerCount h) = h) ∧
  (∀ (si : BitVec 15) (a : BitVec 9), (packPixel si a).toNat = si.toNat * 512 + a.toNat ∧
    decodePixel (packPixel si a) = .srcpx si a ∧
    encodePixel si a = [BitVec.ofNat 8 (packPixel si a).toNat, BitVec.ofNat 8 ((packPixel si a).toNat / 256),
      BitVec.ofNat 8 ((packPixel si a).toNat / 65536)]) ∧
  (∀ v : BitVec 24, packPixel (srcIndexField v) (alphaField v) = v) ∧
  encodeHeader 9 5 = 0x95 ∧ decodeHeader 0x95 = .blend 9 5 ∧
  (packPixel 4 300).toNat = 2348 ∧ encodePixel 4 300 = [0x2C, 0x09, 0x00]

/-- Decoding the encoding of any instruction, in its format, gives it back and leaves the bytes after it. -/
def Obligations.DecodeOfEncodeIsTheInstruction : Prop :=
  ∀ (i : Instr) (rest : List Byte), decode i.format (encode i ++ rest) = .ok (i, rest)

/-- Each encoding has one meaning: what a decoder reads is the encoding of the instruction it answers. -/
def Obligations.EncodeOfDecodeIsTheBytes : Prop :=
  ∀ (f : Format) (bytes rest : List Byte) (i : Instr),
    decode f bytes = .ok (i, rest) → bytes = encode i ++ rest ∧ i.format = f

/-- `DecodeCmd` at any position of a stream reads a well-formed command from its encoding there, every field at
every value, and consumes `1 + 3*n` bytes (R103, R182). -/
def Obligations.CommandDecodesFromItsEncoding : Prop :=
  ∀ (c : FilterCmd) (before after : List Byte), c.WellFormed →
    readCmd (before ++ encodeCmd c ++ after) before.length =
      .ok c (before.length + (1 + 3 * c.n.toNat))

/-! ### What a step runs -/

/-- A write to `OP` of an operation's code runs that operation, with the write taken from the host's list. -/
def Obligations.StepRunsTheStartedOperation : Prop :=
  ∀ (s : State) (v : Nat) (rest : List HostEvent) (i : Instr),
    s.phase = .idle → s.pending = .writeReg 0 v :: rest →
    decode .ho [BitVec.ofNat 8 v] = .ok (i, []) →
    step s = exec i { s with pending := rest }

/-- During an `ST_PATCH` a step runs the command at the cursor: its next operand record, or its header when all `n`
records are executed. -/
def Obligations.StepRunsTheCommandAtTheCursor : Prop :=
  ∀ (s : State) (slope : Nat) (f : Filtermap) (row : FilterRow) (c : FilterCmd),
    s.phase = .patching slope → s.fm[slope]? = some f → s.curY.toNat < f.height.toNat →
    f.rows[s.curY.toNat]? = some row → s.curK.toNat < row.width.toNat →
    row.cmds[s.curK.toNat]? = some c →
    (∀ p, s.taps.length < c.n.toNat → c.src[s.taps.length]? = some p →
      step s = exec (.srcpx p.sourceIndex p.alpha) s) ∧
    (c.n.toNat ≤ s.taps.length → step s = exec (.blend c.light c.n) s)

/-- R243 and R244: at the end of a row the cursor enters the next, `CUR_K` from 0, and after the last row `CUR_K` stays (as
in program P1's end state, `CUR_Y = 2`, `CUR_K = 2`); when no row is left the `ST_PATCH` ends `OK` with its result valid. -/
def Obligations.RowsEndAndThePatchCompletes : Prop :=
  ∀ (s : State) (slope : Nat) (f : Filtermap), s.phase = .patching slope → s.fm[slope]? = some f →
    (f.height.toNat ≤ s.curY.toNat → step s =
      .next { s with status := 0, result := 0, resultValid := 1, phase := .idle, taps := [] }) ∧
    (∀ row, s.curY.toNat < f.height.toNat → f.rows[s.curY.toNat]? = some row →
      row.width.toNat ≤ s.curK.toNat → step s =
      .next { s with
        curY := BitVec.ofNat 32 (s.curY.toNat + 1)
        curK := if s.curY.toNat + 1 < f.height.toNat then 0 else s.curK })

/-- R275: any code but the thirteen ends with status 11 and one error record, and changes nothing else. -/
def Obligations.UnassignedCodesAreIllegal : Prop :=
  ∀ (s : State) (v : Nat) (rest : List HostEvent),
    s.phase = .idle → s.pending = .writeReg 0 v :: rest →
    v % 256 ∉ [0x01, 0x02, 0x10, 0x11, 0x12, 0x13, 0x14, 0x15, 0x20, 0x30, 0x31, 0x32, 0x33] →
    step s = .next { s with
      pending := rest, status := 11, result := 0, resultValid := 0
      log := s.log ++ [{ level := .error, code := .illegalOperation, info := BitVec.ofNat 32 (v % 256) }] }

/-! ### Invariants -/

/-- Every step keeps the invariant, from every state that has it. -/
def Obligations.StepKeepsTheInvariant : Prop :=
  ∀ s t : State, StateSound s → step s = .next t → StateSound t

/-- The state after reset has the invariant, whatever the configuration and whatever the host will do. -/
def Obligations.ResetHasTheInvariant : Prop :=
  (∀ (c : Config) (events : List HostEvent), c.WellFormed →
    StateSound { State.resetWith c with pending := events }) ∧ StateSound State.reset

/-- R40: the table invariants hold in every state reachable from reset, for every list of host events. -/
def Obligations.ReachableTablesAreSound : Prop :=
  ∀ (c : Config) (events : List HostEvent) (k : Nat) (t : State), c.WellFormed →
    Sys2Proof.core.run k { State.resetWith c with pending := events } = .next t → TablesSound t

/-- No state with the invariant stops the machine: each has a next state, but for a host read of `OP`. -/
def Obligations.InvariantStatesDoNotStop : Prop :=
  ∀ s : State, StateSound s →
    (∃ t, step s = .next t) ∨ (s.phase = .idle ∧ s.pending.head? = some (.readReg 0))

/-- R42, R300: the state after reset has the listed values, and so has the state after a step that serves the reset
event, from any state with no operation in progress; the event keeps the configuration, leaves no operation in
progress, and the host's own side goes on (log entry 17). The cursor, which R42 calls `undef`, is left out. -/
def Obligations.ResetLeavesTheListedValues : Prop :=
  (∀ c : Config, ResetValues (State.resetWith c) ∧ (State.resetWith c).cfg = c) ∧
  ∀ (s : State) (rest : List HostEvent), s.phase = .idle → s.pending = .reset :: rest →
    ∃ t, step s = .next t ∧ ResetValues t ∧ t.cfg = s.cfg ∧ t.phase = .idle ∧ t.taps = [] ∧
      t.pending = rest ∧ t.readData = s.readData ∧ t.draws = s.draws

/-- No step changes the configuration: the streams, the lightmap and the parameters. -/
def Obligations.ConfigurationIsNeverWritten : Prop :=
  ∀ s t : State, step s = .next t → t.cfg = s.cfg

/-- R245: no instruction changes the base frame, and no step of an `ST_PATCH` does. -/
def Obligations.BaseFrameIsNeverWrittenByTheBlock : Prop :=
  (∀ (i : Instr) (s t : State), exec i s = .next t → t.base = s.base) ∧
  ∀ (s t : State) (slope : Nat), s.phase = .patching slope → step s = .next t → t.base = s.base

/-- R301: a Loaded ICM, PM or FM unit stays Loaded and unchanged until reset; `ST_STATE` moves only by `ST_LOAD` and
`ST_UNLOAD`. -/
def Obligations.LoadedUnitsStayUntilReset : Prop :=
  ∀ s t : State, step s = .next t → (s.phase = .idle → s.pending.head? ≠ some .reset) →
    (s.icmState = 1 → t.icmState = 1 ∧ t.icmCount = s.icmCount ∧ t.icm = s.icm) ∧
    (s.pmState = 1 → t.pmState = 1 ∧ t.pm = s.pm) ∧
    (s.fmState = 1 → t.fmState = 1 ∧ t.fm = s.fm) ∧
    (t.stState ≠ s.stState → s.phase = .idle ∧
      ∃ v rest, s.pending = .writeReg 0 v :: rest ∧ (v % 256 = 0x30 ∨ v % 256 = 0x31))

/-- R38: the log is append-only, and only reset clears it. -/
def Obligations.LogOnlyGrows : Prop :=
  ∀ s t : State, step s = .next t → (s.phase = .idle → s.pending.head? ≠ some .reset) →
    ∃ records, t.log = s.log ++ records

/-- R260, R266: an instruction that answers a next state has gone on with its `ST_PATCH` and reported nothing, or ended with
status `OK` and warnings only, or ended with an error: the code in `STATUS`, `RESULT` and `RESULT_VALID` 0, and
exactly one error record, the last. -/
def Obligations.EveryInstructionReportsOneOutcome : Prop :=
  ∀ (i : Instr) (s t : State), exec i s = .next t →
    ∃ warnings : List LogRecord, (∀ r ∈ warnings, r.level = .warning) ∧
      ((∃ slope, t.phase = .patching slope ∧ t.status = s.status ∧ t.result = s.result ∧
          t.resultValid = s.resultValid ∧ t.log = s.log ++ warnings) ∨
        (t.status = 0 ∧ t.log = s.log ++ warnings) ∨
        (∃ c info, c ≠ .ok ∧ c ≠ .rangeError ∧ t.status = c.toByte ∧ t.result = 0 ∧
          t.resultValid = 0 ∧
          t.log = s.log ++ warnings ++ [{ level := .error, code := c, info := info }]))

/-- Each instruction's frame: what it may change, everything else being as before. The state `t` is `s` with only
the named fields replaced. -/
def Obligations.InstructionsChangeOnlyTheirState : Prop :=
  ∀ s t : State,
    (∀ i ∈ [Instr.icmLookup, .pmIgnore, .pmBrighten, .pmDarken, .pmApply, .pmGetIcm, .stIsLoaded],
      exec i s = .next t → t = { s with
        status := t.status, result := t.result, resultValid := t.resultValid, log := t.log }) ∧
    (exec .icmLoad s = .next t → t = { s with
      status := t.status, result := t.result, resultValid := t.resultValid, log := t.log
      icmState := t.icmState, icmCount := t.icmCount, icm := t.icm, icmPos := t.icmPos }) ∧
    (exec .pmLoad s = .next t → t = { s with
      status := t.status, result := t.result, resultValid := t.resultValid, log := t.log
      pmState := t.pmState, pm := t.pm, pmPos := t.pmPos }) ∧
    (exec .fmLoad s = .next t → t = { s with
      status := t.status, result := t.result, resultValid := t.resultValid, log := t.log
      fmState := t.fmState, fm := t.fm, fmPos := t.fmPos }) ∧
    (exec .stLoad s = .next t → t = { s with
      status := t.status, result := t.result, resultValid := t.resultValid, log := t.log
      stState := t.stState, templates := t.templates, stPos := t.stPos }) ∧
    (exec .stUnload s = .next t → t = { s with
      status := t.status, result := t.result, resultValid := t.resultValid, log := t.log
      stState := t.stState, templates := t.templates }) ∧
    (exec .stPatch s = .next t → t = { s with
      status := t.status, result := t.result, resultValid := t.resultValid, log := t.log
      out := t.out, phase := t.phase, taps := t.taps, curY := t.curY, curK := t.curK }) ∧
    (∀ si a, exec (.srcpx si a) s = .next t → t = { s with
      status := t.status, result := t.result, resultValid := t.resultValid, log := t.log
      out := t.out, phase := t.phase, taps := t.taps }) ∧
    (∀ light n, exec (.blend light n) s = .next t → t = { s with
      status := t.status, result := t.result, resultValid := t.resultValid, log := t.log
      out := t.out, phase := t.phase, taps := t.taps, curK := t.curK })

/-- R310, R22: while an `ST_PATCH` runs no host event is taken, and none that waits has any influence on the step. -/
def Obligations.HostIsNotServedWhileBusy : Prop :=
  ∀ (s t : State) (slope : Nat) (events : List HostEvent), s.phase = .patching slope →
    step s = .next t → t.pending = s.pending ∧
      step { s with pending := events } = .next { t with pending := events }

/-! ### The host's accesses -/

/-- R21: a host write keeps the low bits, and one to a read-only register is ignored. -/
def Obligations.HostWritesReachTheirRegisters : Prop :=
  ∀ (s : State) (i : BitVec 4) (v : Nat) (rest : List HostEvent),
    s.phase = .idle → s.pending = .writeReg i v :: rest →
    (i = 4 → step s = .next { s with pending := rest, arg0 := BitVec.ofNat 32 v }) ∧
    (i = 5 → step s = .next { s with pending := rest, arg1 := BitVec.ofNat 32 v }) ∧
    (i = 6 → step s = .next { s with pending := rest, arg2 := BitVec.ofNat 32 v }) ∧
    (i = 7 → step s = .next { s with pending := rest, arg3 := BitVec.ofNat 32 v }) ∧
    (i = 8 → step s = .next { s with pending := rest, srcPresent := BitVec.ofNat 1 v }) ∧
    (i = 9 → step s = .next { s with pending := rest, psetLen := BitVec.ofNat 8 v }) ∧
    (i = 10 → step s = .next { s with pending := rest, palLen := BitVec.ofNat 9 v }) ∧
    (i ∈ [1, 2, 3, 11, 12, 13, 14, 15] → step s = .next { s with pending := rest })

/-- R21: a host read returns its register, widened with zeros; `OP` is not readable and the model refuses the read. -/
def Obligations.HostReadsReturnTheRegisters : Prop :=
  ∀ (s : State) (i : BitVec 4) (rest : List HostEvent),
    s.phase = .idle → s.pending = .readReg i :: rest →
    (i = 0 → step s = .refused .opNotReadable) ∧
    (i ≠ 0 → ∃ w : Word, step s = .next { s with pending := rest, readData := w } ∧
      w.toNat = [0, s.status.toNat, s.result.toNat, s.resultValid.toNat, s.arg0.toNat, s.arg1.toNat,
        s.arg2.toNat, s.arg3.toNat, s.srcPresent.toNat, s.psetLen.toNat, s.palLen.toNat,
        s.icmState.toNat, s.icmCount.toNat, s.pmState.toNat, s.fmState.toNat,
        s.stState.toNat].getD i.toNat 0)

/-- R32, R33: a host read of any field of `OUT` (size, hotspot, an edge, a pixel) gives its value while the result is
valid, and a read of any field of `BASE` gives what it holds; of a cell that is `undef`, which all of `OUT` is while
`RESULT_VALID` is 0, the read gives a free value (log entry 5). That a read outside a frame's plane or edge arrays is
accepted, and there gives a free value where nothing is held, is the model's choice, and so is that a read of a field of
`BASE` other than its pixels is accepted (log entry 24). -/
def Obligations.HostReadsOfTheFrames : Prop :=
  ∀ (s : State) (fld : FrameField) (rest : List HostEvent), s.phase = .idle →
    let outCell := fun f : OutFrame => match fld with
      | .width => some f.width.toNat
      | .height => some f.height.toNat
      | .hotx => some f.hotx.toNat
      | .hoty => some f.hoty.toNat
      | .left y => f.left[y]?.map BitVec.toNat
      | .right y => f.right[y]?.map BitVec.toNat
      | .pix a => (Memory.read f.pix a).map BitVec.toNat
    let baseCell := match fld with
      | .width => s.base.width.map BitVec.toNat
      | .height => s.base.height.map BitVec.toNat
      | .hotx => s.base.hotx.map BitVec.toNat
      | .hoty => s.base.hoty.map BitVec.toNat
      | .left y => (Memory.read s.base.left y).map BitVec.toNat
      | .right y => (Memory.read s.base.right y).map BitVec.toNat
      | .pix a => (Memory.read s.base.pix a).map BitVec.toNat
    let returns := fun v : Nat => Host.Outcome.next (φ := Fault) (ρ := Refusal) { s with
      pending := rest, readData := BitVec.ofNat 32 v }
    let returnsFree := Host.Outcome.next (φ := Fault) (ρ := Refusal) { s with
      pending := rest, readData := Config.freeRead s.draws, draws := s.draws + 1 }
    (s.pending = .readOut fld :: rest →
      (∀ f v, s.resultValid = 1 → s.out = some f → outCell f = some v → step s = returns v) ∧
      ((s.resultValid = 0 ∨ s.out = none ∨ ∃ f, s.out = some f ∧ outCell f = none) →
        step s = returnsFree)) ∧
    (s.pending = .readBase fld :: rest →
      (∀ v, baseCell = some v → step s = returns v) ∧ (baseCell = none → step s = returnsFree))

/-- R32, R34, R36: the host's writes of the operand stores change exactly the cell addressed: any field of `BASE`, which
keeps the value's low 32, 16 or 8 bits, an entry of `PAL`, an entry of `PSET`. That a cell outside the plane is
written too is the model's choice (log entry 16). -/
def Obligations.HostWritesReachTheirCells : Prop :=
  ∀ (s : State) (rest : List HostEvent), s.phase = .idle →
    (∀ (fld : FrameField) (v : Nat), Memory.wf s.base.left → Memory.wf s.base.right → Memory.wf s.base.pix →
      s.pending = .writeBase fld v :: rest →
      let bits := match fld with
        | .left _ => 16
        | .right _ => 16
        | .pix _ => 8
        | _ => 32
      ∃ b, step s = .next { s with pending := rest, base := b } ∧
        ∀ g, BaseFrame.read b g =
          if g = fld then some (BitVec.ofNat 32 (v % 2 ^ bits)) else BaseFrame.read s.base g) ∧
    (∀ (p : Byte) (c : Rgb), Memory.wf s.pal → s.pending = .writePal p c :: rest →
      ∃ m, step s = .next { s with pending := rest, pal := m } ∧
        ∀ b, Memory.read m b = if b = p.toNat then some c else Memory.read s.pal b) ∧
    (∀ j id : Byte, Memory.wf s.pset → s.pending = .writePset j id :: rest →
      ∃ m, step s = .next { s with pending := rest, pset := m } ∧
        ∀ b, Memory.read m b = if b = j.toNat then some id else Memory.read s.pset b)

/-! ### The ICM unit -/

/-- R131 in closed form: with `q` whole cubes in the stream, the load of a Loaded unit is refused; else a capacity
below `q` fails at the first cube too many; else a partial cube is a format error at its position; else the `q` cubes
are held, byte for byte. -/
def Obligations.IcmLoadOutcome : Prop :=
  ∀ s : State, let n := s.cfg.icmStream.length
    (s.icmState = 1 → exec .icmLoad s = .next { s with
      status := 3, result := 0, resultValid := 0
      log := s.log ++ [{ level := .error, code := .preconditionError, info := 0x01 }] }) ∧
    (∀ m, s.icmState = 0 → s.cfg.icmMaxCubes = some m → m < n / 32768 →
      exec .icmLoad s = .next { s with
        status := 10, result := 0, resultValid := 0
        log := s.log ++ [{ level := .error, code := .capacityError, info := BitVec.ofNat 32 m }]
        icmState := 0, icmCount := 0, icm := [], icmPos := BitVec.ofNat 32 (m * 32768) }) ∧
    (s.icmState = 0 → (∀ m ∈ s.cfg.icmMaxCubes, n / 32768 ≤ m) → n % 32768 ≠ 0 →
      exec .icmLoad s = .next { s with
        status := 1, result := 0, resultValid := 0
        log := s.log ++ [{ level := .error, code := .formatError
                           info := BitVec.ofNat 32 (n / 32768 * 32768) }]
        icmState := 0, icmCount := 0, icm := [], icmPos := BitVec.ofNat 32 (n / 32768 * 32768) }) ∧
    (s.icmState = 0 → (∀ m ∈ s.cfg.icmMaxCubes, n / 32768 ≤ m) → n % 32768 = 0 →
      ∃ m : Memory, exec .icmLoad s = .next { s with
        status := 0, result := 0, resultValid := 0
        icmState := 1, icmCount := BitVec.ofNat 32 (n / 32768), icm := m
        icmPos := BitVec.ofNat 32 n } ∧
        ∀ a, Memory.read m a = s.cfg.icmStream[a]?)

/-- R132: a lookup in a held cube returns the cell `[r>>3][g>>3][b>>3]`, the last subscript contiguous; in a cube that is
not held it ends with `IcmAbsentFault(c)` and changes nothing else. -/
def Obligations.IcmLookupReturnsTheCellOrFaults : Prop :=
  ∀ s : State,
    (s.arg0.toNat < s.icmCount.toNat → exec .icmLookup s = .next { s with
      status := 0, resultValid := 1
      result := (byteAt .icm s.icm (s.arg0.toNat * 32768 + (s.arg1.toNat % 256 / 8 * 1024 +
        s.arg2.toNat % 256 / 8 * 32 + s.arg3.toNat % 256 / 8))).setWidth 32 }) ∧
    (s.icmCount.toNat ≤ s.arg0.toNat → exec .icmLookup s = .next { s with
      status := 6, result := 0, resultValid := 0
      log := s.log ++ [{ level := .error, code := .icmAbsentFault, info := s.arg0 }] })

/-! ### The PM unit -/

/-- R151, R114: a stream whose 40 length fields are 4096 loads, and mask `id`'s entry `i` is stream byte
`id*4100 + 4 + i`; bytes after the 40th record are not read. -/
def Obligations.PmLoadStoresTheMasks : Prop :=
  ∀ s : State, s.pmState = 0 → 164000 ≤ s.cfg.pmStream.length →
    (∀ id < 40, wordAt s.cfg.pmStream (id * 4100) = some 4096) →
    ∃ m : Memory, exec .pmLoad s = .next { s with
      status := 0, result := 0, resultValid := 0, pmState := 1, pm := m, pmPos := 164000 } ∧
      ∀ id < 40, ∀ i < 4096, Memory.read m (id * 4096 + i) = s.cfg.pmStream[id * 4100 + 4 + i]?

/-- R151: the first mask whose length field is not 4096, every record before it being complete, is a format error with its
number, and the unit ends Unloaded with no mask. -/
def Obligations.PmLoadRejectsABadLength : Prop :=
  ∀ (s : State) (bad len : Nat), s.pmState = 0 → bad < 40 →
    (∀ id < bad, wordAt s.cfg.pmStream (id * 4100) = some 4096) →
    wordAt s.cfg.pmStream (bad * 4100) = some len → len ≠ 4096 →
    exec .pmLoad s = .next { s with
      status := 1, result := 0, resultValid := 0
      log := s.log ++ [{ level := .error, code := .formatError, info := BitVec.ofNat 32 bad }]
      pmState := 0, pm := [], pmPos := BitVec.ofNat 32 (bad * 4100 + 4) }

/-- R151: a stream of fewer than 164000 bytes never loads: it ends with `IOError` or `FormatError`, Unloaded and empty. -/
def Obligations.PmLoadOfAShortStreamFails : Prop :=
  ∀ s : State, s.pmState = 0 → s.cfg.pmStream.length < 164000 →
    ∃ t, exec .pmLoad s = .next t ∧ (t.status = 4 ∨ t.status = 1) ∧ t.resultValid = 0 ∧
      t.pmState = 0 ∧ t.pm = []

/-- R150: the checks of a mask query, in order: the unit, the pattern id, the entry index. -/
def Obligations.MaskQueriesCheckInOrder : Prop :=
  ∀ (s : State), ∀ i ∈ [Instr.pmIgnore, .pmBrighten, .pmDarken, .pmApply],
    (s.pmState = 0 → exec i s = .next { s with
      status := 5, result := 0, resultValid := 0
      log := s.log ++ [{ level := .error, code := .tableAbsentFault, info := 0x10 }] }) ∧
    (s.pmState = 1 → 40 ≤ s.arg0.toNat → exec i s = .next { s with
      status := 3, result := 0, resultValid := 0
      log := s.log ++ [{ level := .error, code := .preconditionError, info := s.arg0 }] }) ∧
    (s.pmState = 1 → s.arg0.toNat < 40 → 4096 ≤ s.arg1.toNat → exec i s = .next { s with
      status := 3, result := 0, resultValid := 0
      log := s.log ++ [{ level := .error, code := .preconditionError, info := s.arg1 }] })

/-- R153 to R155: the three predicates read bits 0 and 1 of the entry `PM[ARG0][ARG1]`, and darken is the complement of
brighten. -/
def Obligations.MaskPredicatesReadTheirBits : Prop :=
  ∀ s : State, s.pmState = 1 → s.arg0.toNat < 40 → s.arg1.toNat < 4096 →
    let m := (byteAt .pm s.pm (s.arg0.toNat * 4096 + s.arg1.toNat)).toNat
    let brighter := decide (m / 2 % 2 = (brightenBit s.cfg).toNat)
    exec .pmIgnore s = .next { s with
      status := 0, resultValid := 1, result := BitVec.ofNat 32 (m % 2) } ∧
    exec .pmBrighten s = .next { s with
      status := 0, resultValid := 1, result := if brighter then 1 else 0 } ∧
    exec .pmDarken s = .next { s with
      status := 0, resultValid := 1, result := if brighter then 0 else 1 }

/-- R156, R157: `PM_APPLY` in plain numbers: ignored, or replaced by the candidate where it exceeds the window with bit 1 of the
candidate set or lies below the window, else the input. -/
def Obligations.PmApplyIsTheOneStepClamp : Prop :=
  ∀ s : State, s.pmState = 1 → s.arg0.toNat < 40 → s.arg1.toNat < 4096 →
    let m := (byteAt .pm s.pm (s.arg0.toNat * 4096 + s.arg1.toNat)).toNat
    let input := s.arg2.toNat % 256
    let candidate := m / 4
    let window := input / 4 % 32
    exec .pmApply s = .next { s with
      status := 0, resultValid := 1
      result := BitVec.ofNat 32 (if m % 2 = 1 then input
        else if candidate / 2 % 2 = 1 ∧ window < candidate then candidate
        else if candidate < window then candidate
        else input) }

/-- R158, all seven consequences; item 2 in both directions, lowering at once and raising only with the bit, for every
candidate. -/
def Obligations.ApplyConsequences : Prop :=
  ∀ m x : Byte, let c := m.toNat / 4; let w := x.toNat / 4 % 32; let r := applyEntry m x
    (r = x ∨ (r.toNat = c ∧ r.toNat ≤ 63)) ∧
    (m.toNat % 2 = 0 → c < w → r.toNat = c) ∧
    (m.toNat % 2 = 0 → w < c → r.toNat = if c / 2 % 2 = 1 then c else x.toNat) ∧
    (c = w → r = x) ∧
    applyEntry m r = r ∧
    (∀ x' : Byte, x'.toNat / 4 % 32 = w →
      (r = x ∧ applyEntry m x' = x') ∨ (r.toNat = c ∧ (applyEntry m x').toNat = c)) ∧
    (32 ≤ c → w < c ∧ (m.toNat % 2 = 0 → r.toNat = if c / 2 % 2 = 1 then c else x.toNat)) ∧
    applyEntry (m ^^^ 2) x = r

/-- R169, R167: an empty pattern list returns the neutral cube 4 for every light index, in every state of the tables, with no
record. -/
def Obligations.GetIcmOfAnEmptyListIsNeutral : Prop :=
  ∀ s : State, s.arg0.toNat < 16 → s.psetLen = 0 →
    exec .pmGetIcm s = .next { s with status := 0, result := 4, resultValid := 1 }

/-- R165 to R167: the seed is the first mask's candidate, every further mask is read at the original light index, and a
lightmap result out of range is logged and replaced by 4. -/
def Obligations.GetIcmFoldsAndFallsBack : Prop :=
  ∀ (s : State) (p : Byte) (ps : List Byte), s.arg0.toNat < 16 →
    (∀ m ∈ s.cfg.psetMax, s.psetLen.toNat ≤ m) → s.patternList = p :: ps →
    (∀ id ∈ p :: ps, id.toNat < 40) → s.pmState = 1 →
    let entry := fun id : Byte => byteAt .pm s.pm (id.toNat * 4096 + s.arg0.toNat)
    let running := ps.foldl (fun r id => applyEntry (entry id) r)
      (BitVec.ofNat 8 ((entry p).toNat / 4))
    let cube := lightmapAt s.cfg running.toNat s.arg0.toNat
    (cube.toNat < s.icmCount.toNat → exec .pmGetIcm s = .next { s with
      status := 0, resultValid := 1, result := cube.setWidth 32 }) ∧
    (s.icmCount.toNat ≤ cube.toNat → exec .pmGetIcm s = .next { s with
      status := 0, resultValid := 1, result := 4
      log := s.log ++ [{ level := .warning, code := .rangeError, info := cube.setWidth 32 }] })

/-- R167: the checks of `PM_GETICM`, in order: the light index, the list length, the ids in list order, the unit. -/
def Obligations.GetIcmChecksInOrder : Prop :=
  ∀ s : State,
    let err := fun (code : Code) (info : Word) => Host.Outcome.next (φ := Fault) (ρ := Refusal) { s with
      status := code.toByte, result := 0, resultValid := 0
      log := s.log ++ [{ level := .error, code := code, info := info }] }
    let short := ∀ m ∈ s.cfg.psetMax, s.psetLen.toNat ≤ m
    (16 ≤ s.arg0.toNat → exec .pmGetIcm s = err .preconditionError s.arg0) ∧
    (s.arg0.toNat < 16 → ¬ short →
      exec .pmGetIcm s = err .preconditionError (s.psetLen.setWidth 32)) ∧
    (∀ front id back, s.arg0.toNat < 16 → short → s.patternList = front ++ id :: back →
      (∀ x ∈ front, x.toNat < 40) → 40 ≤ id.toNat →
      exec .pmGetIcm s = err .preconditionError (id.setWidth 32)) ∧
    (s.arg0.toNat < 16 → short → s.psetLen ≠ 0 → (∀ x ∈ s.patternList, x.toNat < 40) →
      s.pmState = 0 → exec .pmGetIcm s = err .tableAbsentFault 0x10)

/-- R168: the running value of the fold is at most 63, in every state and for every list, so the lightmap is asked
inside its domain only. -/
def Obligations.FoldStaysInTheLightmap : Prop :=
  ∀ (s : State) (light : Nat) (p : Byte) (ps : List Byte),
    (s.foldMasks light ps (entryCandidate (s.pmEntry p.toNat light))).toNat ≤ 63

/-! ### The FM unit -/

/-- R181 to R183 with R115: `FM_LOAD` reads any well-formed store of 17 filtermaps from its encoding, whatever follows it, and
every field arrives as it was encoded. -/
def Obligations.FmLoadReadsTheEncodedStore : Prop :=
  ∀ (s : State) (fm : List Filtermap) (after : List Byte), s.fmState = 0 →
    FilterStore.WellFormed fm → s.cfg.fmStream = encodeFilterStore fm ++ after →
    (∀ f ∈ fm, FiltermapFits s.cfg f) →
    exec .fmLoad s = .next { s with
      status := 0, result := 0, resultValid := 0, fmState := 1, fm := fm
      fmPos := BitVec.ofNat 32 (encodeFilterStore fm).length }

/-- R266: a load that fails leaves its own unit Unloaded with its store `undef`, and a unit that was already Loaded
untouched, whatever was read. -/
def Obligations.FailedLoadsClearTheirUnit : Prop :=
  ∀ s t : State, t.status ≠ 0 →
    (exec .icmLoad s = .next t → if s.icmState = 1
      then t.icmState = 1 ∧ t.icmCount = s.icmCount ∧ t.icm = s.icm ∧ t.icmPos = s.icmPos
      else t.icmState = 0 ∧ t.icmCount = 0 ∧ t.icm = []) ∧
    (exec .pmLoad s = .next t → if s.pmState = 1
      then t.pmState = 1 ∧ t.pm = s.pm ∧ t.pmPos = s.pmPos else t.pmState = 0 ∧ t.pm = []) ∧
    (exec .fmLoad s = .next t → if s.fmState = 1
      then t.fmState = 1 ∧ t.fm = s.fm ∧ t.fmPos = s.fmPos else t.fmState = 0 ∧ t.fm = []) ∧
    (exec .stLoad s = .next t → if s.stState = 1
      then t.stState = 1 ∧ t.templates = s.templates ∧ t.stPos = s.stPos
      else t.stState = 0 ∧ t.templates = [])

/-- A load of a unit that is already Loaded is refused with the load's code and changes nothing else (D8). -/
def Obligations.LoadedUnitsRefuseALoad : Prop :=
  ∀ s : State,
    let refuse := fun info : Word => Host.Outcome.next (φ := Fault) (ρ := Refusal) { s with
      status := 3, result := 0, resultValid := 0
      log := s.log ++ [{ level := .error, code := .preconditionError, info := info }] }
    (s.pmState = 1 → exec .pmLoad s = refuse 0x10) ∧
    (s.fmState = 1 → exec .fmLoad s = refuse 0x20) ∧
    (s.stState = 1 → exec .stLoad s = refuse 0x30)

/-! ### The compositor -/

/-- R190, R194, R195, R244, R266: an operand record fetches the pixel of its scanline at its offset, resolves it through the
palette, and adds its weight and colour to the command's operands; outside the base frame, or for a pixel with no
palette entry, it ends the `ST_PATCH` with its fault, the fetch tested before the palette, and all of `OUT` is `undef`.
That a record is a step of its own, which appends to `taps`, is the model's choice (log entry 8); a cell of `BASE` or
`PAL` that the host has not written, reachable with `SRC_PRESENT` or `PAL_LEN` set over it, is read as a free value,
which is the model's choice too (log entry 4). -/
def Obligations.SrcpxFetchesAndResolves : Prop :=
  ∀ (s : State) (slope : Nat) (si : BitVec 15) (a : BitVec 9), s.phase = .patching slope →
    let p := byteAt .basePix s.base.pix (s.curY.toNat * s.baseWidth.toNat + si.toNat)
    (s.curY.toNat < s.baseHeight.toNat → si.toNat < s.baseWidth.toNat → p.toNat < s.palLen.toNat →
      exec (.srcpx si a) s = .next { s with
        taps := s.taps ++ [⟨a, (Memory.read s.pal p.toNat).getD (Config.undefColour p.toNat)⟩] }) ∧
    (s.baseHeight.toNat ≤ s.curY.toNat ∨ s.baseWidth.toNat ≤ si.toNat →
      exec (.srcpx si a) s = .next { s with
        status := 7, result := 0, resultValid := 0, out := none, phase := .idle, taps := []
        log := s.log ++ [{ level := .error, code := .srcRangeFault
                           info := BitVec.ofNat 32 (s.curY.toNat % 65536 * 65536 + si.toNat) }] }) ∧
    (s.curY.toNat < s.baseHeight.toNat → si.toNat < s.baseWidth.toNat → s.palLen.toNat ≤ p.toNat →
      exec (.srcpx si a) s = .next { s with
        status := 8, result := 0, resultValid := 0, out := none, phase := .idle, taps := []
        log := s.log ++ [{ level := .error, code := .paletteRangeFault
                           info := BitVec.ofNat 32 p.toNat }] })

/-- R190, R196 to R199: with its operands executed, a command whose cube is held and whose pixel lies in the output plane writes
exactly that pixel: the colour that `BLEND_FN` gives, whichever function the configuration holds (log entry 14), quantized
through the cube that `getIcm` selects, at column `left[y] + k` of row `y`. With the decided body the colour is the weighted
sums shifted right by 8 and saturated. -/
def Obligations.BlendWritesItsPixel : Prop :=
  ∀ (s : State) (slope : Nat) (light n : BitVec 4) (f : OutFrame) (l : Half),
    s.phase = .patching slope → s.taps.length = n.toNat → s.out = some f → Memory.wf f.pix →
    f.left[s.curY.toNat]? = some l → s.curY.toNat < f.height.toNat →
    l.toNat + s.curK.toNat < f.width.toNat →
    (s.getIcm light.toNat s.patternList).2.toNat < s.icmCount.toNat →
    let lane := fun ch : Rgb → Byte =>
      min 255 ((s.taps.map fun t => t.alpha.toNat * (ch t.rgb).toNat).sum / 256)
    let colour := blendFn s.cfg s.taps
    let idx := byteAt .icm s.icm ((s.getIcm light.toNat s.patternList).2.toNat * 32768 +
      (colour.r.toNat / 8 * 1024 + colour.g.toNat / 8 * 32 + colour.b.toNat / 8))
    (s.cfg.blendBody = .decided → colour.r.toNat = lane Rgb.r ∧ colour.g.toNat = lane Rgb.g ∧
      colour.b.toNat = lane Rgb.b) ∧
    ∃ pix : Memory, exec (.blend light n) s = .next { s with
        log := (s.getIcm light.toNat s.patternList).1.log
        out := some { f with pix := pix }, taps := [], curK := s.curK + 1 } ∧
      ∀ b, Memory.read pix b =
        if b = s.curY.toNat * f.width.toNat + (l.toNat + s.curK.toNat) then some idx
        else Memory.read f.pix b

/-- R198, R199, R244: a command whose cube is absent, or else whose pixel lies outside the output plane, ends the `ST_PATCH` with its
fault, the cube tested first and the row before the column, and all of `OUT` is `undef`. -/
def Obligations.BlendFaultsEndThePatch : Prop :=
  ∀ (s : State) (slope : Nat) (light n : BitVec 4), s.phase = .patching slope →
    s.taps.length = n.toNat →
    let sel := s.getIcm light.toNat s.patternList
    let fail := fun (code : Code) (info : Word) => Host.Outcome.next (φ := Fault) (ρ := Refusal) { s with
      status := code.toByte, result := 0, resultValid := 0, out := none, phase := .idle, taps := []
      log := sel.1.log ++ [{ level := .error, code := code, info := info }] }
    (s.icmCount.toNat ≤ sel.2.toNat → exec (.blend light n) s = fail .icmAbsentFault sel.2) ∧
    (∀ f, sel.2.toNat < s.icmCount.toNat → s.out = some f → f.height.toNat ≤ s.curY.toNat →
      exec (.blend light n) s = fail .destRangeFault
        (BitVec.ofNat 32 (s.curY.toNat % 65536 * 65536 + s.curK.toNat % 65536))) ∧
    (∀ f l, sel.2.toNat < s.icmCount.toNat → s.out = some f → s.curY.toNat < f.height.toNat →
      f.left[s.curY.toNat]? = some l → f.width.toNat ≤ l.toNat + s.curK.toNat →
      exec (.blend light n) s = fail .destRangeFault
        (BitVec.ofNat 32 (s.curY.toNat % 65536 * 65536 + (l.toNat + s.curK.toNat) % 65536)))

/-- R190: the steps of a command, its records and then its header, do what `BLEND(cmd, y, k)` does as one function, faults
included, in at most `n + 1` steps. -/
def Obligations.CommandStepsRefineBlend : Prop :=
  ∀ (s : State) (slope : Nat) (f : Filtermap) (row : FilterRow) (c : FilterCmd),
    s.phase = .patching slope → s.fm[slope]? = some f → s.curY.toNat < f.height.toNat →
    f.rows[s.curY.toNat]? = some row → s.curK.toNat < row.width.toNat →
    row.cmds[s.curK.toNat]? = some c → c.WellFormed → s.taps = [] →
    ∃ k, 1 ≤ k ∧ k ≤ c.n.toNat + 1 ∧ Sys2Proof.core.run k s = s.blendWhole c

/-- R196, R202, for the decided body: no operand, or only zero weights, gives black; one operand of weight 256 gives its
colour; one of weight `a` gives each channel `min 255 (a*c / 256)`. -/
def Obligations.BlendFunctionCorners : Prop :=
  ∀ cfg : Config, cfg.blendBody = .decided →
  blendFn cfg [] = ⟨0, 0, 0⟩ ∧
  (∀ taps : List Tap, (∀ t ∈ taps, t.alpha = 0) → blendFn cfg taps = ⟨0, 0, 0⟩) ∧
  (∀ c : Rgb, blendFn cfg [⟨256, c⟩] = c) ∧
  (∀ (a : BitVec 9) (c : Rgb), let v := blendFn cfg [⟨a, c⟩]
    v.r.toNat = min 255 (a.toNat * c.r.toNat / 256) ∧ v.g.toNat = min 255 (a.toNat * c.g.toNat / 256) ∧
    v.b.toNat = min 255 (a.toNat * c.b.toNat / 256))

/-- R200, for the decided body: the blend is three lanes, each the same function of the weights and of its own channel, and no
lane reads another. -/
def Obligations.BlendLanesAreIndependent : Prop :=
  ∃ lane : List (BitVec 9) → List Byte → Byte,
    ∀ (cfg : Config) (taps : List Tap), cfg.blendBody = .decided → blendFn cfg taps = ⟨lane (taps.map Tap.alpha) (taps.map fun t => t.rgb.r),
      lane (taps.map Tap.alpha) (taps.map fun t => t.rgb.g),
      lane (taps.map Tap.alpha) (taps.map fun t => t.rgb.b)⟩

/-! ### The ST unit -/

/-- R221 to R226, R224: a stream that holds 17 blocks, each next one where the block before it ends, and their tables where the
rebased offsets say, loads to exactly those templates: `outlineOff` and `cmdOff` are the relative offsets plus the block's
start. -/
def Obligations.StLoadReadsTheTemplates : Prop :=
  ∀ (s : State) (ts : List Template) (start size : Nat → Nat), s.stState ≠ 1 → ts.length = 17 →
    start 0 = 4 → (∀ k < 17, start (k + 1) = start k + size k + 4) →
    (∀ k t, ts[k]? = some t → SlotAt s.cfg.stStream (start k) (size k) t ∧
      ∀ m ∈ s.cfg.stMaxRows, t.hdr.height.toNat ≤ m) →
    exec .stLoad s = .next { s with
      status := 0, result := 0, resultValid := 0, stState := 1, templates := ts
      stPos := BitVec.ofNat 32
        ((ts.map fun t => t.hdr.cmdOff + 4 * t.hdr.height.toNat).getLastD 0) }

/-- R230: `ST_UNLOAD` empties every slot's row arrays, keeps the headers, always ends `OK`, and warns when the unit is not
Loaded. -/
def Obligations.StUnloadKeepsTheHeaders : Prop :=
  ∀ s : State,
    let cleared := s.templates.map fun t => { t with left := [], right := [], cmdOffRow := [] }
    (s.stState = 1 → exec .stUnload s = .next { s with
      status := 0, result := 0, resultValid := 0, stState := 2, templates := cleared }) ∧
    (s.stState ≠ 1 → exec .stUnload s = .next { s with
      status := 0, result := 0, resultValid := 0, templates := cleared
      log := s.log ++ [{ level := .warning, code := .preconditionError, info := 0x31 }] })

/-- R231: `ST_ISLOADED` returns 1 in state Loaded and 0 in the other two. -/
def Obligations.StIsLoadedReportsTheState : Prop :=
  ∀ s : State, exec .stIsLoaded s = .next { s with
    status := 0, resultValid := 1, result := if s.stState = 1 then 1 else 0 }

/-- R241: the checks of `ST_PATCH`, in order; each ends it with one error record and all of `OUT` `undef`. -/
def Obligations.PatchChecksInOrder : Prop :=
  ∀ s : State,
    let fail := fun (code : Code) (info : Word) => Host.Outcome.next (φ := Fault) (ρ := Refusal) { s with
      status := code.toByte, result := 0, resultValid := 0, out := none, phase := .idle, taps := []
      log := s.log ++ [{ level := .error, code := code, info := info }] }
    let short := ∀ m ∈ s.cfg.psetMax, s.psetLen.toNat ≤ m
    (s.srcPresent = 0 → exec .stPatch s = fail .preconditionError 0) ∧
    (s.srcPresent = 1 → s.fmState = 0 → exec .stPatch s = fail .preconditionError 0x20) ∧
    (s.srcPresent = 1 → s.fmState = 1 → 17 ≤ s.arg0.toNat →
      exec .stPatch s = fail .preconditionError s.arg0) ∧
    (s.srcPresent = 1 → s.fmState = 1 → s.arg0.toNat < 17 → ¬ short →
      exec .stPatch s = fail .preconditionError (s.psetLen.setWidth 32)) ∧
    (∀ front id back, s.srcPresent = 1 → s.fmState = 1 → s.arg0.toNat < 17 → short →
      s.patternList = front ++ id :: back → (∀ x ∈ front, x.toNat < 40) → 40 ≤ id.toNat →
      exec .stPatch s = fail .preconditionError (id.setWidth 32)) ∧
    (s.srcPresent = 1 → s.fmState = 1 → s.arg0.toNat < 17 → short →
      (∀ x ∈ s.patternList, x.toNat < 40) → s.stState ≠ 1 →
      exec .stPatch s = fail .tableAbsentFault 0x30) ∧
    (s.srcPresent = 1 → s.fmState = 1 → s.arg0.toNat < 17 → short →
      (∀ x ∈ s.patternList, x.toNat < 40) → s.stState = 1 → s.psetLen ≠ 0 → s.pmState = 0 →
      exec .stPatch s = fail .tableAbsentFault 0x10)

/-- R242, R243: an `ST_PATCH` that passes its checks sets `OUT` to the slope template's geometry with every pixel `undef` and
stands at the cursor (0, 0), the slope's first command: the cursor is written at the start of every `ST_PATCH` (R25). That
it answers with the operation in progress is the model's choice (log entry 8); that `CUR_K` is 0 also where the
filtermap has no row is the model's inference from R25 (log entry 9). -/
def Obligations.PatchSetsUpTheFrame : Prop :=
  ∀ (s : State) (t : Template), s.srcPresent = 1 → s.fmState = 1 →
    s.arg0.toNat < 17 → (∀ m ∈ s.cfg.psetMax, s.psetLen.toNat ≤ m) →
    (∀ x ∈ s.patternList, x.toNat < 40) → s.stState = 1 → (s.psetLen ≠ 0 → s.pmState = 1) →
    s.templates[s.arg0.toNat]? = some t →
    exec .stPatch s = .next { s with
      phase := .patching s.arg0.toNat, taps := [], curY := 0, curK := 0
      out := some { width := t.hdr.width, height := t.hdr.height, hotx := t.hdr.hotx, hoty := t.hdr.hoty
                    left := t.left, right := t.right, pix := [] } }

/-- R243, R244, R320: every `ST_PATCH` in progress ends, within the number of steps its filtermap bounds: delivered with the
result valid, or failed with no result and no frame. -/
def Obligations.EveryPatchEnds : Prop :=
  ∀ (s : State) (slope : Nat) (f : Filtermap), StateSound s → s.phase = .patching slope →
    s.fm[slope]? = some f →
    ∃ k t, k ≤ patchBudget f ∧ Sys2Proof.core.run k s = .next t ∧ t.phase = .idle ∧
      ((t.status = 0 ∧ t.resultValid = 1 ∧ t.out.isSome) ∨
        (t.status ≠ 0 ∧ t.resultValid = 0 ∧ t.out = none))

/-! ### The replaceable blend function -/

/-- R8, R196: `BLEND_FN` is the function the configuration holds. Its decided default is the exact weighted sum of each
channel, shifted right by 8 and saturated at 255; a replacement's value at a list is the one given for it, and `BLEND_FN`
depends on nothing else of the configuration. How a replacement is given is the model's choice (log entry 14). -/
def Obligations.BlendFunctionIsAParameter : Prop :=
  Config.blank.blendBody = .decided ∧
  (∀ (cfg : Config) (taps : List Tap), cfg.blendBody = .decided →
    let sum := fun ch : Rgb → Byte => (taps.map fun t => t.alpha.toNat * (ch t.rgb).toNat).sum
    (blendFn cfg taps).r.toNat = min 255 (sum Rgb.r / 2 ^ 8) ∧
    (blendFn cfg taps).g.toNat = min 255 (sum Rgb.g / 2 ^ 8) ∧
    (blendFn cfg taps).b.toNat = min 255 (sum Rgb.b / 2 ^ 8)) ∧
  (∀ (cfg : Config) (front back : List (List Tap × Rgb)) (taps : List Tap) (colour : Rgb),
    cfg.blendBody = .replaced (front ++ (taps, colour) :: back) → (∀ e ∈ front, e.1 ≠ taps) →
    blendFn cfg taps = colour) ∧
  (∀ (cfg cfg' : Config) (taps : List Tap), cfg.blendBody = cfg'.blendBody →
    blendFn cfg taps = blendFn cfg' taps)

/-! ### Streams that end too soon, and counts beyond a capacity -/

/-- R62 to R66, R68: each stream primitive reads its bytes, least significant first, and advances by their number where they are
all in the stream; otherwise it raises `IOError` with its position and stays there. A seek answers its target where
that is in the stream, its end included, and otherwise raises `IOError` with the target. -/
def Obligations.StreamReadsFailBeyondTheEnd : Prop :=
  ∀ (b : List Byte) (pos : Nat),
    (∀ x, b[pos]? = some x → strU8 b pos = .ok x (pos + 1)) ∧
    (b.length < pos + 1 → strU8 b pos = .fail .ioError pos pos) ∧
    (∀ v, halfAt b pos = some v → strU16 b pos = .ok (BitVec.ofNat 16 v) (pos + 2)) ∧
    (b.length < pos + 2 → strU16 b pos = .fail .ioError pos pos) ∧
    (∀ v, wordAt b pos = some v → strU32 b pos = .ok (BitVec.ofNat 32 v) (pos + 4)) ∧
    (b.length < pos + 4 → strU32 b pos = .fail .ioError pos pos) ∧
    (∀ n, pos + n ≤ b.length → ∃ x, strBytes b n pos = .ok x (pos + n) ∧ x.length = n ∧
      ∀ i < n, x[i]? = b[pos + i]?) ∧
    (∀ n, b.length < pos + n → strBytes b n pos = .fail .ioError pos pos) ∧
    (∀ p ≤ b.length, strSeek b p pos = .ok () p) ∧
    (∀ p, b.length < p → strSeek b p pos = .fail .ioError p pos)

/-- R181 to R183, R68, R69: a stream that ends inside a read of `FM_LOAD`, after the reads of any store within the capacities up
to that one, ends the load with `IOError` at the position where the read begins, Unloaded and empty. The reads of a
store are, in order, its encoding. -/
def Obligations.FmLoadOfACutStreamIsAnIoError : Prop :=
  (∀ fm : List Filtermap, (storeReads fm).flatten = encodeFilterStore fm) ∧
  ∀ (s : State) (fm : List Filtermap) (done toCome : List (List Byte)) (read part : List Byte), s.fmState = 0 →
    FilterStore.WellFormed fm → (∀ f ∈ fm, FiltermapFits s.cfg f) →
    storeReads fm = done ++ read :: toCome → s.cfg.fmStream = done.flatten ++ part →
    part.length < read.length →
    exec .fmLoad s = .next { s with
      status := 4, result := 0, resultValid := 0
      log := s.log ++ [{ level := .error, code := .ioError, info := BitVec.ofNat 32 done.flatten.length }]
      fmState := 0, fm := [], fmPos := BitVec.ofNat 32 done.flatten.length }

/-- R181, R273: a row count above `FM_MAX_ROWS`, or a command count above `FM_MAX_ROW_CMDS`, in the first filtermap or row that
exceeds it, ends `FM_LOAD` with `CapacityError` and the filtermap's number, just after the count is read, whatever
follows it, Unloaded and empty. -/
def Obligations.FmLoadChecksTheCapacities : Prop :=
  ∀ (s : State) (earlier : List Filtermap) (size height : Word) (after : List Byte), s.fmState = 0 →
    earlier.length < 17 → (∀ f ∈ earlier, f.WellFormed ∧ FiltermapFits s.cfg f) →
    let counted := earlier.flatMap encodeFiltermap ++ encode32 size ++ encode32 height
    let fail := fun pos : Nat => Host.Outcome.next (φ := Fault) (ρ := Refusal) { s with
      status := 10, result := 0, resultValid := 0
      log := s.log ++ [{ level := .error, code := .capacityError, info := BitVec.ofNat 32 earlier.length }]
      fmState := 0, fm := [], fmPos := BitVec.ofNat 32 pos }
    (∀ m, s.cfg.fmMaxRows = some m → m < height.toNat → s.cfg.fmStream = counted ++ after →
      exec .fmLoad s = fail counted.length) ∧
    (∀ (rows : List FilterRow) (width : Half) (m : Nat), (∀ m ∈ s.cfg.fmMaxRows, height.toNat ≤ m) →
      rows.length < height.toNat → (∀ r ∈ rows, r.WellFormed ∧ RowFits s.cfg r) →
      s.cfg.fmMaxRowCmds = some m → m < width.toNat →
      s.cfg.fmStream = counted ++ rows.flatMap encodeRow ++ encode16 width ++ after →
      exec .fmLoad s = fail (counted ++ rows.flatMap encodeRow ++ encode16 width).length)

/-- R222, R225, R66, R68, R273: pass 1 of `ST_LOAD` at slot `k`, the headers of the slots before it having been read. A size
field or a header field that the stream does not hold ends the load with `IOError` at the field; else a height above
`ST_MAX_ROWS` with `CapacityError(k)`; else a block end beyond the stream with `IOError` and that end. The unit is
left Unloaded and empty. -/
def Obligations.StLoadHeaderPassFails : Prop :=
  ∀ (s : State) (hs : List Header) (start size : Nat → Nat), s.stState ≠ 1 → hs.length < 17 → start 0 = 4 →
    (∀ j < hs.length, start (j + 1) = start j + size j + 4) →
    (∀ j h, hs[j]? = some h → HeaderAt s.cfg.stStream (start j) (size j) h ∧
      ∀ m ∈ s.cfg.stMaxRows, h.height.toNat ≤ m) →
    let k := hs.length
    let len := s.cfg.stStream.length
    let fail := fun (code : Code) (info pos : Nat) => Host.Outcome.next (φ := Fault) (ρ := Refusal) { s with
      status := code.toByte, result := 0, resultValid := 0
      log := s.log ++ [{ level := .error, code := code, info := BitVec.ofNat 32 info }]
      stState := 0, templates := [], stPos := BitVec.ofNat 32 pos }
    (len < start k → exec .stLoad s = fail .ioError (start k - 4) (start k - 4)) ∧
    (∀ i < 7, start k + 4 * i ≤ len → len < start k + 4 * i + 4 →
      exec .stLoad s = fail .ioError (start k + 4 * i) (start k + 4 * i)) ∧
    (∀ height m, start k + 28 ≤ len → wordAt s.cfg.stStream (start k + 4) = some height →
      s.cfg.stMaxRows = some m → m < height →
      exec .stLoad s = fail .capacityError k (start k + 28)) ∧
    (∀ height blockSize, start k + 28 ≤ len → wordAt s.cfg.stStream (start k + 4) = some height →
      (∀ m ∈ s.cfg.stMaxRows, height ≤ m) → wordAt s.cfg.stStream (start k - 4) = some blockSize →
      len < start k + blockSize →
      exec .stLoad s = fail .ioError (start k + blockSize) (start k + 28))

/-- R226, R66, R68: pass 2 of `ST_LOAD` at the slot after `ts`, the tables of the slots before it having been read. An outline
offset beyond the stream ends the load with `IOError` and that offset; else an edge that the stream does not hold with
`IOError` at the edge; then the command offsets likewise. The unit is left Unloaded and empty. -/
def Obligations.StLoadTablePassFails : Prop :=
  ∀ (s : State) (hs : List Header) (ts : List Template) (h : Header) (start size : Nat → Nat), s.stState ≠ 1 →
    hs.length = 17 → start 0 = 4 → (∀ j < 17, start (j + 1) = start j + size j + 4) →
    (∀ j g, hs[j]? = some g → HeaderAt s.cfg.stStream (start j) (size j) g ∧
      ∀ m ∈ s.cfg.stMaxRows, g.height.toNat ≤ m) →
    (∀ (j : Nat) (t : Template), ts[j]? = some t → hs[j]? = some t.hdr ∧ TablesAt s.cfg.stStream t) → hs[ts.length]? = some h →
    let len := s.cfg.stStream.length
    let rows := h.height.toNat
    let before := (ts.map fun t => t.hdr.cmdOff + 4 * t.hdr.height.toNat).getLastD (start 16 + size 16)
    let fail := fun info pos : Nat => Host.Outcome.next (φ := Fault) (ρ := Refusal) { s with
      status := 4, result := 0, resultValid := 0
      log := s.log ++ [{ level := .error, code := .ioError, info := BitVec.ofNat 32 info }]
      stState := 0, templates := [], stPos := BitVec.ofNat 32 pos }
    (len < h.outlineOff → exec .stLoad s = fail h.outlineOff before) ∧
    (∀ i < 2 * rows, h.outlineOff + 2 * i ≤ len → len < h.outlineOff + 2 * i + 2 →
      exec .stLoad s = fail (h.outlineOff + 2 * i) (h.outlineOff + 2 * i)) ∧
    (h.outlineOff + 4 * rows ≤ len → len < h.cmdOff →
      exec .stLoad s = fail h.cmdOff (h.outlineOff + 4 * rows)) ∧
    (∀ i < rows, h.outlineOff + 4 * rows ≤ len → h.cmdOff + 4 * i ≤ len → len < h.cmdOff + 4 * i + 4 →
      exec .stLoad s = fail (h.cmdOff + 4 * i) (h.cmdOff + 4 * i))
end

