-- ==== Sys2Proof/Laws/Memory.lean ====
section
/-! SUPPORT. What the operations over a sparse store do: every one of them keeps the canonical form, a read after a write to
the same address gives the value written, and a write leaves every other address alone. -/

namespace Sys2Proof.Machine

variable {α : Type}

@[simp] theorem Memory.wf_nil : Memory.wf ([] : Sparse α) := List.Pairwise.nil

@[simp] theorem Memory.read_nil (a : Nat) : Memory.read ([] : Sparse α) a = none := rfl

/-- An address below a bound of all listed addresses is not listed. -/
theorem Memory.read_eq_none_of_lt (m : Sparse α) (a : Nat) (h : ∀ c ∈ m, a < c.1) :
    Memory.read m a = none := by
  induction m with
  | nil => rfl
  | cons c rest ih =>
    obtain ⟨k, v⟩ := c
    have hk := h (k, v) (by simp)
    rw [Memory.read, if_neg (by simp at hk; omega)]
    exact ih fun c hc => h c (by simp [hc])

/-- A read after a write. -/
theorem Memory.read_write (m : Sparse α) (a b : Nat) (v : α) (hm : Memory.wf m) :
    Memory.read (Memory.write m a v) b = if b = a then some v else Memory.read m b := by
  induction m with
  | nil => simp only [Memory.write, Memory.read, eq_comm]
  | cons c rest ih =>
    obtain ⟨k, x⟩ := c
    have ⟨hk, hrest⟩ := List.pairwise_cons.mp hm
    have ih := ih hrest
    rw [Memory.write]
    by_cases h1 : a < k
    · simp only [h1, if_true, Memory.read, eq_comm (a := a)]
    · by_cases h2 : a = k
      · subst h2
        by_cases h3 : b = a
        · simp [Memory.read, h3]
        · simp [Memory.read, h3, Ne.symm h3]
      · simp only [h1, h2, if_false, Memory.read, ih]
        by_cases h3 : k = b
        · simp [h3, show b ≠ a by omega]
        · simp [h3]

/-- A write touches no address but its own. -/
theorem Memory.mem_write (m : Sparse α) (a : Nat) (v : α) (c : Nat × α)
    (h : c ∈ Memory.write m a v) : c = (a, v) ∨ c ∈ m := by
  induction m with
  | nil => simpa [Memory.write] using h
  | cons d rest ih =>
    obtain ⟨k, x⟩ := d
    rw [Memory.write] at h
    split at h
    · simpa using h
    · split at h
      · rcases List.mem_cons.mp h with h | h
        · exact .inl h
        · exact .inr (List.mem_cons_of_mem _ h)
      · rcases List.mem_cons.mp h with h | h
        · exact .inr (by simp [h])
        · exact (ih h).imp_right (List.mem_cons_of_mem _)

/-- A write keeps the canonical form. -/
theorem Memory.wf_write (m : Sparse α) (a : Nat) (v : α) (hm : Memory.wf m) :
    Memory.wf (Memory.write m a v) := by
  induction m with
  | nil => simp [Memory.write, Memory.wf]
  | cons c rest ih =>
    obtain ⟨k, x⟩ := c
    have ⟨hk, hrest⟩ := List.pairwise_cons.mp hm
    rw [Memory.write]
    split
    case isTrue h =>
      refine List.pairwise_cons.mpr ⟨fun d hd => ?_, hm⟩
      rcases List.mem_cons.mp hd with rfl | hd
      · exact h
      · exact h.trans (hk d hd)
    case isFalse h =>
      split
      case isTrue h2 => exact List.pairwise_cons.mpr ⟨fun d hd => h2 ▸ hk d hd, hrest⟩
      case isFalse h2 =>
        refine List.pairwise_cons.mpr ⟨fun d hd => ?_, ih hrest⟩
        rcases Memory.mem_write rest a v d hd with rfl | hd
        · show k < a
          omega
        · exact hk d hd

/-- Every address of a list placed at `base` is at least `base`. -/
theorem Memory.le_of_mem_ofList (base : Nat) (xs : List α) (c : Nat × α)
    (h : c ∈ Memory.ofList base xs) : base ≤ c.1 := by
  induction xs generalizing base with
  | nil => simp [Memory.ofList] at h
  | cons x xs ih =>
    rcases List.mem_cons.mp h with rfl | h
    · exact le_rfl
    · exact Nat.le_of_succ_le (ih (base + 1) h)

/-- A list placed at consecutive addresses is in canonical form. -/
theorem Memory.wf_ofList (base : Nat) (xs : List α) : Memory.wf (Memory.ofList base xs) := by
  induction xs generalizing base with
  | nil => exact List.Pairwise.nil
  | cons x xs ih =>
    exact List.pairwise_cons.mpr ⟨fun c hc => Memory.le_of_mem_ofList (base + 1) xs c hc, ih _⟩

/-- A list placed at `base` reads as its elements. -/
theorem Memory.read_ofList (base : Nat) (xs : List α) (i : Nat) :
    Memory.read (Memory.ofList base xs) (base + i) = xs[i]? := by
  induction xs generalizing base i with
  | nil => simp [Memory.ofList]
  | cons x xs ih =>
    cases i with
    | zero => simp [Memory.ofList, Memory.read]
    | succ i =>
      have h := ih (base + 1) i
      rw [show base + 1 + i = base + (i + 1) by omega] at h
      simp [Memory.ofList, Memory.read, h]

/-- A list placed at 0 reads as its elements. -/
@[simp] theorem Memory.read_ofList_zero (xs : List α) (i : Nat) :
    Memory.read (Memory.ofList 0 xs) i = xs[i]? := by
  simpa using Memory.read_ofList 0 xs i

/-- A defined cell reads as it is held. -/
theorem byteAt_of_read {sp : Space} {m : Memory} {a : Nat} {v : Byte}
    (h : Memory.read m a = some v) : byteAt sp m a = v := by
  simp [byteAt, h]

end Sys2Proof.Machine
end

