-- ==== Sys2Proof/Laws/State.lean ====
section
/-! SUPPORT. One lemma per field per named update of `State`: what the field is afterwards. All are true by
unfolding, and all are simp lemmas, so that no later proof unfolds an update. -/

namespace Sys2Proof.Machine

variable (s : State)

/-! ### `State.emit` -/

@[simp] theorem State.emit_cfg (l : Level) (c : Code) (info : Word) : (s.emit l c info).cfg = s.cfg := rfl
@[simp] theorem State.emit_phase (l : Level) (c : Code) (info : Word) : (s.emit l c info).phase = s.phase := rfl
@[simp] theorem State.emit_taps (l : Level) (c : Code) (info : Word) : (s.emit l c info).taps = s.taps := rfl
@[simp] theorem State.emit_curY (l : Level) (c : Code) (info : Word) : (s.emit l c info).curY = s.curY := rfl
@[simp] theorem State.emit_curK (l : Level) (c : Code) (info : Word) : (s.emit l c info).curK = s.curK := rfl
@[simp] theorem State.emit_status (l : Level) (c : Code) (info : Word) : (s.emit l c info).status = s.status := rfl
@[simp] theorem State.emit_result (l : Level) (c : Code) (info : Word) : (s.emit l c info).result = s.result := rfl
@[simp] theorem State.emit_resultValid (l : Level) (c : Code) (info : Word) :
    (s.emit l c info).resultValid = s.resultValid := rfl
@[simp] theorem State.emit_arg0 (l : Level) (c : Code) (info : Word) : (s.emit l c info).arg0 = s.arg0 := rfl
@[simp] theorem State.emit_arg1 (l : Level) (c : Code) (info : Word) : (s.emit l c info).arg1 = s.arg1 := rfl
@[simp] theorem State.emit_arg2 (l : Level) (c : Code) (info : Word) : (s.emit l c info).arg2 = s.arg2 := rfl
@[simp] theorem State.emit_arg3 (l : Level) (c : Code) (info : Word) : (s.emit l c info).arg3 = s.arg3 := rfl
@[simp] theorem State.emit_srcPresent (l : Level) (c : Code) (info : Word) :
    (s.emit l c info).srcPresent = s.srcPresent := rfl
@[simp] theorem State.emit_psetLen (l : Level) (c : Code) (info : Word) :
    (s.emit l c info).psetLen = s.psetLen := rfl
@[simp] theorem State.emit_palLen (l : Level) (c : Code) (info : Word) : (s.emit l c info).palLen = s.palLen := rfl
@[simp] theorem State.emit_icmState (l : Level) (c : Code) (info : Word) :
    (s.emit l c info).icmState = s.icmState := rfl
@[simp] theorem State.emit_icmCount (l : Level) (c : Code) (info : Word) :
    (s.emit l c info).icmCount = s.icmCount := rfl
@[simp] theorem State.emit_pmState (l : Level) (c : Code) (info : Word) :
    (s.emit l c info).pmState = s.pmState := rfl
@[simp] theorem State.emit_fmState (l : Level) (c : Code) (info : Word) :
    (s.emit l c info).fmState = s.fmState := rfl
@[simp] theorem State.emit_stState (l : Level) (c : Code) (info : Word) :
    (s.emit l c info).stState = s.stState := rfl
@[simp] theorem State.emit_icmPos (l : Level) (c : Code) (info : Word) : (s.emit l c info).icmPos = s.icmPos := rfl
@[simp] theorem State.emit_pmPos (l : Level) (c : Code) (info : Word) : (s.emit l c info).pmPos = s.pmPos := rfl
@[simp] theorem State.emit_fmPos (l : Level) (c : Code) (info : Word) : (s.emit l c info).fmPos = s.fmPos := rfl
@[simp] theorem State.emit_stPos (l : Level) (c : Code) (info : Word) : (s.emit l c info).stPos = s.stPos := rfl
@[simp] theorem State.emit_icm (l : Level) (c : Code) (info : Word) : (s.emit l c info).icm = s.icm := rfl
@[simp] theorem State.emit_pm (l : Level) (c : Code) (info : Word) : (s.emit l c info).pm = s.pm := rfl
@[simp] theorem State.emit_fm (l : Level) (c : Code) (info : Word) : (s.emit l c info).fm = s.fm := rfl
@[simp] theorem State.emit_templates (l : Level) (c : Code) (info : Word) :
    (s.emit l c info).templates = s.templates := rfl
@[simp] theorem State.emit_base (l : Level) (c : Code) (info : Word) : (s.emit l c info).base = s.base := rfl
@[simp] theorem State.emit_pal (l : Level) (c : Code) (info : Word) : (s.emit l c info).pal = s.pal := rfl
@[simp] theorem State.emit_pset (l : Level) (c : Code) (info : Word) : (s.emit l c info).pset = s.pset := rfl
@[simp] theorem State.emit_out (l : Level) (c : Code) (info : Word) : (s.emit l c info).out = s.out := rfl
@[simp] theorem State.emit_log (l : Level) (c : Code) (info : Word) :
    (s.emit l c info).log = s.log ++ [{ level := l, code := c, info := info }] := rfl
@[simp] theorem State.emit_pending (l : Level) (c : Code) (info : Word) :
    (s.emit l c info).pending = s.pending := rfl
@[simp] theorem State.emit_readData (l : Level) (c : Code) (info : Word) :
    (s.emit l c info).readData = s.readData := rfl
@[simp] theorem State.emit_draws (l : Level) (c : Code) (info : Word) : (s.emit l c info).draws = s.draws := rfl

/-! ### `State.done` -/

@[simp] theorem State.done_cfg : (s.done).cfg = s.cfg := rfl
@[simp] theorem State.done_phase : (s.done).phase = s.phase := rfl
@[simp] theorem State.done_taps : (s.done).taps = s.taps := rfl
@[simp] theorem State.done_curY : (s.done).curY = s.curY := rfl
@[simp] theorem State.done_curK : (s.done).curK = s.curK := rfl
@[simp] theorem State.done_status : (s.done).status = Code.ok.toByte := rfl
@[simp] theorem State.done_result : (s.done).result = 0 := rfl
@[simp] theorem State.done_resultValid : (s.done).resultValid = 0 := rfl
@[simp] theorem State.done_arg0 : (s.done).arg0 = s.arg0 := rfl
@[simp] theorem State.done_arg1 : (s.done).arg1 = s.arg1 := rfl
@[simp] theorem State.done_arg2 : (s.done).arg2 = s.arg2 := rfl
@[simp] theorem State.done_arg3 : (s.done).arg3 = s.arg3 := rfl
@[simp] theorem State.done_srcPresent : (s.done).srcPresent = s.srcPresent := rfl
@[simp] theorem State.done_psetLen : (s.done).psetLen = s.psetLen := rfl
@[simp] theorem State.done_palLen : (s.done).palLen = s.palLen := rfl
@[simp] theorem State.done_icmState : (s.done).icmState = s.icmState := rfl
@[simp] theorem State.done_icmCount : (s.done).icmCount = s.icmCount := rfl
@[simp] theorem State.done_pmState : (s.done).pmState = s.pmState := rfl
@[simp] theorem State.done_fmState : (s.done).fmState = s.fmState := rfl
@[simp] theorem State.done_stState : (s.done).stState = s.stState := rfl
@[simp] theorem State.done_icmPos : (s.done).icmPos = s.icmPos := rfl
@[simp] theorem State.done_pmPos : (s.done).pmPos = s.pmPos := rfl
@[simp] theorem State.done_fmPos : (s.done).fmPos = s.fmPos := rfl
@[simp] theorem State.done_stPos : (s.done).stPos = s.stPos := rfl
@[simp] theorem State.done_icm : (s.done).icm = s.icm := rfl
@[simp] theorem State.done_pm : (s.done).pm = s.pm := rfl
@[simp] theorem State.done_fm : (s.done).fm = s.fm := rfl
@[simp] theorem State.done_templates : (s.done).templates = s.templates := rfl
@[simp] theorem State.done_base : (s.done).base = s.base := rfl
@[simp] theorem State.done_pal : (s.done).pal = s.pal := rfl
@[simp] theorem State.done_pset : (s.done).pset = s.pset := rfl
@[simp] theorem State.done_out : (s.done).out = s.out := rfl
@[simp] theorem State.done_log : (s.done).log = s.log := rfl
@[simp] theorem State.done_pending : (s.done).pending = s.pending := rfl
@[simp] theorem State.done_readData : (s.done).readData = s.readData := rfl
@[simp] theorem State.done_draws : (s.done).draws = s.draws := rfl

/-! ### `State.doneWith` -/

@[simp] theorem State.doneWith_cfg (v : Word) : (s.doneWith v).cfg = s.cfg := rfl
@[simp] theorem State.doneWith_phase (v : Word) : (s.doneWith v).phase = s.phase := rfl
@[simp] theorem State.doneWith_taps (v : Word) : (s.doneWith v).taps = s.taps := rfl
@[simp] theorem State.doneWith_curY (v : Word) : (s.doneWith v).curY = s.curY := rfl
@[simp] theorem State.doneWith_curK (v : Word) : (s.doneWith v).curK = s.curK := rfl
@[simp] theorem State.doneWith_status (v : Word) : (s.doneWith v).status = Code.ok.toByte := rfl
@[simp] theorem State.doneWith_result (v : Word) : (s.doneWith v).result = v := rfl
@[simp] theorem State.doneWith_resultValid (v : Word) : (s.doneWith v).resultValid = 1 := rfl
@[simp] theorem State.doneWith_arg0 (v : Word) : (s.doneWith v).arg0 = s.arg0 := rfl
@[simp] theorem State.doneWith_arg1 (v : Word) : (s.doneWith v).arg1 = s.arg1 := rfl
@[simp] theorem State.doneWith_arg2 (v : Word) : (s.doneWith v).arg2 = s.arg2 := rfl
@[simp] theorem State.doneWith_arg3 (v : Word) : (s.doneWith v).arg3 = s.arg3 := rfl
@[simp] theorem State.doneWith_srcPresent (v : Word) : (s.doneWith v).srcPresent = s.srcPresent := rfl
@[simp] theorem State.doneWith_psetLen (v : Word) : (s.doneWith v).psetLen = s.psetLen := rfl
@[simp] theorem State.doneWith_palLen (v : Word) : (s.doneWith v).palLen = s.palLen := rfl
@[simp] theorem State.doneWith_icmState (v : Word) : (s.doneWith v).icmState = s.icmState := rfl
@[simp] theorem State.doneWith_icmCount (v : Word) : (s.doneWith v).icmCount = s.icmCount := rfl
@[simp] theorem State.doneWith_pmState (v : Word) : (s.doneWith v).pmState = s.pmState := rfl
@[simp] theorem State.doneWith_fmState (v : Word) : (s.doneWith v).fmState = s.fmState := rfl
@[simp] theorem State.doneWith_stState (v : Word) : (s.doneWith v).stState = s.stState := rfl
@[simp] theorem State.doneWith_icmPos (v : Word) : (s.doneWith v).icmPos = s.icmPos := rfl
@[simp] theorem State.doneWith_pmPos (v : Word) : (s.doneWith v).pmPos = s.pmPos := rfl
@[simp] theorem State.doneWith_fmPos (v : Word) : (s.doneWith v).fmPos = s.fmPos := rfl
@[simp] theorem State.doneWith_stPos (v : Word) : (s.doneWith v).stPos = s.stPos := rfl
@[simp] theorem State.doneWith_icm (v : Word) : (s.doneWith v).icm = s.icm := rfl
@[simp] theorem State.doneWith_pm (v : Word) : (s.doneWith v).pm = s.pm := rfl
@[simp] theorem State.doneWith_fm (v : Word) : (s.doneWith v).fm = s.fm := rfl
@[simp] theorem State.doneWith_templates (v : Word) : (s.doneWith v).templates = s.templates := rfl
@[simp] theorem State.doneWith_base (v : Word) : (s.doneWith v).base = s.base := rfl
@[simp] theorem State.doneWith_pal (v : Word) : (s.doneWith v).pal = s.pal := rfl
@[simp] theorem State.doneWith_pset (v : Word) : (s.doneWith v).pset = s.pset := rfl
@[simp] theorem State.doneWith_out (v : Word) : (s.doneWith v).out = s.out := rfl
@[simp] theorem State.doneWith_log (v : Word) : (s.doneWith v).log = s.log := rfl
@[simp] theorem State.doneWith_pending (v : Word) : (s.doneWith v).pending = s.pending := rfl
@[simp] theorem State.doneWith_readData (v : Word) : (s.doneWith v).readData = s.readData := rfl
@[simp] theorem State.doneWith_draws (v : Word) : (s.doneWith v).draws = s.draws := rfl

/-! ### `State.raise` -/

@[simp] theorem State.raise_cfg (c : Code) (info : Word) : (s.raise c info).cfg = s.cfg := rfl
@[simp] theorem State.raise_phase (c : Code) (info : Word) : (s.raise c info).phase = s.phase := rfl
@[simp] theorem State.raise_taps (c : Code) (info : Word) : (s.raise c info).taps = s.taps := rfl
@[simp] theorem State.raise_curY (c : Code) (info : Word) : (s.raise c info).curY = s.curY := rfl
@[simp] theorem State.raise_curK (c : Code) (info : Word) : (s.raise c info).curK = s.curK := rfl
@[simp] theorem State.raise_status (c : Code) (info : Word) : (s.raise c info).status = c.toByte := rfl
@[simp] theorem State.raise_result (c : Code) (info : Word) : (s.raise c info).result = 0 := rfl
@[simp] theorem State.raise_resultValid (c : Code) (info : Word) : (s.raise c info).resultValid = 0 := rfl
@[simp] theorem State.raise_arg0 (c : Code) (info : Word) : (s.raise c info).arg0 = s.arg0 := rfl
@[simp] theorem State.raise_arg1 (c : Code) (info : Word) : (s.raise c info).arg1 = s.arg1 := rfl
@[simp] theorem State.raise_arg2 (c : Code) (info : Word) : (s.raise c info).arg2 = s.arg2 := rfl
@[simp] theorem State.raise_arg3 (c : Code) (info : Word) : (s.raise c info).arg3 = s.arg3 := rfl
@[simp] theorem State.raise_srcPresent (c : Code) (info : Word) : (s.raise c info).srcPresent = s.srcPresent := rfl
@[simp] theorem State.raise_psetLen (c : Code) (info : Word) : (s.raise c info).psetLen = s.psetLen := rfl
@[simp] theorem State.raise_palLen (c : Code) (info : Word) : (s.raise c info).palLen = s.palLen := rfl
@[simp] theorem State.raise_icmState (c : Code) (info : Word) : (s.raise c info).icmState = s.icmState := rfl
@[simp] theorem State.raise_icmCount (c : Code) (info : Word) : (s.raise c info).icmCount = s.icmCount := rfl
@[simp] theorem State.raise_pmState (c : Code) (info : Word) : (s.raise c info).pmState = s.pmState := rfl
@[simp] theorem State.raise_fmState (c : Code) (info : Word) : (s.raise c info).fmState = s.fmState := rfl
@[simp] theorem State.raise_stState (c : Code) (info : Word) : (s.raise c info).stState = s.stState := rfl
@[simp] theorem State.raise_icmPos (c : Code) (info : Word) : (s.raise c info).icmPos = s.icmPos := rfl
@[simp] theorem State.raise_pmPos (c : Code) (info : Word) : (s.raise c info).pmPos = s.pmPos := rfl
@[simp] theorem State.raise_fmPos (c : Code) (info : Word) : (s.raise c info).fmPos = s.fmPos := rfl
@[simp] theorem State.raise_stPos (c : Code) (info : Word) : (s.raise c info).stPos = s.stPos := rfl
@[simp] theorem State.raise_icm (c : Code) (info : Word) : (s.raise c info).icm = s.icm := rfl
@[simp] theorem State.raise_pm (c : Code) (info : Word) : (s.raise c info).pm = s.pm := rfl
@[simp] theorem State.raise_fm (c : Code) (info : Word) : (s.raise c info).fm = s.fm := rfl
@[simp] theorem State.raise_templates (c : Code) (info : Word) : (s.raise c info).templates = s.templates := rfl
@[simp] theorem State.raise_base (c : Code) (info : Word) : (s.raise c info).base = s.base := rfl
@[simp] theorem State.raise_pal (c : Code) (info : Word) : (s.raise c info).pal = s.pal := rfl
@[simp] theorem State.raise_pset (c : Code) (info : Word) : (s.raise c info).pset = s.pset := rfl
@[simp] theorem State.raise_out (c : Code) (info : Word) : (s.raise c info).out = s.out := rfl
@[simp] theorem State.raise_log (c : Code) (info : Word) :
    (s.raise c info).log = s.log ++ [{ level := .error, code := c, info := info }] := rfl
@[simp] theorem State.raise_pending (c : Code) (info : Word) : (s.raise c info).pending = s.pending := rfl
@[simp] theorem State.raise_readData (c : Code) (info : Word) : (s.raise c info).readData = s.readData := rfl
@[simp] theorem State.raise_draws (c : Code) (info : Word) : (s.raise c info).draws = s.draws := rfl

/-! ### `State.icmFail` -/

@[simp] theorem State.icmFail_cfg (c : Code) (info pos : Nat) : (s.icmFail c info pos).cfg = s.cfg := rfl
@[simp] theorem State.icmFail_phase (c : Code) (info pos : Nat) : (s.icmFail c info pos).phase = s.phase := rfl
@[simp] theorem State.icmFail_taps (c : Code) (info pos : Nat) : (s.icmFail c info pos).taps = s.taps := rfl
@[simp] theorem State.icmFail_curY (c : Code) (info pos : Nat) : (s.icmFail c info pos).curY = s.curY := rfl
@[simp] theorem State.icmFail_curK (c : Code) (info pos : Nat) : (s.icmFail c info pos).curK = s.curK := rfl
@[simp] theorem State.icmFail_status (c : Code) (info pos : Nat) : (s.icmFail c info pos).status = c.toByte := rfl
@[simp] theorem State.icmFail_result (c : Code) (info pos : Nat) : (s.icmFail c info pos).result = 0 := rfl
@[simp] theorem State.icmFail_resultValid (c : Code) (info pos : Nat) : (s.icmFail c info pos).resultValid = 0 := rfl
@[simp] theorem State.icmFail_arg0 (c : Code) (info pos : Nat) : (s.icmFail c info pos).arg0 = s.arg0 := rfl
@[simp] theorem State.icmFail_arg1 (c : Code) (info pos : Nat) : (s.icmFail c info pos).arg1 = s.arg1 := rfl
@[simp] theorem State.icmFail_arg2 (c : Code) (info pos : Nat) : (s.icmFail c info pos).arg2 = s.arg2 := rfl
@[simp] theorem State.icmFail_arg3 (c : Code) (info pos : Nat) : (s.icmFail c info pos).arg3 = s.arg3 := rfl
@[simp] theorem State.icmFail_srcPresent (c : Code) (info pos : Nat) :
    (s.icmFail c info pos).srcPresent = s.srcPresent := rfl
@[simp] theorem State.icmFail_psetLen (c : Code) (info pos : Nat) : (s.icmFail c info pos).psetLen = s.psetLen := rfl
@[simp] theorem State.icmFail_palLen (c : Code) (info pos : Nat) : (s.icmFail c info pos).palLen = s.palLen := rfl
@[simp] theorem State.icmFail_icmState (c : Code) (info pos : Nat) : (s.icmFail c info pos).icmState = 0 := rfl
@[simp] theorem State.icmFail_icmCount (c : Code) (info pos : Nat) : (s.icmFail c info pos).icmCount = 0 := rfl
@[simp] theorem State.icmFail_pmState (c : Code) (info pos : Nat) : (s.icmFail c info pos).pmState = s.pmState := rfl
@[simp] theorem State.icmFail_fmState (c : Code) (info pos : Nat) : (s.icmFail c info pos).fmState = s.fmState := rfl
@[simp] theorem State.icmFail_stState (c : Code) (info pos : Nat) : (s.icmFail c info pos).stState = s.stState := rfl
@[simp] theorem State.icmFail_icmPos (c : Code) (info pos : Nat) :
    (s.icmFail c info pos).icmPos = BitVec.ofNat 32 pos := rfl
@[simp] theorem State.icmFail_pmPos (c : Code) (info pos : Nat) : (s.icmFail c info pos).pmPos = s.pmPos := rfl
@[simp] theorem State.icmFail_fmPos (c : Code) (info pos : Nat) : (s.icmFail c info pos).fmPos = s.fmPos := rfl
@[simp] theorem State.icmFail_stPos (c : Code) (info pos : Nat) : (s.icmFail c info pos).stPos = s.stPos := rfl
@[simp] theorem State.icmFail_icm (c : Code) (info pos : Nat) : (s.icmFail c info pos).icm = [] := rfl
@[simp] theorem State.icmFail_pm (c : Code) (info pos : Nat) : (s.icmFail c info pos).pm = s.pm := rfl
@[simp] theorem State.icmFail_fm (c : Code) (info pos : Nat) : (s.icmFail c info pos).fm = s.fm := rfl
@[simp] theorem State.icmFail_templates (c : Code) (info pos : Nat) :
    (s.icmFail c info pos).templates = s.templates := rfl
@[simp] theorem State.icmFail_base (c : Code) (info pos : Nat) : (s.icmFail c info pos).base = s.base := rfl
@[simp] theorem State.icmFail_pal (c : Code) (info pos : Nat) : (s.icmFail c info pos).pal = s.pal := rfl
@[simp] theorem State.icmFail_pset (c : Code) (info pos : Nat) : (s.icmFail c info pos).pset = s.pset := rfl
@[simp] theorem State.icmFail_out (c : Code) (info pos : Nat) : (s.icmFail c info pos).out = s.out := rfl
@[simp] theorem State.icmFail_log (c : Code) (info pos : Nat) :
    (s.icmFail c info pos).log = s.log ++ [{ level := .error, code := c, info := BitVec.ofNat 32 info }] := rfl
@[simp] theorem State.icmFail_pending (c : Code) (info pos : Nat) : (s.icmFail c info pos).pending = s.pending := rfl
@[simp] theorem State.icmFail_readData (c : Code) (info pos : Nat) :
    (s.icmFail c info pos).readData = s.readData := rfl
@[simp] theorem State.icmFail_draws (c : Code) (info pos : Nat) : (s.icmFail c info pos).draws = s.draws := rfl

/-! ### `State.pmFail` -/

@[simp] theorem State.pmFail_cfg (c : Code) (info pos : Nat) : (s.pmFail c info pos).cfg = s.cfg := rfl
@[simp] theorem State.pmFail_phase (c : Code) (info pos : Nat) : (s.pmFail c info pos).phase = s.phase := rfl
@[simp] theorem State.pmFail_taps (c : Code) (info pos : Nat) : (s.pmFail c info pos).taps = s.taps := rfl
@[simp] theorem State.pmFail_curY (c : Code) (info pos : Nat) : (s.pmFail c info pos).curY = s.curY := rfl
@[simp] theorem State.pmFail_curK (c : Code) (info pos : Nat) : (s.pmFail c info pos).curK = s.curK := rfl
@[simp] theorem State.pmFail_status (c : Code) (info pos : Nat) : (s.pmFail c info pos).status = c.toByte := rfl
@[simp] theorem State.pmFail_result (c : Code) (info pos : Nat) : (s.pmFail c info pos).result = 0 := rfl
@[simp] theorem State.pmFail_resultValid (c : Code) (info pos : Nat) : (s.pmFail c info pos).resultValid = 0 := rfl
@[simp] theorem State.pmFail_arg0 (c : Code) (info pos : Nat) : (s.pmFail c info pos).arg0 = s.arg0 := rfl
@[simp] theorem State.pmFail_arg1 (c : Code) (info pos : Nat) : (s.pmFail c info pos).arg1 = s.arg1 := rfl
@[simp] theorem State.pmFail_arg2 (c : Code) (info pos : Nat) : (s.pmFail c info pos).arg2 = s.arg2 := rfl
@[simp] theorem State.pmFail_arg3 (c : Code) (info pos : Nat) : (s.pmFail c info pos).arg3 = s.arg3 := rfl
@[simp] theorem State.pmFail_srcPresent (c : Code) (info pos : Nat) :
    (s.pmFail c info pos).srcPresent = s.srcPresent := rfl
@[simp] theorem State.pmFail_psetLen (c : Code) (info pos : Nat) : (s.pmFail c info pos).psetLen = s.psetLen := rfl
@[simp] theorem State.pmFail_palLen (c : Code) (info pos : Nat) : (s.pmFail c info pos).palLen = s.palLen := rfl
@[simp] theorem State.pmFail_icmState (c : Code) (info pos : Nat) :
    (s.pmFail c info pos).icmState = s.icmState := rfl
@[simp] theorem State.pmFail_icmCount (c : Code) (info pos : Nat) :
    (s.pmFail c info pos).icmCount = s.icmCount := rfl
@[simp] theorem State.pmFail_pmState (c : Code) (info pos : Nat) : (s.pmFail c info pos).pmState = 0 := rfl
@[simp] theorem State.pmFail_fmState (c : Code) (info pos : Nat) : (s.pmFail c info pos).fmState = s.fmState := rfl
@[simp] theorem State.pmFail_stState (c : Code) (info pos : Nat) : (s.pmFail c info pos).stState = s.stState := rfl
@[simp] theorem State.pmFail_icmPos (c : Code) (info pos : Nat) : (s.pmFail c info pos).icmPos = s.icmPos := rfl
@[simp] theorem State.pmFail_pmPos (c : Code) (info pos : Nat) :
    (s.pmFail c info pos).pmPos = BitVec.ofNat 32 pos := rfl
@[simp] theorem State.pmFail_fmPos (c : Code) (info pos : Nat) : (s.pmFail c info pos).fmPos = s.fmPos := rfl
@[simp] theorem State.pmFail_stPos (c : Code) (info pos : Nat) : (s.pmFail c info pos).stPos = s.stPos := rfl
@[simp] theorem State.pmFail_icm (c : Code) (info pos : Nat) : (s.pmFail c info pos).icm = s.icm := rfl
@[simp] theorem State.pmFail_pm (c : Code) (info pos : Nat) : (s.pmFail c info pos).pm = [] := rfl
@[simp] theorem State.pmFail_fm (c : Code) (info pos : Nat) : (s.pmFail c info pos).fm = s.fm := rfl
@[simp] theorem State.pmFail_templates (c : Code) (info pos : Nat) :
    (s.pmFail c info pos).templates = s.templates := rfl
@[simp] theorem State.pmFail_base (c : Code) (info pos : Nat) : (s.pmFail c info pos).base = s.base := rfl
@[simp] theorem State.pmFail_pal (c : Code) (info pos : Nat) : (s.pmFail c info pos).pal = s.pal := rfl
@[simp] theorem State.pmFail_pset (c : Code) (info pos : Nat) : (s.pmFail c info pos).pset = s.pset := rfl
@[simp] theorem State.pmFail_out (c : Code) (info pos : Nat) : (s.pmFail c info pos).out = s.out := rfl
@[simp] theorem State.pmFail_log (c : Code) (info pos : Nat) :
    (s.pmFail c info pos).log = s.log ++ [{ level := .error, code := c, info := BitVec.ofNat 32 info }] := rfl
@[simp] theorem State.pmFail_pending (c : Code) (info pos : Nat) : (s.pmFail c info pos).pending = s.pending := rfl
@[simp] theorem State.pmFail_readData (c : Code) (info pos : Nat) :
    (s.pmFail c info pos).readData = s.readData := rfl
@[simp] theorem State.pmFail_draws (c : Code) (info pos : Nat) : (s.pmFail c info pos).draws = s.draws := rfl

/-! ### `State.fmFail` -/

@[simp] theorem State.fmFail_cfg (c : Code) (info pos : Nat) : (s.fmFail c info pos).cfg = s.cfg := rfl
@[simp] theorem State.fmFail_phase (c : Code) (info pos : Nat) : (s.fmFail c info pos).phase = s.phase := rfl
@[simp] theorem State.fmFail_taps (c : Code) (info pos : Nat) : (s.fmFail c info pos).taps = s.taps := rfl
@[simp] theorem State.fmFail_curY (c : Code) (info pos : Nat) : (s.fmFail c info pos).curY = s.curY := rfl
@[simp] theorem State.fmFail_curK (c : Code) (info pos : Nat) : (s.fmFail c info pos).curK = s.curK := rfl
@[simp] theorem State.fmFail_status (c : Code) (info pos : Nat) : (s.fmFail c info pos).status = c.toByte := rfl
@[simp] theorem State.fmFail_result (c : Code) (info pos : Nat) : (s.fmFail c info pos).result = 0 := rfl
@[simp] theorem State.fmFail_resultValid (c : Code) (info pos : Nat) : (s.fmFail c info pos).resultValid = 0 := rfl
@[simp] theorem State.fmFail_arg0 (c : Code) (info pos : Nat) : (s.fmFail c info pos).arg0 = s.arg0 := rfl
@[simp] theorem State.fmFail_arg1 (c : Code) (info pos : Nat) : (s.fmFail c info pos).arg1 = s.arg1 := rfl
@[simp] theorem State.fmFail_arg2 (c : Code) (info pos : Nat) : (s.fmFail c info pos).arg2 = s.arg2 := rfl
@[simp] theorem State.fmFail_arg3 (c : Code) (info pos : Nat) : (s.fmFail c info pos).arg3 = s.arg3 := rfl
@[simp] theorem State.fmFail_srcPresent (c : Code) (info pos : Nat) :
    (s.fmFail c info pos).srcPresent = s.srcPresent := rfl
@[simp] theorem State.fmFail_psetLen (c : Code) (info pos : Nat) : (s.fmFail c info pos).psetLen = s.psetLen := rfl
@[simp] theorem State.fmFail_palLen (c : Code) (info pos : Nat) : (s.fmFail c info pos).palLen = s.palLen := rfl
@[simp] theorem State.fmFail_icmState (c : Code) (info pos : Nat) :
    (s.fmFail c info pos).icmState = s.icmState := rfl
@[simp] theorem State.fmFail_icmCount (c : Code) (info pos : Nat) :
    (s.fmFail c info pos).icmCount = s.icmCount := rfl
@[simp] theorem State.fmFail_pmState (c : Code) (info pos : Nat) : (s.fmFail c info pos).pmState = s.pmState := rfl
@[simp] theorem State.fmFail_fmState (c : Code) (info pos : Nat) : (s.fmFail c info pos).fmState = 0 := rfl
@[simp] theorem State.fmFail_stState (c : Code) (info pos : Nat) : (s.fmFail c info pos).stState = s.stState := rfl
@[simp] theorem State.fmFail_icmPos (c : Code) (info pos : Nat) : (s.fmFail c info pos).icmPos = s.icmPos := rfl
@[simp] theorem State.fmFail_pmPos (c : Code) (info pos : Nat) : (s.fmFail c info pos).pmPos = s.pmPos := rfl
@[simp] theorem State.fmFail_fmPos (c : Code) (info pos : Nat) :
    (s.fmFail c info pos).fmPos = BitVec.ofNat 32 pos := rfl
@[simp] theorem State.fmFail_stPos (c : Code) (info pos : Nat) : (s.fmFail c info pos).stPos = s.stPos := rfl
@[simp] theorem State.fmFail_icm (c : Code) (info pos : Nat) : (s.fmFail c info pos).icm = s.icm := rfl
@[simp] theorem State.fmFail_pm (c : Code) (info pos : Nat) : (s.fmFail c info pos).pm = s.pm := rfl
@[simp] theorem State.fmFail_fm (c : Code) (info pos : Nat) : (s.fmFail c info pos).fm = [] := rfl
@[simp] theorem State.fmFail_templates (c : Code) (info pos : Nat) :
    (s.fmFail c info pos).templates = s.templates := rfl
@[simp] theorem State.fmFail_base (c : Code) (info pos : Nat) : (s.fmFail c info pos).base = s.base := rfl
@[simp] theorem State.fmFail_pal (c : Code) (info pos : Nat) : (s.fmFail c info pos).pal = s.pal := rfl
@[simp] theorem State.fmFail_pset (c : Code) (info pos : Nat) : (s.fmFail c info pos).pset = s.pset := rfl
@[simp] theorem State.fmFail_out (c : Code) (info pos : Nat) : (s.fmFail c info pos).out = s.out := rfl
@[simp] theorem State.fmFail_log (c : Code) (info pos : Nat) :
    (s.fmFail c info pos).log = s.log ++ [{ level := .error, code := c, info := BitVec.ofNat 32 info }] := rfl
@[simp] theorem State.fmFail_pending (c : Code) (info pos : Nat) : (s.fmFail c info pos).pending = s.pending := rfl
@[simp] theorem State.fmFail_readData (c : Code) (info pos : Nat) :
    (s.fmFail c info pos).readData = s.readData := rfl
@[simp] theorem State.fmFail_draws (c : Code) (info pos : Nat) : (s.fmFail c info pos).draws = s.draws := rfl

/-! ### `State.stFail` -/

@[simp] theorem State.stFail_cfg (c : Code) (info pos : Nat) : (s.stFail c info pos).cfg = s.cfg := rfl
@[simp] theorem State.stFail_phase (c : Code) (info pos : Nat) : (s.stFail c info pos).phase = s.phase := rfl
@[simp] theorem State.stFail_taps (c : Code) (info pos : Nat) : (s.stFail c info pos).taps = s.taps := rfl
@[simp] theorem State.stFail_curY (c : Code) (info pos : Nat) : (s.stFail c info pos).curY = s.curY := rfl
@[simp] theorem State.stFail_curK (c : Code) (info pos : Nat) : (s.stFail c info pos).curK = s.curK := rfl
@[simp] theorem State.stFail_status (c : Code) (info pos : Nat) : (s.stFail c info pos).status = c.toByte := rfl
@[simp] theorem State.stFail_result (c : Code) (info pos : Nat) : (s.stFail c info pos).result = 0 := rfl
@[simp] theorem State.stFail_resultValid (c : Code) (info pos : Nat) : (s.stFail c info pos).resultValid = 0 := rfl
@[simp] theorem State.stFail_arg0 (c : Code) (info pos : Nat) : (s.stFail c info pos).arg0 = s.arg0 := rfl
@[simp] theorem State.stFail_arg1 (c : Code) (info pos : Nat) : (s.stFail c info pos).arg1 = s.arg1 := rfl
@[simp] theorem State.stFail_arg2 (c : Code) (info pos : Nat) : (s.stFail c info pos).arg2 = s.arg2 := rfl
@[simp] theorem State.stFail_arg3 (c : Code) (info pos : Nat) : (s.stFail c info pos).arg3 = s.arg3 := rfl
@[simp] theorem State.stFail_srcPresent (c : Code) (info pos : Nat) :
    (s.stFail c info pos).srcPresent = s.srcPresent := rfl
@[simp] theorem State.stFail_psetLen (c : Code) (info pos : Nat) : (s.stFail c info pos).psetLen = s.psetLen := rfl
@[simp] theorem State.stFail_palLen (c : Code) (info pos : Nat) : (s.stFail c info pos).palLen = s.palLen := rfl
@[simp] theorem State.stFail_icmState (c : Code) (info pos : Nat) :
    (s.stFail c info pos).icmState = s.icmState := rfl
@[simp] theorem State.stFail_icmCount (c : Code) (info pos : Nat) :
    (s.stFail c info pos).icmCount = s.icmCount := rfl
@[simp] theorem State.stFail_pmState (c : Code) (info pos : Nat) : (s.stFail c info pos).pmState = s.pmState := rfl
@[simp] theorem State.stFail_fmState (c : Code) (info pos : Nat) : (s.stFail c info pos).fmState = s.fmState := rfl
@[simp] theorem State.stFail_stState (c : Code) (info pos : Nat) : (s.stFail c info pos).stState = 0 := rfl
@[simp] theorem State.stFail_icmPos (c : Code) (info pos : Nat) : (s.stFail c info pos).icmPos = s.icmPos := rfl
@[simp] theorem State.stFail_pmPos (c : Code) (info pos : Nat) : (s.stFail c info pos).pmPos = s.pmPos := rfl
@[simp] theorem State.stFail_fmPos (c : Code) (info pos : Nat) : (s.stFail c info pos).fmPos = s.fmPos := rfl
@[simp] theorem State.stFail_stPos (c : Code) (info pos : Nat) :
    (s.stFail c info pos).stPos = BitVec.ofNat 32 pos := rfl
@[simp] theorem State.stFail_icm (c : Code) (info pos : Nat) : (s.stFail c info pos).icm = s.icm := rfl
@[simp] theorem State.stFail_pm (c : Code) (info pos : Nat) : (s.stFail c info pos).pm = s.pm := rfl
@[simp] theorem State.stFail_fm (c : Code) (info pos : Nat) : (s.stFail c info pos).fm = s.fm := rfl
@[simp] theorem State.stFail_templates (c : Code) (info pos : Nat) : (s.stFail c info pos).templates = [] := rfl
@[simp] theorem State.stFail_base (c : Code) (info pos : Nat) : (s.stFail c info pos).base = s.base := rfl
@[simp] theorem State.stFail_pal (c : Code) (info pos : Nat) : (s.stFail c info pos).pal = s.pal := rfl
@[simp] theorem State.stFail_pset (c : Code) (info pos : Nat) : (s.stFail c info pos).pset = s.pset := rfl
@[simp] theorem State.stFail_out (c : Code) (info pos : Nat) : (s.stFail c info pos).out = s.out := rfl
@[simp] theorem State.stFail_log (c : Code) (info pos : Nat) :
    (s.stFail c info pos).log = s.log ++ [{ level := .error, code := c, info := BitVec.ofNat 32 info }] := rfl
@[simp] theorem State.stFail_pending (c : Code) (info pos : Nat) : (s.stFail c info pos).pending = s.pending := rfl
@[simp] theorem State.stFail_readData (c : Code) (info pos : Nat) :
    (s.stFail c info pos).readData = s.readData := rfl
@[simp] theorem State.stFail_draws (c : Code) (info pos : Nat) : (s.stFail c info pos).draws = s.draws := rfl

/-! ### `State.patchFail` -/

@[simp] theorem State.patchFail_cfg (c : Code) (info : Word) : (s.patchFail c info).cfg = s.cfg := rfl
@[simp] theorem State.patchFail_phase (c : Code) (info : Word) : (s.patchFail c info).phase = .idle := rfl
@[simp] theorem State.patchFail_taps (c : Code) (info : Word) : (s.patchFail c info).taps = [] := rfl
@[simp] theorem State.patchFail_curY (c : Code) (info : Word) : (s.patchFail c info).curY = s.curY := rfl
@[simp] theorem State.patchFail_curK (c : Code) (info : Word) : (s.patchFail c info).curK = s.curK := rfl
@[simp] theorem State.patchFail_status (c : Code) (info : Word) : (s.patchFail c info).status = c.toByte := rfl
@[simp] theorem State.patchFail_result (c : Code) (info : Word) : (s.patchFail c info).result = 0 := rfl
@[simp] theorem State.patchFail_resultValid (c : Code) (info : Word) : (s.patchFail c info).resultValid = 0 := rfl
@[simp] theorem State.patchFail_arg0 (c : Code) (info : Word) : (s.patchFail c info).arg0 = s.arg0 := rfl
@[simp] theorem State.patchFail_arg1 (c : Code) (info : Word) : (s.patchFail c info).arg1 = s.arg1 := rfl
@[simp] theorem State.patchFail_arg2 (c : Code) (info : Word) : (s.patchFail c info).arg2 = s.arg2 := rfl
@[simp] theorem State.patchFail_arg3 (c : Code) (info : Word) : (s.patchFail c info).arg3 = s.arg3 := rfl
@[simp] theorem State.patchFail_srcPresent (c : Code) (info : Word) :
    (s.patchFail c info).srcPresent = s.srcPresent := rfl
@[simp] theorem State.patchFail_psetLen (c : Code) (info : Word) : (s.patchFail c info).psetLen = s.psetLen := rfl
@[simp] theorem State.patchFail_palLen (c : Code) (info : Word) : (s.patchFail c info).palLen = s.palLen := rfl
@[simp] theorem State.patchFail_icmState (c : Code) (info : Word) : (s.patchFail c info).icmState = s.icmState := rfl
@[simp] theorem State.patchFail_icmCount (c : Code) (info : Word) : (s.patchFail c info).icmCount = s.icmCount := rfl
@[simp] theorem State.patchFail_pmState (c : Code) (info : Word) : (s.patchFail c info).pmState = s.pmState := rfl
@[simp] theorem State.patchFail_fmState (c : Code) (info : Word) : (s.patchFail c info).fmState = s.fmState := rfl
@[simp] theorem State.patchFail_stState (c : Code) (info : Word) : (s.patchFail c info).stState = s.stState := rfl
@[simp] theorem State.patchFail_icmPos (c : Code) (info : Word) : (s.patchFail c info).icmPos = s.icmPos := rfl
@[simp] theorem State.patchFail_pmPos (c : Code) (info : Word) : (s.patchFail c info).pmPos = s.pmPos := rfl
@[simp] theorem State.patchFail_fmPos (c : Code) (info : Word) : (s.patchFail c info).fmPos = s.fmPos := rfl
@[simp] theorem State.patchFail_stPos (c : Code) (info : Word) : (s.patchFail c info).stPos = s.stPos := rfl
@[simp] theorem State.patchFail_icm (c : Code) (info : Word) : (s.patchFail c info).icm = s.icm := rfl
@[simp] theorem State.patchFail_pm (c : Code) (info : Word) : (s.patchFail c info).pm = s.pm := rfl
@[simp] theorem State.patchFail_fm (c : Code) (info : Word) : (s.patchFail c info).fm = s.fm := rfl
@[simp] theorem State.patchFail_templates (c : Code) (info : Word) :
    (s.patchFail c info).templates = s.templates := rfl
@[simp] theorem State.patchFail_base (c : Code) (info : Word) : (s.patchFail c info).base = s.base := rfl
@[simp] theorem State.patchFail_pal (c : Code) (info : Word) : (s.patchFail c info).pal = s.pal := rfl
@[simp] theorem State.patchFail_pset (c : Code) (info : Word) : (s.patchFail c info).pset = s.pset := rfl
@[simp] theorem State.patchFail_out (c : Code) (info : Word) : (s.patchFail c info).out = none := rfl
@[simp] theorem State.patchFail_log (c : Code) (info : Word) :
    (s.patchFail c info).log = s.log ++ [{ level := .error, code := c, info := info }] := rfl
@[simp] theorem State.patchFail_pending (c : Code) (info : Word) : (s.patchFail c info).pending = s.pending := rfl
@[simp] theorem State.patchFail_readData (c : Code) (info : Word) : (s.patchFail c info).readData = s.readData := rfl
@[simp] theorem State.patchFail_draws (c : Code) (info : Word) : (s.patchFail c info).draws = s.draws := rfl

/-! ### `State.icmLoadDone` -/

@[simp] theorem State.icmLoadDone_cfg (n : Nat) (b : List Byte) (pos : Nat) :
    (s.icmLoadDone n b pos).cfg = s.cfg := rfl
@[simp] theorem State.icmLoadDone_phase (n : Nat) (b : List Byte) (pos : Nat) :
    (s.icmLoadDone n b pos).phase = s.phase := rfl
@[simp] theorem State.icmLoadDone_taps (n : Nat) (b : List Byte) (pos : Nat) :
    (s.icmLoadDone n b pos).taps = s.taps := rfl
@[simp] theorem State.icmLoadDone_curY (n : Nat) (b : List Byte) (pos : Nat) :
    (s.icmLoadDone n b pos).curY = s.curY := rfl
@[simp] theorem State.icmLoadDone_curK (n : Nat) (b : List Byte) (pos : Nat) :
    (s.icmLoadDone n b pos).curK = s.curK := rfl
@[simp] theorem State.icmLoadDone_status (n : Nat) (b : List Byte) (pos : Nat) :
    (s.icmLoadDone n b pos).status = Code.ok.toByte := rfl
@[simp] theorem State.icmLoadDone_result (n : Nat) (b : List Byte) (pos : Nat) :
    (s.icmLoadDone n b pos).result = 0 := rfl
@[simp] theorem State.icmLoadDone_resultValid (n : Nat) (b : List Byte) (pos : Nat) :
    (s.icmLoadDone n b pos).resultValid = 0 := rfl
@[simp] theorem State.icmLoadDone_arg0 (n : Nat) (b : List Byte) (pos : Nat) :
    (s.icmLoadDone n b pos).arg0 = s.arg0 := rfl
@[simp] theorem State.icmLoadDone_arg1 (n : Nat) (b : List Byte) (pos : Nat) :
    (s.icmLoadDone n b pos).arg1 = s.arg1 := rfl
@[simp] theorem State.icmLoadDone_arg2 (n : Nat) (b : List Byte) (pos : Nat) :
    (s.icmLoadDone n b pos).arg2 = s.arg2 := rfl
@[simp] theorem State.icmLoadDone_arg3 (n : Nat) (b : List Byte) (pos : Nat) :
    (s.icmLoadDone n b pos).arg3 = s.arg3 := rfl
@[simp] theorem State.icmLoadDone_srcPresent (n : Nat) (b : List Byte) (pos : Nat) :
    (s.icmLoadDone n b pos).srcPresent = s.srcPresent := rfl
@[simp] theorem State.icmLoadDone_psetLen (n : Nat) (b : List Byte) (pos : Nat) :
    (s.icmLoadDone n b pos).psetLen = s.psetLen := rfl
@[simp] theorem State.icmLoadDone_palLen (n : Nat) (b : List Byte) (pos : Nat) :
    (s.icmLoadDone n b pos).palLen = s.palLen := rfl
@[simp] theorem State.icmLoadDone_icmState (n : Nat) (b : List Byte) (pos : Nat) :
    (s.icmLoadDone n b pos).icmState = 1 := rfl
@[simp] theorem State.icmLoadDone_icmCount (n : Nat) (b : List Byte) (pos : Nat) :
    (s.icmLoadDone n b pos).icmCount = BitVec.ofNat 32 n := rfl
@[simp] theorem State.icmLoadDone_pmState (n : Nat) (b : List Byte) (pos : Nat) :
    (s.icmLoadDone n b pos).pmState = s.pmState := rfl
@[simp] theorem State.icmLoadDone_fmState (n : Nat) (b : List Byte) (pos : Nat) :
    (s.icmLoadDone n b pos).fmState = s.fmState := rfl
@[simp] theorem State.icmLoadDone_stState (n : Nat) (b : List Byte) (pos : Nat) :
    (s.icmLoadDone n b pos).stState = s.stState := rfl
@[simp] theorem State.icmLoadDone_icmPos (n : Nat) (b : List Byte) (pos : Nat) :
    (s.icmLoadDone n b pos).icmPos = BitVec.ofNat 32 pos := rfl
@[simp] theorem State.icmLoadDone_pmPos (n : Nat) (b : List Byte) (pos : Nat) :
    (s.icmLoadDone n b pos).pmPos = s.pmPos := rfl
@[simp] theorem State.icmLoadDone_fmPos (n : Nat) (b : List Byte) (pos : Nat) :
    (s.icmLoadDone n b pos).fmPos = s.fmPos := rfl
@[simp] theorem State.icmLoadDone_stPos (n : Nat) (b : List Byte) (pos : Nat) :
    (s.icmLoadDone n b pos).stPos = s.stPos := rfl
@[simp] theorem State.icmLoadDone_icm (n : Nat) (b : List Byte) (pos : Nat) :
    (s.icmLoadDone n b pos).icm = Memory.ofList 0 b := rfl
@[simp] theorem State.icmLoadDone_pm (n : Nat) (b : List Byte) (pos : Nat) : (s.icmLoadDone n b pos).pm = s.pm := rfl
@[simp] theorem State.icmLoadDone_fm (n : Nat) (b : List Byte) (pos : Nat) : (s.icmLoadDone n b pos).fm = s.fm := rfl
@[simp] theorem State.icmLoadDone_templates (n : Nat) (b : List Byte) (pos : Nat) :
    (s.icmLoadDone n b pos).templates = s.templates := rfl
@[simp] theorem State.icmLoadDone_base (n : Nat) (b : List Byte) (pos : Nat) :
    (s.icmLoadDone n b pos).base = s.base := rfl
@[simp] theorem State.icmLoadDone_pal (n : Nat) (b : List Byte) (pos : Nat) :
    (s.icmLoadDone n b pos).pal = s.pal := rfl
@[simp] theorem State.icmLoadDone_pset (n : Nat) (b : List Byte) (pos : Nat) :
    (s.icmLoadDone n b pos).pset = s.pset := rfl
@[simp] theorem State.icmLoadDone_out (n : Nat) (b : List Byte) (pos : Nat) :
    (s.icmLoadDone n b pos).out = s.out := rfl
@[simp] theorem State.icmLoadDone_log (n : Nat) (b : List Byte) (pos : Nat) :
    (s.icmLoadDone n b pos).log = s.log := rfl
@[simp] theorem State.icmLoadDone_pending (n : Nat) (b : List Byte) (pos : Nat) :
    (s.icmLoadDone n b pos).pending = s.pending := rfl
@[simp] theorem State.icmLoadDone_readData (n : Nat) (b : List Byte) (pos : Nat) :
    (s.icmLoadDone n b pos).readData = s.readData := rfl
@[simp] theorem State.icmLoadDone_draws (n : Nat) (b : List Byte) (pos : Nat) :
    (s.icmLoadDone n b pos).draws = s.draws := rfl

/-! ### `State.pmLoadDone` -/

@[simp] theorem State.pmLoadDone_cfg (b : List Byte) (pos : Nat) : (s.pmLoadDone b pos).cfg = s.cfg := rfl
@[simp] theorem State.pmLoadDone_phase (b : List Byte) (pos : Nat) : (s.pmLoadDone b pos).phase = s.phase := rfl
@[simp] theorem State.pmLoadDone_taps (b : List Byte) (pos : Nat) : (s.pmLoadDone b pos).taps = s.taps := rfl
@[simp] theorem State.pmLoadDone_curY (b : List Byte) (pos : Nat) : (s.pmLoadDone b pos).curY = s.curY := rfl
@[simp] theorem State.pmLoadDone_curK (b : List Byte) (pos : Nat) : (s.pmLoadDone b pos).curK = s.curK := rfl
@[simp] theorem State.pmLoadDone_status (b : List Byte) (pos : Nat) :
    (s.pmLoadDone b pos).status = Code.ok.toByte := rfl
@[simp] theorem State.pmLoadDone_result (b : List Byte) (pos : Nat) : (s.pmLoadDone b pos).result = 0 := rfl
@[simp] theorem State.pmLoadDone_resultValid (b : List Byte) (pos : Nat) :
    (s.pmLoadDone b pos).resultValid = 0 := rfl
@[simp] theorem State.pmLoadDone_arg0 (b : List Byte) (pos : Nat) : (s.pmLoadDone b pos).arg0 = s.arg0 := rfl
@[simp] theorem State.pmLoadDone_arg1 (b : List Byte) (pos : Nat) : (s.pmLoadDone b pos).arg1 = s.arg1 := rfl
@[simp] theorem State.pmLoadDone_arg2 (b : List Byte) (pos : Nat) : (s.pmLoadDone b pos).arg2 = s.arg2 := rfl
@[simp] theorem State.pmLoadDone_arg3 (b : List Byte) (pos : Nat) : (s.pmLoadDone b pos).arg3 = s.arg3 := rfl
@[simp] theorem State.pmLoadDone_srcPresent (b : List Byte) (pos : Nat) :
    (s.pmLoadDone b pos).srcPresent = s.srcPresent := rfl
@[simp] theorem State.pmLoadDone_psetLen (b : List Byte) (pos : Nat) :
    (s.pmLoadDone b pos).psetLen = s.psetLen := rfl
@[simp] theorem State.pmLoadDone_palLen (b : List Byte) (pos : Nat) : (s.pmLoadDone b pos).palLen = s.palLen := rfl
@[simp] theorem State.pmLoadDone_icmState (b : List Byte) (pos : Nat) :
    (s.pmLoadDone b pos).icmState = s.icmState := rfl
@[simp] theorem State.pmLoadDone_icmCount (b : List Byte) (pos : Nat) :
    (s.pmLoadDone b pos).icmCount = s.icmCount := rfl
@[simp] theorem State.pmLoadDone_pmState (b : List Byte) (pos : Nat) : (s.pmLoadDone b pos).pmState = 1 := rfl
@[simp] theorem State.pmLoadDone_fmState (b : List Byte) (pos : Nat) :
    (s.pmLoadDone b pos).fmState = s.fmState := rfl
@[simp] theorem State.pmLoadDone_stState (b : List Byte) (pos : Nat) :
    (s.pmLoadDone b pos).stState = s.stState := rfl
@[simp] theorem State.pmLoadDone_icmPos (b : List Byte) (pos : Nat) : (s.pmLoadDone b pos).icmPos = s.icmPos := rfl
@[simp] theorem State.pmLoadDone_pmPos (b : List Byte) (pos : Nat) :
    (s.pmLoadDone b pos).pmPos = BitVec.ofNat 32 pos := rfl
@[simp] theorem State.pmLoadDone_fmPos (b : List Byte) (pos : Nat) : (s.pmLoadDone b pos).fmPos = s.fmPos := rfl
@[simp] theorem State.pmLoadDone_stPos (b : List Byte) (pos : Nat) : (s.pmLoadDone b pos).stPos = s.stPos := rfl
@[simp] theorem State.pmLoadDone_icm (b : List Byte) (pos : Nat) : (s.pmLoadDone b pos).icm = s.icm := rfl
@[simp] theorem State.pmLoadDone_pm (b : List Byte) (pos : Nat) : (s.pmLoadDone b pos).pm = Memory.ofList 0 b := rfl
@[simp] theorem State.pmLoadDone_fm (b : List Byte) (pos : Nat) : (s.pmLoadDone b pos).fm = s.fm := rfl
@[simp] theorem State.pmLoadDone_templates (b : List Byte) (pos : Nat) :
    (s.pmLoadDone b pos).templates = s.templates := rfl
@[simp] theorem State.pmLoadDone_base (b : List Byte) (pos : Nat) : (s.pmLoadDone b pos).base = s.base := rfl
@[simp] theorem State.pmLoadDone_pal (b : List Byte) (pos : Nat) : (s.pmLoadDone b pos).pal = s.pal := rfl
@[simp] theorem State.pmLoadDone_pset (b : List Byte) (pos : Nat) : (s.pmLoadDone b pos).pset = s.pset := rfl
@[simp] theorem State.pmLoadDone_out (b : List Byte) (pos : Nat) : (s.pmLoadDone b pos).out = s.out := rfl
@[simp] theorem State.pmLoadDone_log (b : List Byte) (pos : Nat) : (s.pmLoadDone b pos).log = s.log := rfl
@[simp] theorem State.pmLoadDone_pending (b : List Byte) (pos : Nat) :
    (s.pmLoadDone b pos).pending = s.pending := rfl
@[simp] theorem State.pmLoadDone_readData (b : List Byte) (pos : Nat) :
    (s.pmLoadDone b pos).readData = s.readData := rfl
@[simp] theorem State.pmLoadDone_draws (b : List Byte) (pos : Nat) : (s.pmLoadDone b pos).draws = s.draws := rfl

/-! ### `State.fmLoadDone` -/

@[simp] theorem State.fmLoadDone_cfg (m : List Filtermap) (pos : Nat) : (s.fmLoadDone m pos).cfg = s.cfg := rfl
@[simp] theorem State.fmLoadDone_phase (m : List Filtermap) (pos : Nat) : (s.fmLoadDone m pos).phase = s.phase := rfl
@[simp] theorem State.fmLoadDone_taps (m : List Filtermap) (pos : Nat) : (s.fmLoadDone m pos).taps = s.taps := rfl
@[simp] theorem State.fmLoadDone_curY (m : List Filtermap) (pos : Nat) : (s.fmLoadDone m pos).curY = s.curY := rfl
@[simp] theorem State.fmLoadDone_curK (m : List Filtermap) (pos : Nat) : (s.fmLoadDone m pos).curK = s.curK := rfl
@[simp] theorem State.fmLoadDone_status (m : List Filtermap) (pos : Nat) :
    (s.fmLoadDone m pos).status = Code.ok.toByte := rfl
@[simp] theorem State.fmLoadDone_result (m : List Filtermap) (pos : Nat) : (s.fmLoadDone m pos).result = 0 := rfl
@[simp] theorem State.fmLoadDone_resultValid (m : List Filtermap) (pos : Nat) :
    (s.fmLoadDone m pos).resultValid = 0 := rfl
@[simp] theorem State.fmLoadDone_arg0 (m : List Filtermap) (pos : Nat) : (s.fmLoadDone m pos).arg0 = s.arg0 := rfl
@[simp] theorem State.fmLoadDone_arg1 (m : List Filtermap) (pos : Nat) : (s.fmLoadDone m pos).arg1 = s.arg1 := rfl
@[simp] theorem State.fmLoadDone_arg2 (m : List Filtermap) (pos : Nat) : (s.fmLoadDone m pos).arg2 = s.arg2 := rfl
@[simp] theorem State.fmLoadDone_arg3 (m : List Filtermap) (pos : Nat) : (s.fmLoadDone m pos).arg3 = s.arg3 := rfl
@[simp] theorem State.fmLoadDone_srcPresent (m : List Filtermap) (pos : Nat) :
    (s.fmLoadDone m pos).srcPresent = s.srcPresent := rfl
@[simp] theorem State.fmLoadDone_psetLen (m : List Filtermap) (pos : Nat) :
    (s.fmLoadDone m pos).psetLen = s.psetLen := rfl
@[simp] theorem State.fmLoadDone_palLen (m : List Filtermap) (pos : Nat) :
    (s.fmLoadDone m pos).palLen = s.palLen := rfl
@[simp] theorem State.fmLoadDone_icmState (m : List Filtermap) (pos : Nat) :
    (s.fmLoadDone m pos).icmState = s.icmState := rfl
@[simp] theorem State.fmLoadDone_icmCount (m : List Filtermap) (pos : Nat) :
    (s.fmLoadDone m pos).icmCount = s.icmCount := rfl
@[simp] theorem State.fmLoadDone_pmState (m : List Filtermap) (pos : Nat) :
    (s.fmLoadDone m pos).pmState = s.pmState := rfl
@[simp] theorem State.fmLoadDone_fmState (m : List Filtermap) (pos : Nat) : (s.fmLoadDone m pos).fmState = 1 := rfl
@[simp] theorem State.fmLoadDone_stState (m : List Filtermap) (pos : Nat) :
    (s.fmLoadDone m pos).stState = s.stState := rfl
@[simp] theorem State.fmLoadDone_icmPos (m : List Filtermap) (pos : Nat) :
    (s.fmLoadDone m pos).icmPos = s.icmPos := rfl
@[simp] theorem State.fmLoadDone_pmPos (m : List Filtermap) (pos : Nat) : (s.fmLoadDone m pos).pmPos = s.pmPos := rfl
@[simp] theorem State.fmLoadDone_fmPos (m : List Filtermap) (pos : Nat) :
    (s.fmLoadDone m pos).fmPos = BitVec.ofNat 32 pos := rfl
@[simp] theorem State.fmLoadDone_stPos (m : List Filtermap) (pos : Nat) : (s.fmLoadDone m pos).stPos = s.stPos := rfl
@[simp] theorem State.fmLoadDone_icm (m : List Filtermap) (pos : Nat) : (s.fmLoadDone m pos).icm = s.icm := rfl
@[simp] theorem State.fmLoadDone_pm (m : List Filtermap) (pos : Nat) : (s.fmLoadDone m pos).pm = s.pm := rfl
@[simp] theorem State.fmLoadDone_fm (m : List Filtermap) (pos : Nat) : (s.fmLoadDone m pos).fm = m := rfl
@[simp] theorem State.fmLoadDone_templates (m : List Filtermap) (pos : Nat) :
    (s.fmLoadDone m pos).templates = s.templates := rfl
@[simp] theorem State.fmLoadDone_base (m : List Filtermap) (pos : Nat) : (s.fmLoadDone m pos).base = s.base := rfl
@[simp] theorem State.fmLoadDone_pal (m : List Filtermap) (pos : Nat) : (s.fmLoadDone m pos).pal = s.pal := rfl
@[simp] theorem State.fmLoadDone_pset (m : List Filtermap) (pos : Nat) : (s.fmLoadDone m pos).pset = s.pset := rfl
@[simp] theorem State.fmLoadDone_out (m : List Filtermap) (pos : Nat) : (s.fmLoadDone m pos).out = s.out := rfl
@[simp] theorem State.fmLoadDone_log (m : List Filtermap) (pos : Nat) : (s.fmLoadDone m pos).log = s.log := rfl
@[simp] theorem State.fmLoadDone_pending (m : List Filtermap) (pos : Nat) :
    (s.fmLoadDone m pos).pending = s.pending := rfl
@[simp] theorem State.fmLoadDone_readData (m : List Filtermap) (pos : Nat) :
    (s.fmLoadDone m pos).readData = s.readData := rfl
@[simp] theorem State.fmLoadDone_draws (m : List Filtermap) (pos : Nat) : (s.fmLoadDone m pos).draws = s.draws := rfl

/-! ### `State.stLoadDone` -/

@[simp] theorem State.stLoadDone_cfg (ts : List Template) (pos : Nat) : (s.stLoadDone ts pos).cfg = s.cfg := rfl
@[simp] theorem State.stLoadDone_phase (ts : List Template) (pos : Nat) :
    (s.stLoadDone ts pos).phase = s.phase := rfl
@[simp] theorem State.stLoadDone_taps (ts : List Template) (pos : Nat) : (s.stLoadDone ts pos).taps = s.taps := rfl
@[simp] theorem State.stLoadDone_curY (ts : List Template) (pos : Nat) : (s.stLoadDone ts pos).curY = s.curY := rfl
@[simp] theorem State.stLoadDone_curK (ts : List Template) (pos : Nat) : (s.stLoadDone ts pos).curK = s.curK := rfl
@[simp] theorem State.stLoadDone_status (ts : List Template) (pos : Nat) :
    (s.stLoadDone ts pos).status = Code.ok.toByte := rfl
@[simp] theorem State.stLoadDone_result (ts : List Template) (pos : Nat) : (s.stLoadDone ts pos).result = 0 := rfl
@[simp] theorem State.stLoadDone_resultValid (ts : List Template) (pos : Nat) :
    (s.stLoadDone ts pos).resultValid = 0 := rfl
@[simp] theorem State.stLoadDone_arg0 (ts : List Template) (pos : Nat) : (s.stLoadDone ts pos).arg0 = s.arg0 := rfl
@[simp] theorem State.stLoadDone_arg1 (ts : List Template) (pos : Nat) : (s.stLoadDone ts pos).arg1 = s.arg1 := rfl
@[simp] theorem State.stLoadDone_arg2 (ts : List Template) (pos : Nat) : (s.stLoadDone ts pos).arg2 = s.arg2 := rfl
@[simp] theorem State.stLoadDone_arg3 (ts : List Template) (pos : Nat) : (s.stLoadDone ts pos).arg3 = s.arg3 := rfl
@[simp] theorem State.stLoadDone_srcPresent (ts : List Template) (pos : Nat) :
    (s.stLoadDone ts pos).srcPresent = s.srcPresent := rfl
@[simp] theorem State.stLoadDone_psetLen (ts : List Template) (pos : Nat) :
    (s.stLoadDone ts pos).psetLen = s.psetLen := rfl
@[simp] theorem State.stLoadDone_palLen (ts : List Template) (pos : Nat) :
    (s.stLoadDone ts pos).palLen = s.palLen := rfl
@[simp] theorem State.stLoadDone_icmState (ts : List Template) (pos : Nat) :
    (s.stLoadDone ts pos).icmState = s.icmState := rfl
@[simp] theorem State.stLoadDone_icmCount (ts : List Template) (pos : Nat) :
    (s.stLoadDone ts pos).icmCount = s.icmCount := rfl
@[simp] theorem State.stLoadDone_pmState (ts : List Template) (pos : Nat) :
    (s.stLoadDone ts pos).pmState = s.pmState := rfl
@[simp] theorem State.stLoadDone_fmState (ts : List Template) (pos : Nat) :
    (s.stLoadDone ts pos).fmState = s.fmState := rfl
@[simp] theorem State.stLoadDone_stState (ts : List Template) (pos : Nat) : (s.stLoadDone ts pos).stState = 1 := rfl
@[simp] theorem State.stLoadDone_icmPos (ts : List Template) (pos : Nat) :
    (s.stLoadDone ts pos).icmPos = s.icmPos := rfl
@[simp] theorem State.stLoadDone_pmPos (ts : List Template) (pos : Nat) :
    (s.stLoadDone ts pos).pmPos = s.pmPos := rfl
@[simp] theorem State.stLoadDone_fmPos (ts : List Template) (pos : Nat) :
    (s.stLoadDone ts pos).fmPos = s.fmPos := rfl
@[simp] theorem State.stLoadDone_stPos (ts : List Template) (pos : Nat) :
    (s.stLoadDone ts pos).stPos = BitVec.ofNat 32 pos := rfl
@[simp] theorem State.stLoadDone_icm (ts : List Template) (pos : Nat) : (s.stLoadDone ts pos).icm = s.icm := rfl
@[simp] theorem State.stLoadDone_pm (ts : List Template) (pos : Nat) : (s.stLoadDone ts pos).pm = s.pm := rfl
@[simp] theorem State.stLoadDone_fm (ts : List Template) (pos : Nat) : (s.stLoadDone ts pos).fm = s.fm := rfl
@[simp] theorem State.stLoadDone_templates (ts : List Template) (pos : Nat) :
    (s.stLoadDone ts pos).templates = ts := rfl
@[simp] theorem State.stLoadDone_base (ts : List Template) (pos : Nat) : (s.stLoadDone ts pos).base = s.base := rfl
@[simp] theorem State.stLoadDone_pal (ts : List Template) (pos : Nat) : (s.stLoadDone ts pos).pal = s.pal := rfl
@[simp] theorem State.stLoadDone_pset (ts : List Template) (pos : Nat) : (s.stLoadDone ts pos).pset = s.pset := rfl
@[simp] theorem State.stLoadDone_out (ts : List Template) (pos : Nat) : (s.stLoadDone ts pos).out = s.out := rfl
@[simp] theorem State.stLoadDone_log (ts : List Template) (pos : Nat) : (s.stLoadDone ts pos).log = s.log := rfl
@[simp] theorem State.stLoadDone_pending (ts : List Template) (pos : Nat) :
    (s.stLoadDone ts pos).pending = s.pending := rfl
@[simp] theorem State.stLoadDone_readData (ts : List Template) (pos : Nat) :
    (s.stLoadDone ts pos).readData = s.readData := rfl
@[simp] theorem State.stLoadDone_draws (ts : List Template) (pos : Nat) :
    (s.stLoadDone ts pos).draws = s.draws := rfl

/-! ### `State.patchDone` -/

@[simp] theorem State.patchDone_cfg : (s.patchDone).cfg = s.cfg := rfl
@[simp] theorem State.patchDone_phase : (s.patchDone).phase = .idle := rfl
@[simp] theorem State.patchDone_taps : (s.patchDone).taps = [] := rfl
@[simp] theorem State.patchDone_curY : (s.patchDone).curY = s.curY := rfl
@[simp] theorem State.patchDone_curK : (s.patchDone).curK = s.curK := rfl
@[simp] theorem State.patchDone_status : (s.patchDone).status = Code.ok.toByte := rfl
@[simp] theorem State.patchDone_result : (s.patchDone).result = 0 := rfl
@[simp] theorem State.patchDone_resultValid : (s.patchDone).resultValid = 1 := rfl
@[simp] theorem State.patchDone_arg0 : (s.patchDone).arg0 = s.arg0 := rfl
@[simp] theorem State.patchDone_arg1 : (s.patchDone).arg1 = s.arg1 := rfl
@[simp] theorem State.patchDone_arg2 : (s.patchDone).arg2 = s.arg2 := rfl
@[simp] theorem State.patchDone_arg3 : (s.patchDone).arg3 = s.arg3 := rfl
@[simp] theorem State.patchDone_srcPresent : (s.patchDone).srcPresent = s.srcPresent := rfl
@[simp] theorem State.patchDone_psetLen : (s.patchDone).psetLen = s.psetLen := rfl
@[simp] theorem State.patchDone_palLen : (s.patchDone).palLen = s.palLen := rfl
@[simp] theorem State.patchDone_icmState : (s.patchDone).icmState = s.icmState := rfl
@[simp] theorem State.patchDone_icmCount : (s.patchDone).icmCount = s.icmCount := rfl
@[simp] theorem State.patchDone_pmState : (s.patchDone).pmState = s.pmState := rfl
@[simp] theorem State.patchDone_fmState : (s.patchDone).fmState = s.fmState := rfl
@[simp] theorem State.patchDone_stState : (s.patchDone).stState = s.stState := rfl
@[simp] theorem State.patchDone_icmPos : (s.patchDone).icmPos = s.icmPos := rfl
@[simp] theorem State.patchDone_pmPos : (s.patchDone).pmPos = s.pmPos := rfl
@[simp] theorem State.patchDone_fmPos : (s.patchDone).fmPos = s.fmPos := rfl
@[simp] theorem State.patchDone_stPos : (s.patchDone).stPos = s.stPos := rfl
@[simp] theorem State.patchDone_icm : (s.patchDone).icm = s.icm := rfl
@[simp] theorem State.patchDone_pm : (s.patchDone).pm = s.pm := rfl
@[simp] theorem State.patchDone_fm : (s.patchDone).fm = s.fm := rfl
@[simp] theorem State.patchDone_templates : (s.patchDone).templates = s.templates := rfl
@[simp] theorem State.patchDone_base : (s.patchDone).base = s.base := rfl
@[simp] theorem State.patchDone_pal : (s.patchDone).pal = s.pal := rfl
@[simp] theorem State.patchDone_pset : (s.patchDone).pset = s.pset := rfl
@[simp] theorem State.patchDone_out : (s.patchDone).out = s.out := rfl
@[simp] theorem State.patchDone_log : (s.patchDone).log = s.log := rfl
@[simp] theorem State.patchDone_pending : (s.patchDone).pending = s.pending := rfl
@[simp] theorem State.patchDone_readData : (s.patchDone).readData = s.readData := rfl
@[simp] theorem State.patchDone_draws : (s.patchDone).draws = s.draws := rfl

/-! ### `State.commandDone` -/

@[simp] theorem State.commandDone_cfg (f : OutFrame) (a : Nat) (i : Byte) : (s.commandDone f a i).cfg = s.cfg := rfl
@[simp] theorem State.commandDone_phase (f : OutFrame) (a : Nat) (i : Byte) :
    (s.commandDone f a i).phase = s.phase := rfl
@[simp] theorem State.commandDone_taps (f : OutFrame) (a : Nat) (i : Byte) : (s.commandDone f a i).taps = [] := rfl
@[simp] theorem State.commandDone_curY (f : OutFrame) (a : Nat) (i : Byte) :
    (s.commandDone f a i).curY = s.curY := rfl
@[simp] theorem State.commandDone_curK (f : OutFrame) (a : Nat) (i : Byte) :
    (s.commandDone f a i).curK = s.curK + 1 := rfl
@[simp] theorem State.commandDone_status (f : OutFrame) (a : Nat) (i : Byte) :
    (s.commandDone f a i).status = s.status := rfl
@[simp] theorem State.commandDone_result (f : OutFrame) (a : Nat) (i : Byte) :
    (s.commandDone f a i).result = s.result := rfl
@[simp] theorem State.commandDone_resultValid (f : OutFrame) (a : Nat) (i : Byte) :
    (s.commandDone f a i).resultValid = s.resultValid := rfl
@[simp] theorem State.commandDone_arg0 (f : OutFrame) (a : Nat) (i : Byte) :
    (s.commandDone f a i).arg0 = s.arg0 := rfl
@[simp] theorem State.commandDone_arg1 (f : OutFrame) (a : Nat) (i : Byte) :
    (s.commandDone f a i).arg1 = s.arg1 := rfl
@[simp] theorem State.commandDone_arg2 (f : OutFrame) (a : Nat) (i : Byte) :
    (s.commandDone f a i).arg2 = s.arg2 := rfl
@[simp] theorem State.commandDone_arg3 (f : OutFrame) (a : Nat) (i : Byte) :
    (s.commandDone f a i).arg3 = s.arg3 := rfl
@[simp] theorem State.commandDone_srcPresent (f : OutFrame) (a : Nat) (i : Byte) :
    (s.commandDone f a i).srcPresent = s.srcPresent := rfl
@[simp] theorem State.commandDone_psetLen (f : OutFrame) (a : Nat) (i : Byte) :
    (s.commandDone f a i).psetLen = s.psetLen := rfl
@[simp] theorem State.commandDone_palLen (f : OutFrame) (a : Nat) (i : Byte) :
    (s.commandDone f a i).palLen = s.palLen := rfl
@[simp] theorem State.commandDone_icmState (f : OutFrame) (a : Nat) (i : Byte) :
    (s.commandDone f a i).icmState = s.icmState := rfl
@[simp] theorem State.commandDone_icmCount (f : OutFrame) (a : Nat) (i : Byte) :
    (s.commandDone f a i).icmCount = s.icmCount := rfl
@[simp] theorem State.commandDone_pmState (f : OutFrame) (a : Nat) (i : Byte) :
    (s.commandDone f a i).pmState = s.pmState := rfl
@[simp] theorem State.commandDone_fmState (f : OutFrame) (a : Nat) (i : Byte) :
    (s.commandDone f a i).fmState = s.fmState := rfl
@[simp] theorem State.commandDone_stState (f : OutFrame) (a : Nat) (i : Byte) :
    (s.commandDone f a i).stState = s.stState := rfl
@[simp] theorem State.commandDone_icmPos (f : OutFrame) (a : Nat) (i : Byte) :
    (s.commandDone f a i).icmPos = s.icmPos := rfl
@[simp] theorem State.commandDone_pmPos (f : OutFrame) (a : Nat) (i : Byte) :
    (s.commandDone f a i).pmPos = s.pmPos := rfl
@[simp] theorem State.commandDone_fmPos (f : OutFrame) (a : Nat) (i : Byte) :
    (s.commandDone f a i).fmPos = s.fmPos := rfl
@[simp] theorem State.commandDone_stPos (f : OutFrame) (a : Nat) (i : Byte) :
    (s.commandDone f a i).stPos = s.stPos := rfl
@[simp] theorem State.commandDone_icm (f : OutFrame) (a : Nat) (i : Byte) : (s.commandDone f a i).icm = s.icm := rfl
@[simp] theorem State.commandDone_pm (f : OutFrame) (a : Nat) (i : Byte) : (s.commandDone f a i).pm = s.pm := rfl
@[simp] theorem State.commandDone_fm (f : OutFrame) (a : Nat) (i : Byte) : (s.commandDone f a i).fm = s.fm := rfl
@[simp] theorem State.commandDone_templates (f : OutFrame) (a : Nat) (i : Byte) :
    (s.commandDone f a i).templates = s.templates := rfl
@[simp] theorem State.commandDone_base (f : OutFrame) (a : Nat) (i : Byte) :
    (s.commandDone f a i).base = s.base := rfl
@[simp] theorem State.commandDone_pal (f : OutFrame) (a : Nat) (i : Byte) : (s.commandDone f a i).pal = s.pal := rfl
@[simp] theorem State.commandDone_pset (f : OutFrame) (a : Nat) (i : Byte) :
    (s.commandDone f a i).pset = s.pset := rfl
@[simp] theorem State.commandDone_out (f : OutFrame) (a : Nat) (i : Byte) :
    (s.commandDone f a i).out = some { f with pix := Memory.write f.pix a i } := rfl
@[simp] theorem State.commandDone_log (f : OutFrame) (a : Nat) (i : Byte) : (s.commandDone f a i).log = s.log := rfl
@[simp] theorem State.commandDone_pending (f : OutFrame) (a : Nat) (i : Byte) :
    (s.commandDone f a i).pending = s.pending := rfl
@[simp] theorem State.commandDone_readData (f : OutFrame) (a : Nat) (i : Byte) :
    (s.commandDone f a i).readData = s.readData := rfl
@[simp] theorem State.commandDone_draws (f : OutFrame) (a : Nat) (i : Byte) :
    (s.commandDone f a i).draws = s.draws := rfl

/-! ### `State.patchStart` -/

@[simp] theorem State.patchStart_cfg (k : Nat) (t : Template) : (s.patchStart k t).cfg = s.cfg := rfl
@[simp] theorem State.patchStart_phase (k : Nat) (t : Template) : (s.patchStart k t).phase = .patching k := rfl
@[simp] theorem State.patchStart_taps (k : Nat) (t : Template) : (s.patchStart k t).taps = [] := rfl
@[simp] theorem State.patchStart_curY (k : Nat) (t : Template) : (s.patchStart k t).curY = 0 := rfl
@[simp] theorem State.patchStart_curK (k : Nat) (t : Template) : (s.patchStart k t).curK = 0 := rfl
@[simp] theorem State.patchStart_status (k : Nat) (t : Template) : (s.patchStart k t).status = s.status := rfl
@[simp] theorem State.patchStart_result (k : Nat) (t : Template) : (s.patchStart k t).result = s.result := rfl
@[simp] theorem State.patchStart_resultValid (k : Nat) (t : Template) :
    (s.patchStart k t).resultValid = s.resultValid := rfl
@[simp] theorem State.patchStart_arg0 (k : Nat) (t : Template) : (s.patchStart k t).arg0 = s.arg0 := rfl
@[simp] theorem State.patchStart_arg1 (k : Nat) (t : Template) : (s.patchStart k t).arg1 = s.arg1 := rfl
@[simp] theorem State.patchStart_arg2 (k : Nat) (t : Template) : (s.patchStart k t).arg2 = s.arg2 := rfl
@[simp] theorem State.patchStart_arg3 (k : Nat) (t : Template) : (s.patchStart k t).arg3 = s.arg3 := rfl
@[simp] theorem State.patchStart_srcPresent (k : Nat) (t : Template) :
    (s.patchStart k t).srcPresent = s.srcPresent := rfl
@[simp] theorem State.patchStart_psetLen (k : Nat) (t : Template) : (s.patchStart k t).psetLen = s.psetLen := rfl
@[simp] theorem State.patchStart_palLen (k : Nat) (t : Template) : (s.patchStart k t).palLen = s.palLen := rfl
@[simp] theorem State.patchStart_icmState (k : Nat) (t : Template) : (s.patchStart k t).icmState = s.icmState := rfl
@[simp] theorem State.patchStart_icmCount (k : Nat) (t : Template) : (s.patchStart k t).icmCount = s.icmCount := rfl
@[simp] theorem State.patchStart_pmState (k : Nat) (t : Template) : (s.patchStart k t).pmState = s.pmState := rfl
@[simp] theorem State.patchStart_fmState (k : Nat) (t : Template) : (s.patchStart k t).fmState = s.fmState := rfl
@[simp] theorem State.patchStart_stState (k : Nat) (t : Template) : (s.patchStart k t).stState = s.stState := rfl
@[simp] theorem State.patchStart_icmPos (k : Nat) (t : Template) : (s.patchStart k t).icmPos = s.icmPos := rfl
@[simp] theorem State.patchStart_pmPos (k : Nat) (t : Template) : (s.patchStart k t).pmPos = s.pmPos := rfl
@[simp] theorem State.patchStart_fmPos (k : Nat) (t : Template) : (s.patchStart k t).fmPos = s.fmPos := rfl
@[simp] theorem State.patchStart_stPos (k : Nat) (t : Template) : (s.patchStart k t).stPos = s.stPos := rfl
@[simp] theorem State.patchStart_icm (k : Nat) (t : Template) : (s.patchStart k t).icm = s.icm := rfl
@[simp] theorem State.patchStart_pm (k : Nat) (t : Template) : (s.patchStart k t).pm = s.pm := rfl
@[simp] theorem State.patchStart_fm (k : Nat) (t : Template) : (s.patchStart k t).fm = s.fm := rfl
@[simp] theorem State.patchStart_templates (k : Nat) (t : Template) :
    (s.patchStart k t).templates = s.templates := rfl
@[simp] theorem State.patchStart_base (k : Nat) (t : Template) : (s.patchStart k t).base = s.base := rfl
@[simp] theorem State.patchStart_pal (k : Nat) (t : Template) : (s.patchStart k t).pal = s.pal := rfl
@[simp] theorem State.patchStart_pset (k : Nat) (t : Template) : (s.patchStart k t).pset = s.pset := rfl
@[simp] theorem State.patchStart_out (k : Nat) (t : Template) : (s.patchStart k t).out = some (setupFrame t) := rfl
@[simp] theorem State.patchStart_log (k : Nat) (t : Template) : (s.patchStart k t).log = s.log := rfl
@[simp] theorem State.patchStart_pending (k : Nat) (t : Template) : (s.patchStart k t).pending = s.pending := rfl
@[simp] theorem State.patchStart_readData (k : Nat) (t : Template) : (s.patchStart k t).readData = s.readData := rfl
@[simp] theorem State.patchStart_draws (k : Nat) (t : Template) : (s.patchStart k t).draws = s.draws := rfl

/-! ### `State.nextRow` -/

@[simp] theorem State.nextRow_cfg (h : Word) : (s.nextRow h).cfg = s.cfg := rfl
@[simp] theorem State.nextRow_phase (h : Word) : (s.nextRow h).phase = s.phase := rfl
@[simp] theorem State.nextRow_taps (h : Word) : (s.nextRow h).taps = s.taps := rfl
@[simp] theorem State.nextRow_curY (h : Word) : (s.nextRow h).curY = s.curY + 1 := rfl
@[simp] theorem State.nextRow_curK (h : Word) :
    (s.nextRow h).curK = if (s.curY + 1).toNat < h.toNat then 0 else s.curK := rfl
@[simp] theorem State.nextRow_status (h : Word) : (s.nextRow h).status = s.status := rfl
@[simp] theorem State.nextRow_result (h : Word) : (s.nextRow h).result = s.result := rfl
@[simp] theorem State.nextRow_resultValid (h : Word) : (s.nextRow h).resultValid = s.resultValid := rfl
@[simp] theorem State.nextRow_arg0 (h : Word) : (s.nextRow h).arg0 = s.arg0 := rfl
@[simp] theorem State.nextRow_arg1 (h : Word) : (s.nextRow h).arg1 = s.arg1 := rfl
@[simp] theorem State.nextRow_arg2 (h : Word) : (s.nextRow h).arg2 = s.arg2 := rfl
@[simp] theorem State.nextRow_arg3 (h : Word) : (s.nextRow h).arg3 = s.arg3 := rfl
@[simp] theorem State.nextRow_srcPresent (h : Word) : (s.nextRow h).srcPresent = s.srcPresent := rfl
@[simp] theorem State.nextRow_psetLen (h : Word) : (s.nextRow h).psetLen = s.psetLen := rfl
@[simp] theorem State.nextRow_palLen (h : Word) : (s.nextRow h).palLen = s.palLen := rfl
@[simp] theorem State.nextRow_icmState (h : Word) : (s.nextRow h).icmState = s.icmState := rfl
@[simp] theorem State.nextRow_icmCount (h : Word) : (s.nextRow h).icmCount = s.icmCount := rfl
@[simp] theorem State.nextRow_pmState (h : Word) : (s.nextRow h).pmState = s.pmState := rfl
@[simp] theorem State.nextRow_fmState (h : Word) : (s.nextRow h).fmState = s.fmState := rfl
@[simp] theorem State.nextRow_stState (h : Word) : (s.nextRow h).stState = s.stState := rfl
@[simp] theorem State.nextRow_icmPos (h : Word) : (s.nextRow h).icmPos = s.icmPos := rfl
@[simp] theorem State.nextRow_pmPos (h : Word) : (s.nextRow h).pmPos = s.pmPos := rfl
@[simp] theorem State.nextRow_fmPos (h : Word) : (s.nextRow h).fmPos = s.fmPos := rfl
@[simp] theorem State.nextRow_stPos (h : Word) : (s.nextRow h).stPos = s.stPos := rfl
@[simp] theorem State.nextRow_icm (h : Word) : (s.nextRow h).icm = s.icm := rfl
@[simp] theorem State.nextRow_pm (h : Word) : (s.nextRow h).pm = s.pm := rfl
@[simp] theorem State.nextRow_fm (h : Word) : (s.nextRow h).fm = s.fm := rfl
@[simp] theorem State.nextRow_templates (h : Word) : (s.nextRow h).templates = s.templates := rfl
@[simp] theorem State.nextRow_base (h : Word) : (s.nextRow h).base = s.base := rfl
@[simp] theorem State.nextRow_pal (h : Word) : (s.nextRow h).pal = s.pal := rfl
@[simp] theorem State.nextRow_pset (h : Word) : (s.nextRow h).pset = s.pset := rfl
@[simp] theorem State.nextRow_out (h : Word) : (s.nextRow h).out = s.out := rfl
@[simp] theorem State.nextRow_log (h : Word) : (s.nextRow h).log = s.log := rfl
@[simp] theorem State.nextRow_pending (h : Word) : (s.nextRow h).pending = s.pending := rfl
@[simp] theorem State.nextRow_readData (h : Word) : (s.nextRow h).readData = s.readData := rfl
@[simp] theorem State.nextRow_draws (h : Word) : (s.nextRow h).draws = s.draws := rfl

end Sys2Proof.Machine
end

