-- ==== Sys2Proof/Laws/Operands.lean ====
section
/-! SUPPORT. What the shared operand forms and the shared parts of the compositor can do, said once each. -/

namespace Sys2Proof.Machine

variable {s : State}

/-- Whether a count exceeds a capacity. -/
theorem exceeds_some (n m : Nat) : exceeds n (some m) = decide (m < n) := rfl

@[simp] theorem exceeds_none (n : Nat) : exceeds n none = false := rfl

/-- `chk` answers a cause in the order of 41_pattern_mask.md rule R150, and none when all three tests pass. -/
theorem maskCause_eq_none : s.maskCause = none ↔
    s.pmState ≠ 0 ∧ s.arg0.toNat < 40 ∧ s.arg1.toNat < 4096 := by
  unfold State.maskCause
  split_ifs <;> simp_all

/-- The pattern list passes its checks exactly when it is not too long and every id names a mask. -/
theorem patternCause_eq_none : s.patternCause = none ↔
    exceeds s.psetLen.toNat s.cfg.psetMax = false ∧ ∀ id ∈ s.patternList, id.toNat < 40 := by
  unfold State.patternCause
  split_ifs with h
  · simp [h]
  · simp [h, List.find?_eq_none]

/-- `PM_GETICM` passes its checks exactly under 41_pattern_mask.md rule R167's conditions. -/
theorem getIcmCause_eq_none : s.getIcmCause = none ↔
    s.arg0.toNat < 16 ∧ exceeds s.psetLen.toNat s.cfg.psetMax = false ∧
      (∀ id ∈ s.patternList, id.toNat < 40) ∧ (s.psetLen ≠ 0 → s.pmState ≠ 0) := by
  unfold State.getIcmCause
  split
  case isTrue h => simp only [reduceCtorEq, false_iff]; omega
  case isFalse h =>
    cases hp : s.patternCause with
    | some e =>
      simp only [reduceCtorEq, false_iff]
      intro ⟨_, h1, h2, _⟩
      simp [patternCause_eq_none.mpr ⟨h1, h2⟩] at hp
    | none =>
      have ⟨h1, h2⟩ := patternCause_eq_none.mp hp
      simp only [h1, true_and]
      by_cases h3 : s.psetLen ≠ 0 ∧ s.pmState = 0
      · rw [if_pos h3]
        simp only [reduceCtorEq, false_iff]
        exact fun h => h.2.2 h3.1 h3.2
      · rw [if_neg h3]
        simp only [true_iff]
        exact ⟨by omega, h2, fun h4 h5 => h3 ⟨h4, h5⟩⟩

/-- `ST_PATCH` passes its `Precheck` exactly under 43_slope_template.md rule R241's conditions. -/
theorem patchCause_eq_none : s.patchCause = none ↔
    s.srcPresent ≠ 0 ∧ s.fmState ≠ 0 ∧ s.arg0.toNat < 17 ∧
      exceeds s.psetLen.toNat s.cfg.psetMax = false ∧ (∀ id ∈ s.patternList, id.toNat < 40) ∧
      s.stState = 1 ∧ (s.psetLen ≠ 0 → s.pmState ≠ 0) := by
  unfold State.patchCause
  split
  case isTrue h => simp [h]
  case isFalse h =>
    split
    case isTrue h' => simp [h']
    case isFalse h' =>
      split
      case isTrue h'' => simp only [reduceCtorEq, false_iff]; omega
      case isFalse h'' =>
        cases hp : s.patternCause with
        | some e =>
          simp only [reduceCtorEq, false_iff]
          intro ⟨_, _, _, h1, h2, _⟩
          simp [patternCause_eq_none.mpr ⟨h1, h2⟩] at hp
        | none =>
          have ⟨h1, h2⟩ := patternCause_eq_none.mp hp
          dsimp only
          split
          case isTrue h3 =>
            simp only [reduceCtorEq, false_iff]
            exact fun h => h3 h.2.2.2.2.2.1
          case isFalse h3 =>
            split
            case isTrue h4 =>
              simp only [reduceCtorEq, false_iff]
              exact fun h => h.2.2.2.2.2.2 h4.1 h4.2
            case isFalse h4 =>
              simp only [true_iff]
              exact ⟨h, h', by omega, h1, h2, not_not.mp h3, fun h5 h6 => h4 ⟨h5, h6⟩⟩

/-- `getIcm` changes the log and nothing else. -/
theorem getIcm_fst (s : State) (light : Nat) (ids : List Byte) :
    ∃ recs, (s.getIcm light ids).1 = { s with log := s.log ++ recs } := by
  cases ids with
  | nil => exact ⟨[], by simp [State.getIcm]⟩
  | cons p ps =>
    simp only [State.getIcm]
    split_ifs
    · exact ⟨_, rfl⟩
    · exact ⟨[], by simp⟩

/-- `paletteIndex` raises only `IcmAbsentFault`, and only for a cube that is not held. -/
theorem paletteIndex_eq_ok {c : Word} {col : Rgb} {v : Byte} :
    s.paletteIndex c col = .ok v ↔ c.toNat < s.icmCount.toNat ∧
      byteAt .icm s.icm (c.toNat * 32768 + (cubeAddress col).toNat) = v := by
  unfold State.paletteIndex
  split_ifs with h
  · simp only [false_iff]; omega
  · rw [Except.ok.injEq, and_iff_right (not_le.mp h)]

/-- A fetch succeeds exactly for a pixel of the base frame. -/
theorem fetchSrc_eq_ok {y : Nat} {si : BitVec 15} {p : Byte} :
    s.fetchSrc y si = .ok p ↔ y < s.baseHeight.toNat ∧ si.toNat < s.baseWidth.toNat ∧
      byteAt .basePix s.base.pix (y * s.baseWidth.toNat + si.toNat) = p := by
  unfold State.fetchSrc
  split_ifs with h
  · simp only [false_iff]; omega
  · simp only [Except.ok.injEq]
    rw [not_or, not_le, not_le] at h
    simp [h]

/-- A destination exists exactly inside the output plane, and its address lies in the plane. -/
theorem destAddress_eq_ok {f : OutFrame} {y k a : Nat} :
    destAddress f y k = .ok a ↔ y < f.height.toNat ∧
      (f.left.getD y (Config.undefEdge y)).toNat + k < f.width.toNat ∧
      a = y * f.width.toNat + ((f.left.getD y (Config.undefEdge y)).toNat + k) := by
  unfold destAddress
  dsimp only
  split_ifs with h h'
  · simp only [false_iff]; omega
  · simp only [false_iff]; omega
  · rw [Except.ok.injEq]
    refine ⟨fun he => ⟨by omega, by omega, he.symm⟩, fun ⟨_, _, he⟩ => he.symm⟩

/-- One channel of the decided body, as a number. -/
theorem blendLane_toNat (taps : List Tap) (channel : Rgb → Byte) :
    (blendLane taps channel).toNat =
      min 255 ((taps.map fun t => t.alpha.toNat * (channel t.rgb).toNat).sum / 256) := by
  rw [blendLane, BitVec.toNat_ofNat, Nat.shiftRight_eq_div_pow]
  omega

/-- `BLEND_FN` at its decided default. -/
theorem blendFn_decided {c : Config} (h : c.blendBody = .decided) (taps : List Tap) :
    blendFn c taps = weightedBlend taps := by rw [blendFn, h]

/-- `BLEND_FN` replaced: the value given for the list, or the open value. -/
theorem blendFn_replaced {c : Config} {values : List (List Tap × Rgb)} (h : c.blendBody = .replaced values)
    (taps : List Tap) : blendFn c taps = (values.lookup taps).getD (Config.openBlend taps) := by rw [blendFn, h]

/-- What a composite answers: a fault of the command, which ends the `ST_PATCH`; the command done; or the model's own
stop where there is no output frame. The log may have grown first. -/
theorem composite_cases (s : State) (light : BitVec 4) :
    (∃ recs c i, s.composite light = .next (({ s with log := s.log ++ recs } : State).patchFail c i)) ∨
    (∃ recs f a i, s.out = some f ∧ destAddress f s.curY.toNat s.curK.toNat = .ok a ∧
      s.composite light = .next (({ s with log := s.log ++ recs } : State).commandDone f a i)) ∨
    (s.out = none ∧ s.composite light = .fault .undefStore) := by
  obtain ⟨recs, hrec⟩ := getIcm_fst s light.toNat s.patternList
  simp only [State.composite, hrec]
  split
  case h_1 c i _ => exact .inl ⟨recs, c, i, rfl⟩
  case h_2 idx _ =>
    cases ho : s.out with
    | none => exact .inr (.inr ⟨rfl, rfl⟩)
    | some f =>
      dsimp only
      cases hd : destAddress f s.curY.toNat s.curK.toNat with
      | error e => exact .inl ⟨recs, e.1, e.2, by simp⟩
      | ok a => exact .inr (.inl ⟨recs, f, a, idx, rfl, hd, by simp⟩)

end Sys2Proof.Machine
end

