-- ==== Sys2Proof/Laws/Stream.lean ====
section
/-! SUPPORT. What the stream primitives do (20_memory.md section 3), and the one induction over `repeatRd` from which
every loader's facts follow. -/

namespace Sys2Proof.Machine

variable {α β : Type}

@[simp] theorem Rd.bind_ok (v : α) (pos : Nat) (f : α → Nat → Rd β) :
    (Rd.ok v pos).bind f = f v pos := rfl

@[simp] theorem Rd.bind_fail (c : Code) (i pos : Nat) (f : α → Nat → Rd β) :
    (Rd.fail c i pos).bind f = .fail c i pos := rfl

/-- A composite reader succeeds exactly when both parts do. -/
theorem Rd.bind_eq_ok {r : Rd α} {f : α → Nat → Rd β} {y : β} {q : Nat} :
    r.bind f = .ok y q ↔ ∃ x p, r = .ok x p ∧ f x p = .ok y q := by
  cases r <;> simp

/-- A composite reader fails exactly when its first part does, or its second does after it. -/
theorem Rd.bind_eq_fail {r : Rd α} {f : α → Nat → Rd β} {c : Code} {i q : Nat} :
    r.bind f = .fail c i q ↔ r = .fail c i q ∨ ∃ x p, r = .ok x p ∧ f x p = .fail c i q := by
  cases r <;> simp

/-- `StrU8`: the byte at the position, or `IOError` with the position unchanged. -/
theorem strU8_eq (b : List Byte) (pos : Nat) :
    strU8 b pos = match b[pos]? with
      | some x => .ok x (pos + 1)
      | none => .fail .ioError pos pos := by
  have h : b[pos]? = (b.drop pos)[0]? := by simp
  rw [strU8, h]
  cases b.drop pos <;> rfl

theorem strU16_of_bytes {b : List Byte} {pos : Nat} {x y : Byte} (hx : b[pos]? = some x)
    (hy : b[pos + 1]? = some y) : strU16 b pos = .ok (le16 x y) (pos + 2) := by
  have h : b.drop pos = x :: y :: b.drop (pos + 2) := by
    obtain ⟨h0, rfl⟩ := List.getElem?_eq_some_iff.mp hx
    obtain ⟨h1, rfl⟩ := List.getElem?_eq_some_iff.mp hy
    rw [List.drop_eq_getElem_cons h0, List.drop_eq_getElem_cons h1]
  rw [strU16, h]

theorem strU32_of_bytes {b : List Byte} {pos : Nat} {x y z w : Byte} (hx : b[pos]? = some x)
    (hy : b[pos + 1]? = some y) (hz : b[pos + 2]? = some z) (hw : b[pos + 3]? = some w) :
    strU32 b pos = .ok (le32 x y z w) (pos + 4) := by
  have h : b.drop pos = x :: y :: z :: w :: b.drop (pos + 4) := by
    obtain ⟨h0, rfl⟩ := List.getElem?_eq_some_iff.mp hx
    obtain ⟨h1, rfl⟩ := List.getElem?_eq_some_iff.mp hy
    obtain ⟨h2, rfl⟩ := List.getElem?_eq_some_iff.mp hz
    obtain ⟨h3, rfl⟩ := List.getElem?_eq_some_iff.mp hw
    rw [List.drop_eq_getElem_cons h0, List.drop_eq_getElem_cons h1, List.drop_eq_getElem_cons h2,
      List.drop_eq_getElem_cons h3]
  rw [strU32, h]

/-- How a reader may move in a stream of length `len`: from a position in it to a position in it, whether it
succeeds or fails; what it reads has the property `P`. -/
def Rd.Within (len : Nat) (P : α → Prop) : Rd α → Prop
  | .ok x pos => P x ∧ pos ≤ len
  | .fail _ _ pos => pos ≤ len

/-- A composite reader stays within the stream when its parts do. -/
theorem Rd.Within.bind {len : Nat} {P : α → Prop} {Q : β → Prop} {r : Rd α} {f : α → Nat → Rd β}
    (hr : r.Within len P) (hf : ∀ x p, P x → p ≤ len → (f x p).Within len Q) :
    (r.bind f).Within len Q := by
  cases r with
  | ok x p => exact hf x p hr.1 hr.2
  | fail => exact hr

theorem strU8_within (b : List Byte) (pos : Nat) (h : pos ≤ b.length) :
    (strU8 b pos).Within b.length fun _ => True := by
  have hl : (b.drop pos).length = b.length - pos := List.length_drop
  unfold strU8
  split
  case h_1 heq => rw [heq, List.length_cons] at hl; exact ⟨trivial, by omega⟩
  case h_2 => exact h

theorem strU16_within (b : List Byte) (pos : Nat) (h : pos ≤ b.length) :
    (strU16 b pos).Within b.length fun _ => True := by
  have hl : (b.drop pos).length = b.length - pos := List.length_drop
  unfold strU16
  split
  case h_1 heq => rw [heq, List.length_cons, List.length_cons] at hl; exact ⟨trivial, by omega⟩
  case h_2 => exact h

theorem strU32_within (b : List Byte) (pos : Nat) (h : pos ≤ b.length) :
    (strU32 b pos).Within b.length fun _ => True := by
  have hl : (b.drop pos).length = b.length - pos := List.length_drop
  unfold strU32
  split
  case h_1 heq => rw [heq] at hl; simp only [List.length_cons] at hl; exact ⟨trivial, by omega⟩
  case h_2 => exact h

theorem strBytes_within (b : List Byte) (n pos : Nat) (h : pos ≤ b.length) :
    (strBytes b n pos).Within b.length fun x => x.length = n := by
  unfold strBytes
  split
  case isTrue hn =>
    have hl : ((b.drop pos).take n).length = n := by
      rw [List.length_take, List.length_drop]
      omega
    exact ⟨hl, hn⟩
  case isFalse => exact h

theorem strSeek_within (b : List Byte) (target pos : Nat) (h : pos ≤ b.length) :
    (strSeek b target pos).Within b.length fun _ => target ≤ b.length := by
  unfold strSeek
  split
  case isTrue ht => exact ⟨ht, ht⟩
  case isFalse => exact h

/-- The induction over `repeatRd`: if each reader stays within the stream and reads values with `P`, so does the
whole, and it reads `n` of them. -/
theorem repeatRd_within {len : Nat} {P : α → Prop} (f : Nat → Nat → Rd α)
    (hf : ∀ j p, p ≤ len → (f j p).Within len P) (n j pos : Nat) (h : pos ≤ len) :
    (repeatRd f n j pos).Within len fun xs => xs.length = n ∧ ∀ x ∈ xs, P x := by
  induction n generalizing j pos with
  | zero => exact ⟨⟨rfl, by simp⟩, h⟩
  | succ n ih =>
    refine Rd.Within.bind (hf j pos h) fun x p hx hp => ?_
    refine Rd.Within.bind (ih (j + 1) p hp) fun xs q hxs hq => ?_
    refine ⟨⟨by simp [hxs.1], fun y hy => ?_⟩, hq⟩
    rcases List.mem_cons.mp hy with rfl | hy
    · exact hx
    · exact hxs.2 y hy

/-- `repeatRd` over readers whose values and positions are known: the elements of `xs` are read one after
another, element `i` from position `at_ i` to `at_ (i + 1)`. -/
theorem repeatRd_of_get {f : Nat → Nat → Rd α} {at_ : Nat → Nat} (xs : List α) (j : Nat)
    (hf : ∀ i x, xs[i]? = some x → f (j + i) (at_ i) = .ok x (at_ (i + 1))) :
    repeatRd f xs.length j (at_ 0) = .ok xs (at_ xs.length) := by
  induction xs generalizing j at_ with
  | nil => rfl
  | cons x xs ih =>
    have h0 : f j (at_ 0) = .ok x (at_ 1) := by simpa using hf 0 x rfl
    have ih := ih (at_ := fun i => at_ (i + 1)) (j + 1) fun i y hy => by
      rw [show j + 1 + i = j + (i + 1) by omega]
      exact hf (i + 1) y (by simpa using hy)
    simp only [Nat.zero_add] at ih
    simp [repeatRd, h0, ih]

/-! ### The loaders' readers -/

theorem readSrc_within (b : List Byte) (pos : Nat) (h : pos ≤ b.length) :
    (readSrc b pos).Within b.length fun _ => True := by
  refine Rd.Within.bind (P := fun _ => True) ?_ fun v p _ hp => ⟨trivial, hp⟩
  refine Rd.Within.bind (strU8_within b pos h) fun b0 p _ hp => ?_
  exact Rd.Within.bind (strU16_within b p hp) fun v q _ hq => ⟨trivial, hq⟩

/-- A command read from a stream is well formed. -/
theorem readCmd_within (b : List Byte) (pos : Nat) (h : pos ≤ b.length) :
    (readCmd b pos).Within b.length FilterCmd.WellFormed := by
  refine Rd.Within.bind (strU8_within b pos h) fun hd p _ hp => ?_
  refine Rd.Within.bind (repeatRd_within _ (fun _ q hq => readSrc_within b q hq) _ 0 p hp) ?_
  exact fun src q hs hq => ⟨hs.1, hq⟩

theorem readRow_within (c : Config) (s pos : Nat) (h : pos ≤ c.fmStream.length) :
    (readRow c s pos).Within c.fmStream.length FilterRow.WellFormed := by
  refine Rd.Within.bind (strU16_within _ pos h) fun w p _ hp => ?_
  split
  case isTrue => exact hp
  case isFalse =>
    refine Rd.Within.bind (repeatRd_within _ (fun _ q hq => readCmd_within _ q hq) _ 0 p hp) ?_
    exact fun cmds q hs hq => ⟨hs, hq⟩

theorem readFiltermap_within (c : Config) (s pos : Nat) (h : pos ≤ c.fmStream.length) :
    (readFiltermap c s pos).Within c.fmStream.length Filtermap.WellFormed := by
  refine Rd.Within.bind (strU32_within _ pos h) fun size p _ hp => ?_
  refine Rd.Within.bind (strU32_within _ p hp) fun height p _ hp => ?_
  split
  case isTrue => exact hp
  case isFalse =>
    refine Rd.Within.bind (repeatRd_within _ (fun _ q hq => readRow_within c s q hq) _ 0 p hp) ?_
    exact fun rows q hs hq => ⟨hs, hq⟩

theorem readHeader_within (c : Config) (s pos : Nat) (h : pos ≤ c.stStream.length) :
    (readHeader c s pos).Within c.stStream.length fun _ => True := by
  refine Rd.Within.bind (strU32_within _ pos h) fun _ p0 _ hp => ?_
  refine Rd.Within.bind (strU32_within _ p0 hp) fun _ p _ hp => ?_
  refine Rd.Within.bind (strU32_within _ p hp) fun _ p _ hp => ?_
  refine Rd.Within.bind (strU32_within _ p hp) fun _ p _ hp => ?_
  refine Rd.Within.bind (strU32_within _ p hp) fun _ p _ hp => ?_
  refine Rd.Within.bind (strU32_within _ p hp) fun _ p _ hp => ?_
  refine Rd.Within.bind (strU32_within _ p hp) fun _ p _ hp => ?_
  refine Rd.Within.bind (strU32_within _ p hp) fun _ p _ hp => ?_
  split
  case isTrue => exact hp
  case isFalse => exact Rd.Within.bind (strSeek_within _ _ p hp) fun _ q _ hq => ⟨trivial, hq⟩

/-- What pass 2 leaves of one slot: row arrays of the header's height, and offsets that are positions. -/
def TemplateRead (len : Nat) (t : Template) : Prop :=
  t.hdr.outlineOff ≤ len ∧ t.hdr.cmdOff ≤ len ∧ t.left.length = t.hdr.height.toNat ∧
    t.right.length = t.hdr.height.toNat ∧ t.cmdOffRow.length = t.hdr.height.toNat

theorem readTables_within (b : List Byte) (h : Header) (pos : Nat) (hpos : pos ≤ b.length) :
    (readTables b h pos).Within b.length (TemplateRead b.length) := by
  refine Rd.Within.bind (strSeek_within b _ pos hpos) fun _ p ho hp => ?_
  have hedge : ∀ (j p : Nat), p ≤ b.length → (readEdges b p).Within b.length fun _ => True := by
    intro _ p hp
    refine Rd.Within.bind (strU16_within b p hp) fun _ q _ hq => ?_
    exact Rd.Within.bind (strU16_within b q hq) fun _ q' _ hq' => ⟨trivial, hq'⟩
  refine Rd.Within.bind (repeatRd_within _ hedge _ 0 p hp) fun edges p he hp => ?_
  refine Rd.Within.bind (strSeek_within b _ p hp) fun _ p hc hp => ?_
  refine Rd.Within.bind (repeatRd_within _ (fun _ q hq => strU32_within b q hq) _ 0 p hp) ?_
  exact fun offs q hs hq => ⟨⟨ho, hc, by simp [he.1], by simp [he.1], hs.1⟩, hq⟩

theorem readAllTables_within (b : List Byte) (hs : List Header) (pos : Nat) (hpos : pos ≤ b.length) :
    (readAllTables b hs pos).Within b.length fun ts =>
      ts.length = hs.length ∧ ∀ t ∈ ts, TemplateRead b.length t := by
  induction hs generalizing pos with
  | nil => exact ⟨⟨rfl, by simp⟩, hpos⟩
  | cons h hs ih =>
    refine Rd.Within.bind (readTables_within b h pos hpos) fun t p ht hp => ?_
    refine Rd.Within.bind (ih p hp) fun ts q hts hq => ?_
    refine ⟨⟨by simp [hts.1], fun u hu => ?_⟩, hq⟩
    rcases List.mem_cons.mp hu with rfl | hu
    · exact ht
    · exact hts.2 u hu

/-- What `ST_LOAD`'s reader answers: seventeen templates, or an error, within the stream. -/
theorem readTemplates_within (c : Config) :
    (readTemplates c).Within c.stStream.length fun ts =>
      ts.length = 17 ∧ ∀ t ∈ ts, TemplateRead c.stStream.length t := by
  refine Rd.Within.bind
    (repeatRd_within _ (fun s p hp => readHeader_within c s p hp) 17 0 0 (Nat.zero_le _)) ?_
  intro hs p hhs hp
  have h := readAllTables_within c.stStream hs p hp
  rwa [hhs.1] at h

/-- What `FM_LOAD`'s reader answers: a well-formed FM store, or an error, within the stream. -/
theorem readFilterStore_within (c : Config) :
    (repeatRd (readFiltermap c) 17 0 0).Within c.fmStream.length FilterStore.WellFormed :=
  repeatRd_within _ (fun s p hp => readFiltermap_within c s p hp) 17 0 0 (Nat.zero_le _)

/-- What `PM_LOAD`'s reader answers: 40 masks of 4096 bytes, or an error, within the stream. -/
theorem pmMasks_within (b : List Byte) :
    (pmMasks b).Within b.length fun ms => ms.length = 40 ∧ ∀ m ∈ ms, m.length = 4096 := by
  refine repeatRd_within _ (fun id p hp => ?_) 40 0 0 (Nat.zero_le _)
  refine Rd.Within.bind (strU32_within b p hp) fun len q _ hq => ?_
  split
  case isTrue => exact strBytes_within b 4096 q hq
  case isFalse => exact hq

/-- What `ICM_LOAD`'s loop answers from a position in the stream: whole cubes, as many as the capacity allows, up
to the end of the stream, or an error within the stream. -/
theorem icmCubes_within (b : List Byte) (mx : Option Nat) (fuel n pos : Nat) (h : pos ≤ b.length)
    (hn : exceeds n mx = false) :
    (icmCubes b mx fuel n pos).Within b.length fun bytes =>
      ∃ k, bytes.length = k * 32768 ∧ exceeds (n + k) mx = false := by
  induction fuel generalizing n pos with
  | zero => exact ⟨⟨0, by simp, hn⟩, h⟩
  | succ fuel ih =>
    unfold icmCubes
    split
    case isTrue => exact ⟨⟨0, by simp, hn⟩, h⟩
    case isFalse =>
      split
      case isTrue => exact h
      case isFalse =>
        split
        case isTrue => exact h
        case isFalse hx =>
          refine Rd.Within.bind (strBytes_within b 32768 pos h) fun cube p hc hp => ?_
          refine Rd.Within.bind (ih (n + 1) p hp (by simpa using hx)) fun rest q hr hq => ?_
          obtain ⟨k, hk, hkx⟩ := hr
          refine ⟨⟨k + 1, by simp [hc, hk]; omega, ?_⟩, hq⟩
          rwa [show n + (k + 1) = n + 1 + k by omega]

end Sys2Proof.Machine
end

