-- ==== Sys2Proof/Laws/Exec.lean ====
section
/-! SUPPORT. One inversion lemma per instruction or group of one shape: if it answers a next state, then one of these
cases holds. Later proofs cite these and unfold no meaning. -/

namespace Sys2Proof.Machine

variable {s t : State}

/-- A one-bit register is 0 or 1. -/
theorem bit_cases (b : BitVec 1) : b = 0 ∨ b = 1 := by
  rcases b with ⟨⟨v, hv⟩⟩
  interval_cases v
  · exact .inl rfl
  · exact .inr rfl

/-- `StrBytes` in full. -/
theorem strBytes_eq_ok {b x : List Byte} {n pos q : Nat} :
    strBytes b n pos = .ok x q ↔ pos + n ≤ b.length ∧ x = (b.drop pos).take n ∧ q = pos + n := by
  unfold strBytes
  split_ifs with h
  · simp only [h, true_and, Rd.ok.injEq, eq_comm]
  · simp [h]

/-- The loop of `ICM_LOAD` consumes exactly the bytes it answers, in order. -/
theorem icmCubes_eq_ok {b bytes : List Byte} {mx : Option Nat} {fuel n pos q : Nat}
    (h : icmCubes b mx fuel n pos = .ok bytes q) :
    q = pos + bytes.length ∧ bytes = (b.drop pos).take bytes.length := by
  induction fuel generalizing n pos bytes q with
  | zero =>
    simp only [icmCubes, Rd.ok.injEq] at h
    obtain ⟨rfl, rfl⟩ := h
    simp
  | succ fuel ih =>
    unfold icmCubes at h
    split at h
    · simp only [Rd.ok.injEq] at h
      obtain ⟨rfl, rfl⟩ := h
      simp
    · split at h
      · simp at h
      · split at h
        · simp at h
        · obtain ⟨cube, p, hc, h⟩ := Rd.bind_eq_ok.mp h
          obtain ⟨rest, r, hr, h⟩ := Rd.bind_eq_ok.mp h
          obtain ⟨hlen, hcube, rfl⟩ := strBytes_eq_ok.mp hc
          obtain ⟨rfl, hrest⟩ := ih hr
          simp only [Rd.ok.injEq] at h
          obtain ⟨rfl, rfl⟩ := h
          have hcl : cube.length = 32768 := by
            rw [hcube, List.length_take, List.length_drop]
            omega
          refine ⟨by rw [List.length_append]; omega, ?_⟩
          rw [List.length_append, hcl, List.take_add, List.drop_drop, ← hcube, ← hrest]

/-- `ICM_LOAD`: refused when Loaded; failed, with the unit cleared; or done, with whole cubes. -/
theorem execIcmLoad_cases (h : execIcmLoad s = .next t) :
    (s.icmState = 1 ∧ t = s.raise .preconditionError 0x01) ∨
    (s.icmState = 0 ∧ ∃ c i p, p ≤ s.cfg.icmStream.length ∧ t = s.icmFail c i p) ∨
    (s.icmState = 0 ∧ ∃ bytes k, bytes.length = k * 32768 ∧
      bytes.length ≤ s.cfg.icmStream.length ∧ exceeds k s.cfg.icmMaxCubes = false ∧
      t = s.icmLoadDone k bytes bytes.length) := by
  have hw := icmCubes_within s.cfg.icmStream s.cfg.icmMaxCubes (s.cfg.icmStream.length / 32768 + 1) 0 0
    (Nat.zero_le _) (by cases s.cfg.icmMaxCubes <;> simp [exceeds])
  simp only [execIcmLoad, Host.Outcome.next.injEq] at h
  subst h
  rcases bit_cases s.icmState with h0 | h1
  · rw [if_neg (by simp [h0])]
    cases hr : icmCubes s.cfg.icmStream s.cfg.icmMaxCubes (s.cfg.icmStream.length / 32768 + 1) 0 0 with
    | fail c i p => rw [hr] at hw; exact .inr (.inl ⟨h0, c, i, p, hw, rfl⟩)
    | ok bytes p =>
      rw [hr] at hw
      obtain ⟨⟨k, hk, hx⟩, hp⟩ := hw
      obtain ⟨hpos, -⟩ := icmCubes_eq_ok hr
      simp only [Nat.zero_add] at hpos hx
      subst hpos
      refine .inr (.inr ⟨h0, bytes, k, hk, hp, hx, ?_⟩)
      have hdiv : bytes.length / 32768 = k := by omega
      dsimp only
      rw [hdiv]
  · rw [if_pos h1]
    exact .inl ⟨h1, rfl⟩

/-- `ICM_LOOKUP`: a value, or `IcmAbsentFault`. -/
theorem execIcmLookup_cases (h : execIcmLookup s = .next t) :
    (∃ c i, t = s.raise c i) ∨ ∃ v, t = s.doneWith v := by
  simp only [execIcmLookup, Host.Outcome.next.injEq] at h
  subst h
  split
  · exact .inl ⟨_, _, rfl⟩
  · exact .inr ⟨_, rfl⟩

/-- `PM_LOAD`: refused when Loaded; failed, with the unit cleared; or done, with 40 masks of 4096 bytes. -/
theorem execPmLoad_cases (h : execPmLoad s = .next t) :
    (s.pmState = 1 ∧ t = s.raise .preconditionError 0x10) ∨
    (s.pmState = 0 ∧ ∃ c i p, p ≤ s.cfg.pmStream.length ∧ t = s.pmFail c i p) ∨
    (s.pmState = 0 ∧ ∃ bytes p, bytes.length = 163840 ∧ p ≤ s.cfg.pmStream.length ∧
      t = s.pmLoadDone bytes p) := by
  have hw := pmMasks_within s.cfg.pmStream
  simp only [execPmLoad, Host.Outcome.next.injEq] at h
  subst h
  rcases bit_cases s.pmState with h0 | h1
  · rw [if_neg (by simp [h0])]
    cases hr : pmMasks s.cfg.pmStream with
    | fail c i p => rw [hr] at hw; exact .inr (.inl ⟨h0, c, i, p, hw, rfl⟩)
    | ok ms p =>
      rw [hr] at hw
      refine .inr (.inr ⟨h0, ms.flatten, p, ?_, hw.2, rfl⟩)
      have hmap : ms.map List.length = List.replicate ms.length 4096 :=
        List.eq_replicate_iff.mpr ⟨by simp, by simpa using hw.1.2⟩
      rw [List.length_flatten, hmap, List.sum_replicate, hw.1.1]
      rfl
  · rw [if_pos h1]
    exact .inl ⟨h1, rfl⟩

/-- A query of a mask: an error, or a value. -/
theorem maskQuery_cases (s : State) (f : Byte → Word) :
    (∃ c i, s.maskQuery f = s.raise c i) ∨ ∃ v, s.maskQuery f = s.doneWith v := by
  unfold State.maskQuery
  split
  · exact .inl ⟨_, _, rfl⟩
  · exact .inr ⟨_, rfl⟩

/-- `PM_GETICM`: an error, or a value, with the log grown first. -/
theorem execPmGetIcm_cases (h : execPmGetIcm s = .next t) :
    (∃ c i, t = s.raise c i) ∨
      ∃ recs v, t = ({ s with log := s.log ++ recs } : State).doneWith v := by
  obtain ⟨recs, hr⟩ := getIcm_fst s s.arg0.toNat s.patternList
  simp only [execPmGetIcm, hr, Host.Outcome.next.injEq] at h
  subst h
  split
  · exact .inl ⟨_, _, rfl⟩
  · exact .inr ⟨recs, _, rfl⟩

/-- `FM_LOAD`: refused when Loaded; failed, with the unit cleared; or done, with a well-formed store. -/
theorem execFmLoad_cases (h : execFmLoad s = .next t) :
    (s.fmState = 1 ∧ t = s.raise .preconditionError 0x20) ∨
    (s.fmState = 0 ∧ ∃ c i p, p ≤ s.cfg.fmStream.length ∧ t = s.fmFail c i p) ∨
    (s.fmState = 0 ∧ ∃ fm p, FilterStore.WellFormed fm ∧ p ≤ s.cfg.fmStream.length ∧
      t = s.fmLoadDone fm p) := by
  have hw := readFilterStore_within s.cfg
  simp only [execFmLoad, Host.Outcome.next.injEq] at h
  subst h
  rcases bit_cases s.fmState with h0 | h1
  · rw [if_neg (by simp [h0])]
    cases hr : repeatRd (readFiltermap s.cfg) 17 0 0 with
    | fail c i p => rw [hr] at hw; exact .inr (.inl ⟨h0, c, i, p, hw, rfl⟩)
    | ok fm p => rw [hr] at hw; exact .inr (.inr ⟨h0, fm, p, hw.1, hw.2, rfl⟩)
  · rw [if_pos h1]
    exact .inl ⟨h1, rfl⟩

/-- `ST_LOAD`: refused when Loaded; failed, with the unit cleared; or done, with 17 templates read. -/
theorem execStLoad_cases (h : execStLoad s = .next t) :
    (s.stState = 1 ∧ t = s.raise .preconditionError 0x30) ∨
    (s.stState ≠ 1 ∧ ∃ c i p, p ≤ s.cfg.stStream.length ∧ t = s.stFail c i p) ∨
    (s.stState ≠ 1 ∧ ∃ ts p, ts.length = 17 ∧
      (∀ x ∈ ts, TemplateRead s.cfg.stStream.length x) ∧ p ≤ s.cfg.stStream.length ∧
      t = s.stLoadDone ts p) := by
  have hw := readTemplates_within s.cfg
  simp only [execStLoad, Host.Outcome.next.injEq] at h
  subst h
  by_cases h1 : s.stState = 1
  · rw [if_pos h1]
    exact .inl ⟨h1, rfl⟩
  · rw [if_neg h1]
    cases hr : readTemplates s.cfg with
    | fail c i p => rw [hr] at hw; exact .inr (.inl ⟨h1, c, i, p, hw, rfl⟩)
    | ok ts p => rw [hr] at hw; exact .inr (.inr ⟨h1, ts, p, hw.1.1, hw.1.2, hw.2, rfl⟩)

/-- `ST_PATCH`: a failed `Precheck`, or the start of `Run` with the slope's template set up. -/
theorem execStPatch_cases (h : execStPatch s = .next t) :
    (∃ c i, s.patchCause = some (c, i) ∧ t = s.patchFail c i) ∨
    (s.patchCause = none ∧ ∃ tpl, s.templates[s.arg0.toNat]? = some tpl ∧
      t = s.patchStart s.arg0.toNat tpl) := by
  unfold execStPatch at h
  split at h
  case h_1 c i hc =>
    rw [Host.Outcome.next.injEq] at h
    exact .inl ⟨c, i, hc, h.symm⟩
  case h_2 hc =>
    split at h
    case h_1 => cases h
    case h_2 tpl ht =>
      rw [Host.Outcome.next.injEq] at h
      exact .inr ⟨hc, tpl, ht, h.symm⟩

/-- `SRCPX`: its operand appended, or a fault that ends the `ST_PATCH`. -/
theorem execSrcpx_cases {si : BitVec 15} {a : BitVec 9} (h : execSrcpx si a s = .next t) :
    (∃ slope, s.phase = .patching slope) ∧
    ((∃ c i, t = s.patchFail c i) ∨
      ∃ rgb, t = { s with taps := s.taps ++ [{ alpha := a, rgb := rgb }] }) := by
  unfold execSrcpx at h
  split at h
  case h_1 => cases h
  case h_2 slope hp =>
    refine ⟨⟨slope, hp⟩, ?_⟩
    rw [Host.Outcome.next.injEq] at h
    subst h
    split
    · exact .inl ⟨_, _, rfl⟩
    · exact .inr ⟨_, rfl⟩

/-- `BLEND`: a fault that ends the `ST_PATCH`, or the command done; the log may have grown first. -/
theorem execBlend_cases {light n : BitVec 4} (h : execBlend light n s = .next t) :
    (∃ slope, s.phase = .patching slope) ∧ s.taps.length = n.toNat ∧
    ((∃ recs c i, t = ({ s with log := s.log ++ recs } : State).patchFail c i) ∨
      ∃ recs f a i, s.out = some f ∧ destAddress f s.curY.toNat s.curK.toNat = .ok a ∧
        t = ({ s with log := s.log ++ recs } : State).commandDone f a i) := by
  unfold execBlend at h
  split at h
  case h_1 => cases h
  case h_2 slope hp =>
    split at h
    case isFalse => cases h
    case isTrue hn =>
      refine ⟨⟨slope, hp⟩, hn, ?_⟩
      rcases composite_cases s light with ⟨r, c, i, he⟩ | ⟨r, f, a, i, ho, hd, he⟩ | ⟨-, he⟩
      · rw [he, Host.Outcome.next.injEq] at h
        exact .inl ⟨r, c, i, h.symm⟩
      · rw [he, Host.Outcome.next.injEq] at h
        exact .inr ⟨r, f, a, i, ho, hd, h.symm⟩
      · rw [he] at h
        cases h

end Sys2Proof.Machine
end

