-- ==== Sys2Proof/Laws/PerInstr.lean ====
section
/-! SUPPORT. Statements about every instruction as syntax, one lemma per constructor. -/

namespace Sys2Proof.Laws

/-- The encoding of an instruction has exactly the width that 30_encoding.md rule R100 gives its format. -/
def EncodingShape.Statement (i : Instr) : Prop :=
  (encode i).length * 8 = i.format.bits

theorem EncodingShape.blend (light n : BitVec 4) : EncodingShape.Statement (.blend light n) := rfl

theorem EncodingShape.srcpx (si : BitVec 15) (a : BitVec 9) : EncodingShape.Statement (.srcpx si a) := rfl

theorem EncodingShape.icmLoad : EncodingShape.Statement .icmLoad := rfl

theorem EncodingShape.icmLookup : EncodingShape.Statement .icmLookup := rfl

theorem EncodingShape.pmLoad : EncodingShape.Statement .pmLoad := rfl

theorem EncodingShape.pmIgnore : EncodingShape.Statement .pmIgnore := rfl

theorem EncodingShape.pmBrighten : EncodingShape.Statement .pmBrighten := rfl

theorem EncodingShape.pmDarken : EncodingShape.Statement .pmDarken := rfl

theorem EncodingShape.pmApply : EncodingShape.Statement .pmApply := rfl

theorem EncodingShape.pmGetIcm : EncodingShape.Statement .pmGetIcm := rfl

theorem EncodingShape.fmLoad : EncodingShape.Statement .fmLoad := rfl

theorem EncodingShape.stLoad : EncodingShape.Statement .stLoad := rfl

theorem EncodingShape.stUnload : EncodingShape.Statement .stUnload := rfl

theorem EncodingShape.stIsLoaded : EncodingShape.Statement .stIsLoaded := rfl

theorem EncodingShape.stPatch : EncodingShape.Statement .stPatch := rfl

end Sys2Proof.Laws
end

