-- ==== Sys2Proof/Laws/Step.lean ====
section
/-! SUPPORT. Everything one step can do, said once. -/

namespace Sys2Proof.Machine

/-- Only host operations have a code. -/
theorem decodeOperation_format {c : Byte} {i : Instr} (h : decodeOperation c = some i) :
    i.format = .ho := by
  unfold decodeOperation at h
  split at h <;> simp only [Option.some.injEq, reduceCtorEq] at h <;> subst h <;> rfl

/-- What the fetched instruction of a command is: one of its operand records, or its header. -/
theorem nextOfCommand_cases {c : FilterCmd} {k : Nat} {i : Instr} (h : nextOfCommand c k = some i) :
    (∃ p, k < c.n.toNat ∧ c.src[k]? = some p ∧ i = .srcpx p.sourceIndex p.alpha) ∨
    (c.n.toNat ≤ k ∧ i = .blend c.light c.n) := by
  unfold nextOfCommand at h
  split at h
  case isTrue hk =>
    split at h
    case h_1 p hp => exact .inl ⟨p, hk, hp, (Option.some.inj h).symm⟩
    case h_2 => cases h
  case isFalse hk => exact .inr ⟨not_lt.mp hk, (Option.some.inj h).symm⟩

/-- What a fetched thing does when a step runs it. -/
def Fetched.outcome : Fetched → Host.Outcome State Fault Refusal
  | .run i s => exec i s
  | .act o => o

theorem step_eq (s : State) : step s = s.fetch.outcome := rfl

/-- A step of the idle machine takes the host's next event. -/
theorem step_idle {s : State} (hp : s.phase = .idle) : step s = s.hostControl.outcome := by
  rw [step_eq, State.fetch]
  simp only [hp]

/-- A host event other than a write to `OP` is served. -/
theorem accept_of_ne {s : State} {e : HostEvent} (he : ∀ v, e ≠ .writeReg 0 v) :
    s.accept e = .act (s.serve e) := by
  cases e with
  | writeReg i v =>
    have hi : i ≠ 0 := fun h => he v (by rw [h])
    rw [State.accept, if_neg hi]
  | _ => rfl

/-- One step with no operation in progress. -/
theorem step_idle_cases {s : State} (hp : s.phase = .idle) :
    (s.pending = [] ∧ step s = .next s) ∨
    (∃ v rest i, s.pending = .writeReg 0 v :: rest ∧ decodeOperation (BitVec.ofNat 8 v) = some i ∧
      step s = exec i { s with pending := rest }) ∨
    (∃ v rest, s.pending = .writeReg 0 v :: rest ∧ decodeOperation (BitVec.ofNat 8 v) = none ∧
      step s = .next (({ s with pending := rest } : State).illegalOperation (BitVec.ofNat 8 v))) ∨
    (∃ e rest, s.pending = e :: rest ∧ (∀ v, e ≠ .writeReg 0 v) ∧
      step s = ({ s with pending := rest } : State).serve e) := by
  rw [step_idle hp, State.hostControl]
  rcases s.pending with _ | ⟨e, rest⟩
  · exact .inl ⟨rfl, rfl⟩
  · by_cases he : ∃ v, e = .writeReg 0 v
    · obtain ⟨v, rfl⟩ := he
      cases hd : decodeOperation (BitVec.ofNat 8 v) with
      | some i =>
        exact .inr (.inl ⟨v, rest, i, rfl, hd, by simp [State.accept, State.startOperation, hd, Fetched.outcome]⟩)
      | none =>
        exact .inr (.inr (.inl ⟨v, rest, rfl, hd,
          by simp [State.accept, State.startOperation, hd, Fetched.outcome]⟩))
    · have he : ∀ v, e ≠ .writeReg 0 v := fun v hv => he ⟨v, hv⟩
      exact .inr (.inr (.inr ⟨e, rest, rfl, he, by simp only [accept_of_ne he, Fetched.outcome]⟩))

/-- One step of an `ST_PATCH`: its completion, the end of a row, an instruction of the command at the cursor, or the
model's own stop where the FM store holds no such command. -/
theorem step_patching_cases {s : State} {slope : Nat} (hp : s.phase = .patching slope) :
    (∃ f, s.fm[slope]? = some f ∧ f.height.toNat ≤ s.curY.toNat ∧ step s = .next s.patchDone) ∨
    (∃ f row, s.fm[slope]? = some f ∧ s.curY.toNat < f.height.toNat ∧
      f.rows[s.curY.toNat]? = some row ∧ row.width.toNat ≤ s.curK.toNat ∧
      step s = .next (s.nextRow f.height)) ∨
    (∃ f row c i, s.fm[slope]? = some f ∧ s.curY.toNat < f.height.toNat ∧
      f.rows[s.curY.toNat]? = some row ∧ s.curK.toNat < row.width.toNat ∧
      row.cmds[s.curK.toNat]? = some c ∧ nextOfCommand c s.taps.length = some i ∧
      step s = exec i s) ∨
    ((s.fm[slope]? = none ∨ (∃ f, s.fm[slope]? = some f ∧ s.curY.toNat < f.height.toNat ∧
        (f.rows[s.curY.toNat]? = none ∨ ∃ row, f.rows[s.curY.toNat]? = some row ∧
          s.curK.toNat < row.width.toNat ∧
          (row.cmds[s.curK.toNat]?.bind fun c => nextOfCommand c s.taps.length) = none))) ∧
      step s = .fault .undefStore) := by
  have hs : step s = (s.runControl slope).outcome := by
    rw [step_eq, State.fetch]
    simp only [hp]
  rw [hs, State.runControl]
  cases hf : s.fm[slope]? with
  | none => exact .inr (.inr (.inr ⟨.inl rfl, rfl⟩))
  | some f =>
    dsimp only
    by_cases hy : f.height.toNat ≤ s.curY.toNat
    · rw [if_pos hy]
      exact .inl ⟨f, rfl, hy, rfl⟩
    · rw [if_neg hy]
      have hy := not_le.mp hy
      cases hr : f.rows[s.curY.toNat]? with
      | none => exact .inr (.inr (.inr ⟨.inr ⟨f, rfl, hy, .inl hr⟩, rfl⟩))
      | some row =>
        dsimp only
        by_cases hk : row.width.toNat ≤ s.curK.toNat
        · rw [if_pos hk]
          exact .inr (.inl ⟨f, row, rfl, hy, hr, hk, rfl⟩)
        · rw [if_neg hk]
          have hk := not_le.mp hk
          cases hi : row.cmds[s.curK.toNat]?.bind fun c => nextOfCommand c s.taps.length with
          | none => exact .inr (.inr (.inr ⟨.inr ⟨f, rfl, hy, .inr ⟨row, hr, hk, hi⟩⟩, rfl⟩))
          | some i =>
            obtain ⟨c, hc, hi⟩ := Option.bind_eq_some_iff.mp hi
            exact .inr (.inr (.inl ⟨f, row, c, i, rfl, hy, hr, hk, hc, hi, rfl⟩))

end Sys2Proof.Machine
end

