-- ==== Sys2Proof/Tests/Slice0.lean ====
section
/-! SUPPORT. The author's own tests: words decoded as spec/30_encoding.md writes them, ill-formed terms refused, single
steps against the vectors of spec/95_test_vectors.md, and a concrete witness of the hypotheses of every statement that
has hypotheses. -/

namespace Sys2Proof.Tests

open Sys2Proof Sys2Proof.Machine

/-! ### Helpers -/

/-- The next state of an outcome, if it has one. -/
def nextOf : Host.Outcome State Fault Refusal → Option State
  | .next t => some t
  | .fault _ => none
  | .refused _ => none

/-- What an instruction reports: `STATUS`, `RESULT`, `RESULT_VALID` and the last log record. -/
structure Report where
  status : Nat
  result : Nat
  valid : Nat
  last : Option LogRecord
deriving DecidableEq, Repr

/-- The report of an instruction executed on a state. -/
def report (i : Instr) (s : State) : Option Report :=
  (nextOf (exec i s)).map fun t => ⟨t.status.toNat, t.result.toNat, t.resultValid.toNat, t.log.getLast?⟩

/-- A state in which the listed mask entries are held, five cubes are loaded and two lightmap entries are given. -/
def withMasks (entries : Memory) (lightmap : Sparse Half) : State :=
  { State.reset with
    cfg := { Config.blank with lightmap := lightmap, brightenWhenBit1 := some 1, psetMax := some 2 }
    icmState := 1, icmCount := 5, pmState := 1, pm := entries }

/-- The palette and the base frame of the vectors V-BL. -/
def blendCommon : State :=
  { State.reset with
    pal := [(0, ⟨0, 0, 0⟩), (1, ⟨255, 0, 0⟩), (2, ⟨0, 255, 0⟩), (3, ⟨0, 0, 255⟩), (4, ⟨128, 128, 128⟩), (5, ⟨255, 255, 255⟩)]
    palLen := 6
    base := { State.reset.base with
      width := some 4, height := some 2
      pix := [(0, 1), (1, 2), (2, 3), (3, 4), (4, 5), (5, 0), (6, 4), (7, 1)] }
    out := some { width := 4, height := 2, hotx := 0, hoty := 0, left := [1, 0], right := [4, 4], pix := [] }
    icmState := 1, icmCount := 5, icm := [(4 * 32768, 4), (4 * 32768 + 15840, 228)]
    phase := .patching 0 }

/-- `ST_PATCH` of slope 0 in progress at the command `BLEND L=9 [128@0, 128@1]` of V-BL-1. -/
def running : State :=
  { blendCommon with
    fmState := 1, fm := oneCommand { light := 9, n := 2, src := [⟨0, 128⟩, ⟨1, 128⟩] } }

/-- A template of two rows. -/
def template : Template :=
  { hdr := ⟨4, 2, 1, 0, 0, 0, 0⟩, left := [1, 0], right := [4, 3], cmdOffRow := [0, 0] }

/-- Everything an `ST_PATCH` of slope 16 needs, with an empty pattern list. -/
def patchReady : State :=
  { State.reset with
    srcPresent := 1, fmState := 1, stState := 1, arg0 := 16
    fm := List.replicate 17 { size := 0, height := 1, rows := [{ width := 0, cmds := [] }] }
    templates := List.replicate 17 template }

/-! ### Decoding and encoding -/

/-- R111: the thirteen codes, each bit pattern written out. -/
theorem test_decode_host_operations :
    ∀ p ∈ ([(0b00000001, .icmLoad), (0b00000010, .icmLookup), (0b00010000, .pmLoad), (0b00010001, .pmIgnore),
      (0b00010010, .pmBrighten), (0b00010011, .pmDarken), (0b00010100, .pmApply), (0b00010101, .pmGetIcm),
      (0b00100000, .fmLoad), (0b00110000, .stLoad), (0b00110001, .stUnload), (0b00110010, .stIsLoaded),
      (0b00110011, .stPatch)] : List (Byte × Instr)),
      decode .ho [p.1] = .ok (p.2, []) := by decide

/-- V-HO-1 to V-HO-6. -/
theorem test_decode_unassigned_codes :
    ∀ c ∈ ([0x00, 0x03, 0x16, 0x21, 0x34, 0xFF] : List Byte),
      decode .ho [c] = .error (.illegalOperation c) := by decide

/-- V-FC-1, V-FC-4 to V-FC-7. -/
theorem test_decode_headers :
    decode .fc [0x95] = .ok (.blend 9 5, []) ∧ decode .fc [0xF0] = .ok (.blend 15 0, []) ∧
    decode .fc [0x0F] = .ok (.blend 0 15, []) ∧ decode .fc [0x10] = .ok (.blend 1 0, []) ∧
    decode .fc [0x08, 0x77] = .ok (.blend 0 8, [0x77]) := by decide

/-- V-SP-1, V-SP-3, V-SP-10 to V-SP-13. -/
theorem test_decode_pixels :
    decode .sp [0x2C, 0x09, 0x00] = .ok (.srcpx 4 300, []) ∧
    decode .sp [0xFF, 0xFF, 0xFF] = .ok (.srcpx 32767 511, []) ∧
    decode .sp [0xFF, 0x01, 0x00] = .ok (.srcpx 0 511, []) ∧
    decode .sp [0x00, 0x02, 0x00] = .ok (.srcpx 1 0, []) ∧
    decode .sp [0x00, 0x00, 0x80] = .ok (.srcpx 16384 0, []) ∧
    decode .sp [0x12, 0x34, 0x56] = .ok (.srcpx 11034 18, []) ∧
    decode .sp [0x12, 0x34] = .error .short := by decide

/-- V-CM-6: a row's bytes, and the command at position 9 of it read back. -/
theorem test_encode_row :
    encodeRow { width := 2, cmds := [⟨9, 2, [⟨0, 128⟩, ⟨1, 128⟩]⟩, ⟨0, 1, [⟨3, 256⟩]⟩] } =
      [0x02, 0x00, 0x92, 0x80, 0x00, 0x00, 0x80, 0x02, 0x00, 0x01, 0x00, 0x07, 0x00] ∧
    readCmd [0x02, 0x00, 0x92, 0x80, 0x00, 0x00, 0x80, 0x02, 0x00, 0x01, 0x00, 0x07, 0x00] 9 =
      .ok ⟨0, 1, [⟨3, 256⟩]⟩ 13 := by decide

/-- A table word: the least significant byte is the first of the stream. -/
theorem test_decode_table_words :
    decodeTableWord 24 0x563412 = some (.srcpx 11034 18) ∧ decodeTableWord 8 0x95 = some (.blend 9 5) ∧
    decodeTableWord 8 0x15 = some .pmGetIcm ∧ decodeTableWord 8 0x00 = some (.blend 0 0) ∧
    decodeTableWord 16 0x0001 = none := by decide

/-! ### Well-formedness: each check refuses a term -/

theorem test_command_with_a_missing_record_is_ill_formed :
    ¬ FilterCmd.WellFormed { light := 0, n := 2, src := [⟨0, 0⟩] } := by decide

theorem test_row_with_a_missing_command_is_ill_formed :
    ¬ FilterRow.WellFormed { width := 1, cmds := [] } := by decide

theorem test_row_with_an_ill_formed_command_is_ill_formed :
    ¬ FilterRow.WellFormed { width := 1, cmds := [⟨0, 1, []⟩] } := by decide

theorem test_filtermap_with_a_missing_row_is_ill_formed :
    ¬ Filtermap.WellFormed { size := 0, height := 1, rows := [] } := by decide

theorem test_filtermap_with_an_ill_formed_row_is_ill_formed :
    ¬ Filtermap.WellFormed { size := 0, height := 1, rows := [{ width := 1, cmds := [] }] } := by decide

theorem test_store_of_sixteen_is_ill_formed :
    ¬ FilterStore.WellFormed (List.replicate 16 { size := 0, height := 0, rows := [] }) := by decide

theorem test_store_with_an_ill_formed_filtermap_is_ill_formed :
    ¬ FilterStore.WellFormed (List.replicate 17 { size := 0, height := 1, rows := [] }) := by decide

/-! ### The ICM unit -/

/-- V-IL-3: an empty stream loads no cube and ends Loaded. -/
theorem test_icm_load_of_an_empty_stream :
    (nextOf (exec .icmLoad State.reset)).map (fun t => (t.status, t.icmState, t.icmCount, t.icm)) =
      some (0, 1, 0, []) := by decide

/-- R131: a partial cube is a format error at its position. -/
theorem test_icm_load_of_a_partial_cube :
    report .icmLoad { State.reset with cfg := { Config.blank with icmStream := [7] } } =
      some ⟨1, 0, 0, some ⟨.error, .formatError, 0⟩⟩ := by decide

/-- V-ICM-5. -/
theorem test_icm_lookup_addresses_the_cube :
    report .icmLookup { State.reset with
      icmCount := 2, icm := [(32768 + 1091, 0x55)], arg0 := 1, arg1 := 8, arg2 := 16, arg3 := 24 } =
      some ⟨0, 0x55, 1, none⟩ := by decide

/-- V-ICM-9: only the low bytes of the channel operands are used. -/
theorem test_icm_lookup_ignores_the_high_bits :
    report .icmLookup { State.reset with
      icmCount := 1, icm := [(31745, 0x66)], arg0 := 0, arg1 := 0x1FF, arg2 := 0x100, arg3 := 0xFFFFFF08 } =
      some ⟨0, 0x66, 1, none⟩ := by decide

/-! ### The PM unit -/

/-- V-PL-4. -/
theorem test_pm_load_of_an_empty_stream :
    report .pmLoad State.reset = some ⟨4, 0, 0, some ⟨.error, .ioError, 0⟩⟩ := by decide

/-- V-PL-7: the length is compared as a 32-bit number. -/
theorem test_pm_load_compares_the_whole_length :
    report .pmLoad { State.reset with cfg := { Config.blank with pmStream := [0x00, 0x10, 0x00, 0x01] } } =
      some ⟨1, 0, 0, some ⟨.error, .formatError, 0⟩⟩ := by decide

/-- V-PE-3 and V-PE-2. -/
theorem test_pm_ignore_reads_bit_zero :
    report .pmIgnore { withMasks [(3 * 4096 + 4095, 0x67)] [] with arg0 := 3, arg1 := 4095 } = some ⟨0, 1, 1, none⟩ ∧
    report .pmIgnore { withMasks [(4096, 0x28)] [] with arg0 := 1, arg1 := 0 } = some ⟨0, 0, 1, none⟩ := by decide

/-- V-PE-12: the unit is tested first. -/
theorem test_pm_ignore_tests_the_unit_first :
    report .pmIgnore { State.reset with arg0 := 40, arg1 := 4096 } =
      some ⟨5, 0, 0, some ⟨.error, .tableAbsentFault, 0x10⟩⟩ := by decide

/-- V-PE-7 and V-PE-8 with `W = 1`. -/
theorem test_pm_brighten_of_bit_one :
    report .pmBrighten { withMasks [(2 * 4096 + 7, 0x9A)] [] with arg0 := 2, arg1 := 7 } = some ⟨0, 1, 1, none⟩ ∧
    report .pmDarken { withMasks [(2 * 4096 + 7, 0x9A)] [] with arg0 := 2, arg1 := 7 } = some ⟨0, 0, 1, none⟩ := by
  decide

/-- V-PE-5 and V-PE-6 with `W = 1`. -/
theorem test_pm_darken_of_bit_one_clear :
    report .pmBrighten { withMasks [(4096, 0x28)] [] with arg0 := 1, arg1 := 0 } = some ⟨0, 0, 1, none⟩ ∧
    report .pmDarken { withMasks [(4096, 0x28)] [] with arg0 := 1, arg1 := 0 } = some ⟨0, 1, 1, none⟩ := by decide

/-- V-AP-1 to V-AP-8, V-AP-11, V-AP-17, V-AP-18. -/
theorem test_apply_vectors :
    applyEntry 0x01 0x37 = 0x37 ∧ applyEntry 0x28 0x10 = 0x0A ∧ applyEntry 0x30 0x10 = 0x10 ∧
    applyEntry 0x10 0x40 = 0x04 ∧ applyEntry 0x10 0x10 = 0x10 ∧ applyEntry 0xA8 0xFF = 0x2A ∧
    applyEntry 0xA0 0xFF = 0xFF ∧ applyEntry 0x28 0x28 = 0x28 ∧ applyEntry 0x08 0x80 = 0x02 ∧
    applyEntry 0x04 0x03 = 0x03 ∧ applyEntry 0x78 0x7C = 0x1E := by decide

/-- R157's example through the host: `PM_APPLY 1, 0, 0xFFFFFF10`. -/
theorem test_pm_apply_uses_the_low_byte :
    report .pmApply { withMasks [(4096, 0x28)] [] with arg0 := 1, arg1 := 0, arg2 := 0xFFFFFF10 } =
      some ⟨0, 10, 1, none⟩ := by decide

/-- V-GI-3, the documented quirk: every mask is read at the original light index. -/
theorem test_pm_geticm_reads_at_the_original_light :
    report .pmGetIcm { withMasks [(2 * 4096 + 7, 0x9A), (2 * 4096 + 9, 0xB0), (5 * 4096 + 9, 0x1F)]
        [(7 * 16 + 9, 2), (38 * 16 + 9, 5)] with
      arg0 := 9, psetLen := 2, pset := [(0, 5), (1, 2)] } = some ⟨0, 2, 1, none⟩ := by decide

/-- V-GI-5: a result out of range is logged and replaced by 4. -/
theorem test_pm_geticm_falls_back :
    report .pmGetIcm { withMasks [(2 * 4096, 0x4D), (5 * 4096, 0xBC)] [(47 * 16, 5)] with
      arg0 := 0, psetLen := 2, pset := [(0, 2), (1, 5)] } =
      some ⟨0, 4, 1, some ⟨.warning, .rangeError, 5⟩⟩ := by decide

/-! ### The FM unit and the compositor -/

/-- V-FL-7 in its first record and V-FL-1 in the others: the declared size is stored and not used. -/
theorem test_fm_load_ignores_the_size :
    (nextOf (exec .fmLoad { State.reset with
      cfg := { Config.blank with fmStream := [0xFF, 0xFF, 0xFF, 0xFF] ++ List.replicate 132 0 } })).map
        (fun t => (t.status, t.fmState, t.fmPos, t.fm.map Filtermap.size)) =
      some (0, 1, 136, 0xFFFFFFFF :: List.replicate 16 0) := by decide

/-- V-FL-8. -/
theorem test_fm_load_of_a_cut_command :
    report .fmLoad { State.reset with
      cfg := { Config.blank with fmStream := [0, 0, 0, 0, 1, 0, 0, 0, 1, 0, 0xFF] } } =
      some ⟨4, 0, 0, some ⟨.error, .ioError, 11⟩⟩ := by decide

/-- V-BF-1 to V-BF-6. -/
theorem test_blend_function_vectors :
    blendFn Config.blank [] = ⟨0, 0, 0⟩ ∧ blendFn Config.blank [⟨256, ⟨10, 20, 30⟩⟩] = ⟨10, 20, 30⟩ ∧
    blendFn Config.blank [⟨255, ⟨255, 255, 255⟩⟩] = ⟨254, 254, 254⟩ ∧ blendFn Config.blank [⟨511, ⟨255, 1, 0⟩⟩] = ⟨255, 1, 0⟩ ∧
    blendFn Config.blank [⟨128, ⟨255, 0, 0⟩⟩, ⟨128, ⟨0, 255, 0⟩⟩] = ⟨127, 127, 0⟩ ∧
    blendFn Config.blank [⟨300, ⟨255, 255, 255⟩⟩, ⟨300, ⟨128, 128, 128⟩⟩] = ⟨255, 255, 255⟩ := by decide

/-- R196: with `BLEND_FN` replaced, the command of V-BL-1 writes the cell of the replacement's colour (0, 8, 0), whose address is 32. -/
theorem test_blend_runs_a_replaced_function :
    (nextOf (exec (.blend 9 2) { running with
      cfg := { Config.blank with blendBody := .replaced [([⟨128, ⟨255, 0, 0⟩⟩, ⟨128, ⟨0, 255, 0⟩⟩], ⟨0, 8, 0⟩)] }
      taps := [⟨128, ⟨255, 0, 0⟩⟩, ⟨128, ⟨0, 255, 0⟩⟩], icm := [(4 * 32768 + 32, 77)] })).map
      (fun t => t.out.map OutFrame.pix) = some (some [(1, 77)]) := by decide

/-- V-BL-1, its first record. -/
theorem test_srcpx_fetches_through_the_palette :
    (nextOf (exec (.srcpx 0 128) running)).map (fun t => (t.taps, t.curK)) =
      some ([⟨128, ⟨255, 0, 0⟩⟩], 0) := by decide

/-- V-BL-14: the fetch is tested before the palette. -/
theorem test_srcpx_tests_the_fetch_first :
    report (.srcpx 4 256) { running with palLen := 4 } =
      some ⟨7, 0, 0, some ⟨.error, .srcRangeFault, 4⟩⟩ := by decide

/-- V-BL-1, its header. -/
theorem test_blend_writes_at_the_left_edge :
    (nextOf (exec (.blend 9 2) { running with taps := [⟨128, ⟨255, 0, 0⟩⟩, ⟨128, ⟨0, 255, 0⟩⟩] })).map
      (fun t => (t.out.map OutFrame.pix, t.curK, t.taps)) = some (some [(1, 228)], 1, []) := by decide

/-- V-BL-10. -/
theorem test_blend_beyond_the_right_edge :
    report (.blend 0 0) { running with curK := 3 } =
      some ⟨9, 0, 0, some ⟨.error, .destRangeFault, 4⟩⟩ := by decide

/-! ### The ST unit -/

/-- R223 to R225: with block size 0 each slot's header starts 4 bytes after the one before, so 96 bytes of zeros hold 17
slots, whose rebased offsets are their block starts. -/
theorem test_st_load_skips_by_the_block_size :
    (nextOf (exec .stLoad { State.reset with cfg := { Config.blank with stStream := List.replicate 96 0 } })).map
      (fun t => (t.status, t.stState, t.stPos, t.templates.map fun x => x.hdr.outlineOff)) =
      some (0, 1, 68, (List.range 17).map fun k => 4 * (k + 1)) := by decide

/-- The same stream, one byte short: the last header field does not fit. -/
theorem test_st_load_of_a_cut_header :
    report .stLoad { State.reset with cfg := { Config.blank with stStream := List.replicate 95 0 } } =
      some ⟨4, 0, 0, some ⟨.error, .ioError, 92⟩⟩ := by decide

/-- V-SU-3. -/
theorem test_st_unload_keeps_the_headers :
    (nextOf (exec .stUnload patchReady)).map (fun t => (t.stState, t.templates[3]?, t.log)) =
      some (2, some { template with left := [], right := [], cmdOffRow := [] }, []) := by decide

/-- V-SU-6. -/
theorem test_st_unload_when_not_loaded :
    report .stUnload State.reset = some ⟨0, 0, 0, some ⟨.warning, .preconditionError, 0x31⟩⟩ := by decide

/-- V-SU-1 and V-SU-2. -/
theorem test_st_isloaded :
    report .stIsLoaded State.reset = some ⟨0, 0, 1, none⟩ ∧ report .stIsLoaded patchReady = some ⟨0, 1, 1, none⟩ := by
  decide

/-- R241: the source frame is tested first, then the filtermap table. -/
theorem test_st_patch_tests_the_source_first :
    report .stPatch State.reset = some ⟨3, 0, 0, some ⟨.error, .preconditionError, 0⟩⟩ ∧
    report .stPatch { State.reset with srcPresent := 1 } =
      some ⟨3, 0, 0, some ⟨.error, .preconditionError, 0x20⟩⟩ := by decide

/-- R242 and R243: the template's geometry, and the cursor at the first row; R25: the cursor is written also where the
filtermap has no row. -/
theorem test_st_patch_sets_up :
    (nextOf (exec .stPatch { patchReady with
      curY := 5, curK := 7, fm := List.replicate 17 { size := 0, height := 0, rows := [] } })).map
        (fun t => (t.curY, t.curK)) = some (0, 0) ∧
    (nextOf (exec .stPatch patchReady)).map (fun t => (t.phase, t.curY, t.curK, t.out)) =
      some (.patching 16, 0, 0, some
        { width := 4, height := 2, hotx := 1, hoty := 0, left := [1, 0], right := [4, 3], pix := [] }) := by decide

/-- Slope 3 of program P1 (95_test_vectors.md), two rows of two commands: the end of its first row enters the second at
`CUR_K = 0`, and the end of its last row leaves the cursor at P1's end state, `CUR_Y = 2`, `CUR_K = 2`. -/
theorem test_rows_of_p1_end :
    let row : FilterRow := { width := 2, cmds := [⟨0, 0, []⟩, ⟨0, 0, []⟩] }
    let s := { State.reset with phase := .patching 0, fm := [{ size := 99, height := 2, rows := [row, row] }], curK := 2 }
    (nextOf (step s)).map (fun t => (t.curY, t.curK)) = some (1, 0) ∧
    (nextOf (step { s with curY := 1 })).map (fun t => (t.curY, t.curK)) = some (2, 2) := by decide

/-! ### The first step after reset runs a placed instruction -/

theorem test_step_runs_a_placed_host_operation :
    step (State.reset.withFetchWord 8 0x32) = exec .stIsLoaded State.reset := by rfl

theorem test_step_runs_a_placed_record :
    step (State.reset.withFetchWord 24 0x00092C) =
      exec (.srcpx 4 300) (State.reset.withFetchWord 24 0x00092C) := by rfl

theorem test_step_runs_a_placed_header :
    step (State.reset.withFetchWord 8 0x95) = exec (.blend 9 5) (State.reset.withFetchWord 8 0x95) := by rfl

/-! ### Witnesses: a concrete state for the hypotheses of each statement -/

theorem witness_EncodeOfDecodeIsTheBytes :
    decode .sp [0x12, 0x34, 0x56, 0x99] = .ok (.srcpx 11034 18, [0x99]) := by decide

theorem witness_CommandDecodesFromItsEncoding :
    FilterCmd.WellFormed ⟨0, 0, []⟩ ∧ FilterCmd.WellFormed ⟨15, 15, List.replicate 15 ⟨32767, 511⟩⟩ := by decide

/-- V-HO-7: a value wider than the register. -/
theorem witness_StepRunsTheStartedOperation :
    let s := { State.reset with pending := [.writeReg 0 0x132, .reset] }
    s.phase = .idle ∧ s.pending = .writeReg 0 0x132 :: [.reset] ∧
      decode .ho [BitVec.ofNat 8 0x132] = .ok (.stIsLoaded, []) := by decide

/-- The hypotheses on the cursor, and the two clauses: one record to come, and none. -/
theorem witness_StepRunsTheCommandAtTheCursor :
    ∃ f row c, running.phase = .patching 0 ∧ running.fm[0]? = some f ∧
      running.curY.toNat < f.height.toNat ∧ f.rows[running.curY.toNat]? = some row ∧
      running.curK.toNat < row.width.toNat ∧ row.cmds[running.curK.toNat]? = some c ∧
      (([⟨1, ⟨0, 0, 0⟩⟩] : List Tap).length < c.n.toNat ∧ c.src[1]? = some ⟨1, 128⟩) ∧
      c.n.toNat ≤ ([⟨1, ⟨0, 0, 0⟩⟩, ⟨1, ⟨0, 0, 0⟩⟩] : List Tap).length :=
  ⟨_, _, _, rfl, rfl, by decide, rfl, by decide, rfl, by decide, by decide⟩

/-- The end of the last row, and no row left. -/
theorem witness_RowsEndAndThePatchCompletes :
    ∃ f row, { running with curK := 1 }.phase = .patching 0 ∧ running.fm[0]? = some f ∧
      f.height.toNat ≤ { running with curY := 1 }.curY.toNat ∧
      { running with curK := 1 }.curY.toNat < f.height.toNat ∧ f.rows[0]? = some row ∧
      row.width.toNat ≤ { running with curK := 1 }.curK.toNat :=
  ⟨_, _, rfl, rfl, by decide, by decide, rfl, by decide⟩

theorem witness_UnassignedCodesAreIllegal :
    ∀ v ∈ [0x00, 0x03, 0x16, 0x21, 0x34, 0x1FF],
      ({ State.reset with pending := [.writeReg 0 v] } : State).phase = .idle ∧
      v % 256 ∉ [0x01, 0x02, 0x10, 0x11, 0x12, 0x13, 0x14, 0x15, 0x20, 0x30, 0x31, 0x32, 0x33] := by decide

/-- The state after reset has the invariant. -/
theorem witness_StateSound : StateSound State.reset :=
  ⟨by decide, by unfold StoresCanonical; decide, by unfold PositionsInStreams; decide,
    ⟨by unfold IcmSound; decide, ⟨by decide, fun h => absurd h (by decide)⟩, by unfold FmSound; decide,
      by unfold StSound; decide⟩,
    by unfold OutSound; decide, rfl⟩

theorem witness_StepKeepsTheInvariant :
    StateSound State.reset ∧ step State.reset = .next State.reset := ⟨witness_StateSound, rfl⟩

theorem witness_ResetHasTheInvariant :
    Config.WellFormed Config.blank ∧
      Config.WellFormed { Config.blank with fmMaxRowCmds := some 65535, psetMax := some 1 } := by decide

theorem witness_ReachableTablesAreSound :
    Config.WellFormed Config.blank ∧
      ∃ t, Sys2Proof.core.run 2 { State.resetWith Config.blank with pending := [.writeReg 0 0x01] } = .next t :=
  ⟨by decide, _, rfl⟩

theorem witness_InvariantStatesDoNotStop : StateSound State.reset := witness_StateSound

/-- A reset between operations, of a state with records, results and operands. -/
theorem witness_ResetLeavesTheListedValues :
    let s := { patchReady with
      status := 11, arg1 := 7, log := [⟨.error, .illegalOperation, 0⟩], pending := [.reset, .writeReg 4 1] }
    s.phase = .idle ∧ s.pending = .reset :: [.writeReg 4 1] := by decide

theorem witness_ConfigurationIsNeverWritten :
    ∃ t, step { State.reset with pending := [.reset] } = .next t := ⟨_, rfl⟩

theorem witness_BaseFrameIsNeverWrittenByTheBlock :
    (∃ t, exec .stPatch patchReady = .next t) ∧ running.phase = .patching 0 ∧ ∃ t, step running = .next t :=
  ⟨⟨_, rfl⟩, rfl, ⟨_, rfl⟩⟩

/-- Loads of Loaded units, and the one change of `ST_STATE` from Loaded. -/
theorem witness_LoadedUnitsStayUntilReset :
    (∃ t, step { State.reset with icmState := 1, pmState := 1, fmState := 1, pending := [.writeReg 0 0x01] } =
      .next t) ∧
    (∃ t, step { patchReady with pending := [.writeReg 0 0x31] } = .next t ∧ t.stState ≠ patchReady.stState) :=
  ⟨⟨_, rfl⟩, _, rfl, by decide⟩

theorem witness_LogOnlyGrows :
    ∃ t, step { State.reset with pending := [.writeReg 0 0x00] } = .next t ∧
      [HostEvent.writeReg 0 0x00].head? ≠ some .reset := ⟨_, rfl, by decide⟩

theorem witness_EveryInstructionReportsOneOutcome :
    (∃ t, exec .stUnload State.reset = .next t) ∧ (∃ t, exec .pmLoad State.reset = .next t) ∧
      ∃ t, exec .stPatch patchReady = .next t := ⟨⟨_, rfl⟩, ⟨_, rfl⟩, _, rfl⟩

theorem witness_InstructionsChangeOnlyTheirState :
    (∀ i ∈ [Instr.icmLookup, .pmIgnore, .pmBrighten, .pmDarken, .pmApply, .pmGetIcm, .stIsLoaded, .icmLoad,
      .pmLoad, .fmLoad, .stLoad, .stUnload, .stPatch], (nextOf (exec i State.reset)).isSome) ∧
    (nextOf (exec (.srcpx 0 128) running)).isSome ∧
    (nextOf (exec (.blend 0 0) running)).isSome := by decide

theorem witness_HostIsNotServedWhileBusy :
    running.phase = .patching 0 ∧ ∃ t, step { running with pending := [.writeReg 4 1] } = .next t := ⟨rfl, _, rfl⟩

theorem witness_HostWritesReachTheirRegisters :
    ∀ i : BitVec 4, let s := { State.reset with pending := [.writeReg i (2 ^ 32)] }
      s.phase = .idle ∧ s.pending = .writeReg i (2 ^ 32) :: [] := by decide

theorem witness_HostReadsReturnTheRegisters :
    ∀ i : BitVec 4, let s := { State.reset with pending := [.readReg i] }
      s.phase = .idle ∧ s.pending = .readReg i :: [] := by decide

/-- A field, an edge and a pixel that are held, the first edge beyond the frame, a pixel that is not held, and a result that
is not valid; of `BASE`, an edge that is held and the one after it. -/
theorem witness_HostReadsOfTheFrames :
    let f : OutFrame := { width := 4, height := 2, hotx := 0xFFFFFFFF, hoty := 0, left := [1, 0], right := [4, 4], pix := [(7, 9)] }
    let s := { State.reset with
      resultValid := 1, out := some f, pending := [.readOut .hotx]
      base := { State.reset.base with left := [(1, 3)] } }
    (s.phase = .idle ∧ s.pending = .readOut .hotx :: [] ∧ s.resultValid = 1 ∧ s.out = some f ∧
      f.left[1]?.map BitVec.toNat = some 0 ∧ (Memory.read f.pix 7).map BitVec.toNat = some 9) ∧
    f.left[2]?.map BitVec.toNat = none ∧ Memory.read f.pix 8 = none ∧ State.reset.resultValid = 0 ∧
    State.reset.out = none ∧
    ({ s with pending := [.readBase (.left 1)] } : State).pending = .readBase (.left 1) :: [] ∧
    (Memory.read s.base.left 1).map BitVec.toNat = some 3 ∧ (Memory.read s.base.left 2).map BitVec.toNat = none := by
  decide

/-- One write of each width, each of the first value too wide for its cell, and the last entries of `PAL` and `PSET`. -/
theorem witness_HostWritesReachTheirCells :
    let s := State.reset
    s.phase = .idle ∧ Memory.wf s.base.left ∧ Memory.wf s.base.right ∧ Memory.wf s.base.pix ∧
      Memory.wf s.pal ∧ Memory.wf s.pset ∧
      ({ s with pending := [.writeBase .width (2 ^ 32)] } : State).pending = .writeBase .width (2 ^ 32) :: [] ∧
      ({ s with pending := [.writeBase (.right 0) 65536] } : State).pending = .writeBase (.right 0) 65536 :: [] ∧
      ({ s with pending := [.writeBase (.pix 0) 256] } : State).pending = .writeBase (.pix 0) 256 :: [] ∧
      ({ s with pending := [.writePal 255 ⟨1, 2, 3⟩] } : State).pending = [.writePal 255 ⟨1, 2, 3⟩] ∧
      ({ s with pending := [.writePset 255 39] } : State).pending = [.writePset 255 39] := by decide

/-- A state whose ICM stream is `n` bytes of zeros and whose store holds `m` cubes. -/
def icmZeros (n : Nat) (m : Option Nat) : State :=
  { State.reset with cfg := { Config.blank with icmStream := List.replicate n 0, icmMaxCubes := m } }

theorem icmZeros_length (n : Nat) (m : Option Nat) : (icmZeros n m).cfg.icmStream.length = n :=
  List.length_replicate

/-- One witness for each of the four outcomes, at the boundary: one cube too many, one byte too many, and exactly as
many cubes as the store holds. -/
theorem witness_IcmLoadOutcome :
    ({ State.reset with icmState := 1 } : State).icmState = 1 ∧
    ((icmZeros 32768 (some 0)).icmState = 0 ∧ (icmZeros 32768 (some 0)).cfg.icmMaxCubes = some 0 ∧
      0 < (icmZeros 32768 (some 0)).cfg.icmStream.length / 32768) ∧
    ((icmZeros 32769 (some 1)).icmState = 0 ∧
      (∀ m ∈ (icmZeros 32769 (some 1)).cfg.icmMaxCubes,
        (icmZeros 32769 (some 1)).cfg.icmStream.length / 32768 ≤ m) ∧
      (icmZeros 32769 (some 1)).cfg.icmStream.length % 32768 ≠ 0) ∧
    ((icmZeros 32768 (some 1)).icmState = 0 ∧
      (∀ m ∈ (icmZeros 32768 (some 1)).cfg.icmMaxCubes,
        (icmZeros 32768 (some 1)).cfg.icmStream.length / 32768 ≤ m) ∧
      (icmZeros 32768 (some 1)).cfg.icmStream.length % 32768 = 0) := by
  rw [icmZeros_length, icmZeros_length, icmZeros_length]
  exact ⟨rfl, ⟨rfl, rfl, by decide⟩, ⟨rfl, fun m h => Option.some.inj h ▸ (by decide), by decide⟩,
    rfl, fun m h => Option.some.inj h ▸ (by decide), by decide⟩

theorem witness_IcmLookupReturnsTheCellOrFaults :
    ({ State.reset with arg0 := 4, icmCount := 5 } : State).arg0.toNat <
      ({ State.reset with arg0 := 4, icmCount := 5 } : State).icmCount.toNat ∧
    ({ State.reset with arg0 := 5, icmCount := 5 } : State).icmCount.toNat ≤
      ({ State.reset with arg0 := 5, icmCount := 5 } : State).arg0.toNat := by decide

/-- A PM stream of `n` bytes whose length fields are all 4096. -/
def pmBytes (n : Nat) : List Byte := (List.range n).map fun p => if p % 4100 = 1 then 16 else 0

theorem pmBytes_length (n : Nat) : (pmBytes n).length = n := by rw [pmBytes, List.length_map, List.length_range]

theorem pmBytes_get {n p : Nat} (h : p < n) : (pmBytes n)[p]? = some (if p % 4100 = 1 then 16 else 0) := by
  rw [pmBytes, List.getElem?_map, List.getElem?_range h]
  rfl

/-- Four bytes make a word. -/
theorem wordAt_of_bytes {b : List Byte} {p : Nat} {w x y z : Byte} (h0 : b[p]? = some w) (h1 : b[p + 1]? = some x)
    (h2 : b[p + 2]? = some y) (h3 : b[p + 3]? = some z) :
    wordAt b p = some (w.toNat + 256 * x.toNat + 65536 * (y.toNat + 256 * z.toNat)) := by
  rw [wordAt, halfAt, halfAt, h0, h1, h2, h3]

theorem pmBytes_length_field {n p : Nat} (hp : p % 4100 = 0) (h : p + 3 < n) : wordAt (pmBytes n) p = some 4096 := by
  have h0 := pmBytes_get (show p < n by omega)
  have h1 := pmBytes_get (show p + 1 < n by omega)
  have h2 := pmBytes_get (show p + 2 < n by omega)
  have h3 := pmBytes_get h
  rw [if_neg (by omega)] at h0 h2 h3
  rw [if_pos (by omega)] at h1
  exact wordAt_of_bytes h0 h1 h2 h3

/-- A state with that PM stream, followed by `after`. -/
def withPmBytes (n : Nat) (after : List Byte) : State :=
  { State.reset with cfg := { Config.blank with pmStream := pmBytes n ++ after } }

theorem withPmBytes_length (n : Nat) (after : List Byte) :
    (withPmBytes n after).cfg.pmStream.length = n + after.length := by
  rw [← pmBytes_length n, ← List.length_append, pmBytes_length]
  rfl

theorem withPmBytes_length_field {n p : Nat} (after : List Byte) (hp : p % 4100 = 0) (h : p + 3 < n) :
    wordAt (withPmBytes n after).cfg.pmStream p = some 4096 := by
  have hg : ∀ p < n, (pmBytes n ++ after)[p]? = (pmBytes n)[p]? := fun p hp =>
    List.getElem?_append_left (by rw [pmBytes_length]; exact hp)
  rw [← pmBytes_length_field hp h]
  show wordAt (pmBytes n ++ after) _ = _
  rw [wordAt, wordAt, halfAt, halfAt, halfAt, halfAt, hg _ (by omega), hg _ (by omega), hg _ (by omega),
    hg _ (by omega)]

theorem withPmBytes_next_word (n : Nat) (w x y z : Byte) :
    wordAt (withPmBytes n [w, x, y, z]).cfg.pmStream n =
      some (w.toNat + 256 * x.toNat + 65536 * (y.toNat + 256 * z.toNat)) := by
  have hg : ∀ i, (pmBytes n ++ [w, x, y, z])[n + i]? = [w, x, y, z][i]? := fun i => by
    rw [List.getElem?_append_right (by rw [pmBytes_length]; omega), pmBytes_length, Nat.add_sub_cancel_left]
  exact wordAt_of_bytes (b := pmBytes n ++ [w, x, y, z]) (hg 0) (hg 1) (hg 2) (hg 3)

theorem witness_PmLoadStoresTheMasks :
    (withPmBytes 164000 []).pmState = 0 ∧ 164000 ≤ (withPmBytes 164000 []).cfg.pmStream.length ∧
      ∀ id < 40, wordAt (withPmBytes 164000 []).cfg.pmStream (id * 4100) = some 4096 :=
  ⟨rfl, (withPmBytes_length 164000 []).ge, fun _ h => withPmBytes_length_field [] (Nat.mul_mod_left _ _) (by omega)⟩

/-- Record 0 (V-PL-7), and the last record after 39 that are complete. -/
theorem witness_PmLoadRejectsABadLength :
    ((withPmBytes 0 [0x00, 0x10, 0x00, 0x01]).pmState = 0 ∧
      wordAt (withPmBytes 0 [0x00, 0x10, 0x00, 0x01]).cfg.pmStream 0 = some 0x01001000) ∧
    (withPmBytes 159900 [0, 8, 0, 0]).pmState = 0 ∧
      (∀ id < 39, wordAt (withPmBytes 159900 [0, 8, 0, 0]).cfg.pmStream (id * 4100) = some 4096) ∧
      wordAt (withPmBytes 159900 [0, 8, 0, 0]).cfg.pmStream (39 * 4100) = some 2048 :=
  ⟨⟨rfl, withPmBytes_next_word 0 _ _ _ _⟩, rfl, fun _ h => withPmBytes_length_field _ (Nat.mul_mod_left _ _) (by omega),
    withPmBytes_next_word 159900 _ _ _ _⟩

theorem witness_PmLoadOfAShortStreamFails :
    (withPmBytes 163999 []).pmState = 0 ∧ (withPmBytes 163999 []).cfg.pmStream.length < 164000 :=
  ⟨rfl, by rw [withPmBytes_length]; decide⟩

theorem witness_MaskQueriesCheckInOrder :
    State.reset.pmState = 0 ∧
    (let s := { State.reset with pmState := 1, arg0 := 40 }; s.pmState = 1 ∧ 40 ≤ s.arg0.toNat) ∧
    (let s := { State.reset with pmState := 1, arg0 := 39, arg1 := 4096 };
      s.pmState = 1 ∧ s.arg0.toNat < 40 ∧ 4096 ≤ s.arg1.toNat) := by decide

/-- The last entry of the last mask. -/
theorem witness_MaskPredicatesReadTheirBits :
    let s := { State.reset with pmState := 1, arg0 := 39, arg1 := 4095 }
    s.pmState = 1 ∧ s.arg0.toNat < 40 ∧ s.arg1.toNat < 4096 := by decide

theorem witness_PmApplyIsTheOneStepClamp :
    let s := { State.reset with pmState := 1, arg0 := 39, arg1 := 4095, arg2 := 0xFFFFFFFF }
    s.pmState = 1 ∧ s.arg0.toNat < 40 ∧ s.arg1.toNat < 4096 := by decide

/-- Lowering; raising with the bit (V-AP-2) and without it (V-AP-3); equality; equal windows; a candidate of 32. -/
theorem witness_ApplyConsequences :
    ((0x10 : Byte).toNat % 2 = 0 ∧ (0x10 : Byte).toNat / 4 < (0x40 : Byte).toNat / 4 % 32) ∧
    ((0x28 : Byte).toNat % 2 = 0 ∧ (0x10 : Byte).toNat / 4 % 32 < (0x28 : Byte).toNat / 4 ∧
      (0x28 : Byte).toNat / 4 / 2 % 2 = 1) ∧
    ((0x30 : Byte).toNat % 2 = 0 ∧ (0x10 : Byte).toNat / 4 % 32 < (0x30 : Byte).toNat / 4 ∧
      (0x30 : Byte).toNat / 4 / 2 % 2 = 0) ∧
    (0x10 : Byte).toNat / 4 = (0x10 : Byte).toNat / 4 % 32 ∧
    (0xFC : Byte).toNat / 4 % 32 = (0x7F : Byte).toNat / 4 % 32 ∧ 32 ≤ (0x80 : Byte).toNat / 4 := by decide

theorem witness_GetIcmOfAnEmptyListIsNeutral :
    let s := { State.reset with arg0 := 15 }; s.arg0.toNat < 16 ∧ s.psetLen = 0 := by decide

/-- V-GI-3 for the first clause, V-GI-5 for the second, each with a list of exactly `PSET_MAX` ids. -/
theorem witness_GetIcmFoldsAndFallsBack :
    let s := { withMasks [(2 * 4096 + 9, 0xB0), (5 * 4096 + 9, 0x1F)] [(7 * 16 + 9, 2)] with
      arg0 := 9, psetLen := 2, pset := [(0, 5), (1, 2)] }
    let s' := { withMasks [(2 * 4096, 0x4D), (5 * 4096, 0xBC)] [(47 * 16, 5)] with
      arg0 := 0, psetLen := 2, pset := [(0, 2), (1, 5)] }
    (s.arg0.toNat < 16 ∧ (∀ m ∈ s.cfg.psetMax, s.psetLen.toNat ≤ m) ∧ s.patternList = 5 :: [2] ∧
      (∀ id ∈ ([5, 2] : List Byte), id.toNat < 40) ∧ s.pmState = 1 ∧
      (lightmapAt s.cfg (applyEntry 0xB0 (0x1F / 4)).toNat 9).toNat < s.icmCount.toNat) ∧
    (s'.arg0.toNat < 16 ∧ (∀ m ∈ s'.cfg.psetMax, s'.psetLen.toNat ≤ m) ∧ s'.patternList = 2 :: [5] ∧
      (∀ id ∈ ([2, 5] : List Byte), id.toNat < 40) ∧ s'.pmState = 1 ∧
      s'.icmCount.toNat ≤ (lightmapAt s'.cfg (applyEntry 0xBC (0x4D / 4)).toNat 0).toNat) := by decide

/-- V-GI-12; a list one longer than `PSET_MAX`; V-GI-13 with id 39 before; V-GI-14. -/
theorem witness_GetIcmChecksInOrder :
    16 ≤ ({ State.reset with arg0 := 16 } : State).arg0.toNat ∧
    (let s := { withMasks [] [] with psetLen := 3 };
      s.arg0.toNat < 16 ∧ ¬ ∀ m ∈ s.cfg.psetMax, s.psetLen.toNat ≤ m) ∧
    (let s := { withMasks [] [] with arg0 := 15, psetLen := 2, pset := [(0, 39), (1, 40)] };
      s.arg0.toNat < 16 ∧ (∀ m ∈ s.cfg.psetMax, s.psetLen.toNat ≤ m) ∧ s.patternList = [39] ++ 40 :: [] ∧
      (∀ x ∈ ([39] : List Byte), x.toNat < 40) ∧ 40 ≤ (40 : Byte).toNat) ∧
    (let s := { State.reset with psetLen := 1, pset := [(0, 0)] };
      s.arg0.toNat < 16 ∧ (∀ m ∈ s.cfg.psetMax, s.psetLen.toNat ≤ m) ∧ s.psetLen ≠ 0 ∧
      (∀ x ∈ s.patternList, x.toNat < 40) ∧ s.pmState = 0) := by decide

/-- A store with a command, one byte after it, and capacities that it just meets. -/
theorem witness_FmLoadReadsTheEncodedStore :
    let fm := oneCommand ⟨9, 1, [⟨4, 300⟩]⟩
    let s := { State.reset with cfg := { Config.blank with
      fmStream := encodeFilterStore fm ++ [0xEE], fmMaxRows := some 1, fmMaxRowCmds := some 1 } }
    s.fmState = 0 ∧ FilterStore.WellFormed fm ∧ s.cfg.fmStream = encodeFilterStore fm ++ [0xEE] ∧
      ∀ f ∈ fm, FiltermapFits s.cfg f := by
  unfold FiltermapFits RowFits
  decide

/-- V-FL-8: the stream ends inside the first record of a command, after its first byte is read; with no byte the first size
field is cut. -/
theorem witness_FmLoadOfACutStreamIsAnIoError :
    let fm := oneCommand ⟨9, 1, [⟨4, 300⟩]⟩
    let s := { State.reset with cfg := { Config.blank with
      fmStream := [0, 0, 0, 0, 1, 0, 0, 0, 1, 0, 0x91, 0x2C, 0xEE], fmMaxRows := some 1, fmMaxRowCmds := some 1 } }
    s.fmState = 0 ∧ FilterStore.WellFormed fm ∧ (∀ f ∈ fm, FiltermapFits s.cfg f) ∧
    (storeReads fm = (storeReads fm).take 5 ++ [0x09, 0x00] :: (storeReads fm).drop 6 ∧
      s.cfg.fmStream = ((storeReads fm).take 5).flatten ++ [0xEE] ∧ [0xEE].length < [(0x09 : Byte), 0x00].length) ∧
    (storeReads fm = [] ++ [0, 0, 0, 0] :: (storeReads fm).drop 1 ∧
      State.reset.cfg.fmStream = [].flatten ++ [] ∧ State.reset.fmState = 0) := by
  unfold FiltermapFits RowFits
  decide

/-- The last filtermap has one row more than the store holds; its one row has one command more. -/
theorem witness_FmLoadChecksTheCapacities :
    let earlier := List.replicate 16 ({ size := 0, height := 0, rows := [] } : Filtermap)
    let counted := earlier.flatMap encodeFiltermap ++ encode32 5 ++ encode32 1
    let rowless := { State.reset with cfg := { Config.blank with fmStream := counted ++ [], fmMaxRows := some 0 } }
    let full := { State.reset with cfg := { Config.blank with
      fmStream := counted ++ [].flatMap encodeRow ++ encode16 1 ++ [0xEE], fmMaxRows := some 1, fmMaxRowCmds := some 0 } }
    earlier.length < 17 ∧
    (rowless.fmState = 0 ∧ (∀ f ∈ earlier, f.WellFormed ∧ FiltermapFits rowless.cfg f) ∧
      rowless.cfg.fmMaxRows = some 0 ∧ 0 < (1 : Word).toNat ∧ rowless.cfg.fmStream = counted ++ []) ∧
    (full.fmState = 0 ∧ (∀ f ∈ earlier, f.WellFormed ∧ FiltermapFits full.cfg f) ∧
      (∀ m ∈ full.cfg.fmMaxRows, (1 : Word).toNat ≤ m) ∧ ([] : List FilterRow).length < (1 : Word).toNat ∧
      full.cfg.fmMaxRowCmds = some 0 ∧ 0 < (1 : Half).toNat ∧
      full.cfg.fmStream = counted ++ [].flatMap encodeRow ++ encode16 1 ++ [0xEE]) := by
  unfold FiltermapFits RowFits
  decide

/-- Each load fails on a stream that is too short or on a Loaded unit. -/
theorem witness_FailedLoadsClearTheirUnit :
    let cut := { State.reset with cfg := { Config.blank with icmStream := [1] } }
    let loaded := { State.reset with icmState := 1, pmState := 1, fmState := 1, stState := 1 }
    (∃ t, exec .icmLoad cut = .next t ∧ t.status ≠ 0) ∧ (∃ t, exec .pmLoad cut = .next t ∧ t.status ≠ 0) ∧
    (∃ t, exec .fmLoad cut = .next t ∧ t.status ≠ 0) ∧ (∃ t, exec .stLoad cut = .next t ∧ t.status ≠ 0) ∧
    (∃ t, exec .icmLoad loaded = .next t ∧ t.status ≠ 0) ∧ (∃ t, exec .pmLoad loaded = .next t ∧ t.status ≠ 0) ∧
    (∃ t, exec .fmLoad loaded = .next t ∧ t.status ≠ 0) ∧ (∃ t, exec .stLoad loaded = .next t ∧ t.status ≠ 0) :=
  ⟨⟨_, rfl, by decide⟩, ⟨_, rfl, by decide⟩, ⟨_, rfl, by decide⟩, ⟨_, rfl, by decide⟩,
    ⟨_, rfl, by decide⟩, ⟨_, rfl, by decide⟩, ⟨_, rfl, by decide⟩, ⟨_, rfl, by decide⟩⟩

theorem witness_LoadedUnitsRefuseALoad :
    let s := { State.reset with pmState := 1, fmState := 1, stState := 1 }
    s.pmState = 1 ∧ s.fmState = 1 ∧ s.stState = 1 := by decide

/-- The last pixel of a row; one beyond it and a row beyond the last; the last palette entry; one beyond it. -/
theorem witness_SrcpxFetchesAndResolves :
    running.phase = .patching 0 ∧
    (running.curY.toNat < running.baseHeight.toNat ∧ (3 : BitVec 15).toNat < running.baseWidth.toNat ∧
      (byteAt .basePix running.base.pix (0 * 4 + 3)).toNat < ({ running with palLen := 5 } : State).palLen.toNat) ∧
    (running.baseWidth.toNat ≤ (4 : BitVec 15).toNat ∧
      running.baseHeight.toNat ≤ ({ running with curY := 2 } : State).curY.toNat) ∧
    ({ running with palLen := 4 } : State).palLen.toNat ≤
      (byteAt .basePix running.base.pix (0 * 4 + 3)).toNat := by decide

/-- V-BL-1. -/
theorem witness_BlendWritesItsPixel :
    let s := { running with taps := [⟨128, ⟨255, 0, 0⟩⟩, ⟨128, ⟨0, 255, 0⟩⟩] }
    ∃ f, s.phase = .patching 0 ∧ s.taps.length = (2 : BitVec 4).toNat ∧ s.out = some f ∧ Memory.wf f.pix ∧
      f.left[s.curY.toNat]? = some 1 ∧ s.curY.toNat < f.height.toNat ∧
      (1 : Half).toNat + s.curK.toNat < f.width.toNat ∧
      (s.getIcm (9 : BitVec 4).toNat s.patternList).2.toNat < s.icmCount.toNat :=
  ⟨_, rfl, rfl, rfl, by decide, rfl, by decide, by decide, by decide⟩

/-- V-BL-12, V-BL-11 and V-BL-10. -/
theorem witness_BlendFaultsEndThePatch :
    (let s := { running with icmCount := 4 };
      s.phase = .patching 0 ∧ s.taps.length = (0 : BitVec 4).toNat ∧
      s.icmCount.toNat ≤ (s.getIcm 0 s.patternList).2.toNat) ∧
    (let s := { running with curY := 2 };
      s.taps.length = (0 : BitVec 4).toNat ∧ (s.getIcm 0 s.patternList).2.toNat < s.icmCount.toNat ∧
      ∀ f ∈ s.out, f.height.toNat ≤ s.curY.toNat) ∧
    (let s := { running with curK := 3 };
      (s.getIcm 0 s.patternList).2.toNat < s.icmCount.toNat ∧
      ∀ f ∈ s.out, s.curY.toNat < f.height.toNat ∧ f.left[s.curY.toNat]? = some 1 ∧
        f.width.toNat ≤ (1 : Half).toNat + s.curK.toNat) := by decide

theorem witness_CommandStepsRefineBlend :
    ∃ f row c, running.phase = .patching 0 ∧ running.fm[0]? = some f ∧
      running.curY.toNat < f.height.toNat ∧ f.rows[running.curY.toNat]? = some row ∧
      running.curK.toNat < row.width.toNat ∧ row.cmds[running.curK.toNat]? = some c ∧ c.WellFormed ∧
      running.taps = [] :=
  ⟨_, _, _, rfl, rfl, by decide, rfl, by decide, rfl, by decide, rfl⟩

theorem witness_BlendFunctionCorners :
    Config.blank.blendBody = .decided ∧
      ∀ t ∈ ([⟨0, ⟨255, 255, 255⟩⟩, ⟨0, ⟨1, 2, 3⟩⟩] : List Tap), t.alpha = 0 := by decide

theorem witness_BlendLanesAreIndependent : Config.blank.blendBody = .decided := rfl

/-- The decided default; a value given twice, of which the first counts; two configurations that hold the same function. -/
theorem witness_BlendFunctionIsAParameter :
    let front : List (List Tap × Rgb) := [([], ⟨1, 1, 1⟩)]
    let taps : List Tap := [⟨256, ⟨2, 2, 2⟩⟩]
    let colour : Rgb := ⟨3, 3, 3⟩
    let back : List (List Tap × Rgb) := [(taps, ⟨4, 4, 4⟩)]
    let c := { Config.blank with blendBody := .replaced (front ++ (taps, colour) :: back) }
    Config.blank.blendBody = .decided ∧ c.blendBody = .replaced (front ++ (taps, colour) :: back) ∧
    (∀ e ∈ front, e.1 ≠ taps) ∧
    c.blendBody = ({ c with icmMaxCubes := some 5 } : Config).blendBody := by decide

/-- The last byte, half, word, run and seek of a stream of four bytes, and the first of each beyond it. -/
theorem witness_StreamReadsFailBeyondTheEnd :
    let b : List Byte := [1, 2, 3, 4]
    b[3]? = some 4 ∧ b.length < 4 + 1 ∧ halfAt b 2 = some 0x403 ∧ b.length < 3 + 2 ∧
    wordAt b 0 = some 0x4030201 ∧ b.length < 1 + 4 ∧ 1 + 3 ≤ b.length ∧ b.length < 1 + 4 ∧ 4 ≤ b.length ∧
    b.length < 5 := by decide

/-- A word of zeros in a stream of zeros. -/
theorem wordAt_zeros {n p : Nat} (h : p + 3 < n) : wordAt (List.replicate n 0) p = some 0 :=
  have hz : ∀ q < n, (List.replicate n (0 : Byte))[q]? = some 0 := fun q hq => by
    rw [List.getElem?_replicate, if_pos hq]
  wordAt_of_bytes (hz _ (by omega)) (hz _ (by omega)) (hz _ (by omega)) (hz _ h)

/-- An element of a table over the first `n` numbers. -/
theorem get_range_map {α : Type} {f : Nat → α} {n j : Nat} {x : α} (h : ((List.range n).map f)[j]? = some x) :
    j < n ∧ f j = x := by
  obtain ⟨hj, hx⟩ := List.getElem?_eq_some_iff.mp h
  simp only [List.length_map, List.length_range] at hj
  simpa [hj] using hx

/-- A state whose ST stream is `n` zeros, with room for `m` rows. -/
def stZeros (n m : Nat) : State :=
  { State.reset with cfg := { Config.blank with stStream := List.replicate n 0, stMaxRows := some m } }

/-- The header of slot `k` of a stream of zeros: every block size is 0, so slot `k` starts at `4*(k+1)`. -/
def zeroHeader (k : Nat) : Header := ⟨0, 0, 0, 0, 0, 4 * (k + 1), 4 * (k + 1)⟩

theorem zeroHeader_at {n k : Nat} (h : 4 * (k + 1) + 28 ≤ n) :
    HeaderAt (List.replicate n 0) (4 * (k + 1)) 0 (zeroHeader k) :=
  ⟨wordAt_zeros (by omega), by rw [List.length_replicate]; omega, wordAt_zeros (by omega), wordAt_zeros (by omega),
    wordAt_zeros (by omega), wordAt_zeros (by omega), wordAt_zeros (by omega),
    ⟨0, wordAt_zeros (by omega), (Nat.zero_add _).symm⟩, 0, wordAt_zeros (by omega), (Nat.zero_add _).symm⟩

/-- The 17 slots of a stream of 96 zeros, whose heights are 0, the most that the store holds. -/
theorem witness_StLoadReadsTheTemplates :
    let ts := (List.range 17).map fun k => (⟨zeroHeader k, [], [], []⟩ : Template)
    let start := fun k : Nat => 4 * (k + 1)
    let size := fun _ : Nat => 0
    let s := stZeros 96 0
    s.stState ≠ 1 ∧ ts.length = 17 ∧ start 0 = 4 ∧ (∀ k < 17, start (k + 1) = start k + size k + 4) ∧
      ∀ k t, ts[k]? = some t → SlotAt s.cfg.stStream (start k) (size k) t ∧
        ∀ m ∈ s.cfg.stMaxRows, t.hdr.height.toNat ≤ m := by
  refine ⟨by decide, rfl, rfl, fun k _ => by dsimp only; omega, fun k t h => ?_⟩
  obtain ⟨hk, rfl⟩ := get_range_map h
  have ho : 4 * (k + 1) ≤ (List.replicate 96 (0 : Byte)).length := by rw [List.length_replicate]; omega
  exact ⟨⟨zeroHeader_at (by omega), ho, ho, rfl, rfl, rfl, fun y hy => absurd hy (Nat.not_lt_zero y)⟩,
    fun m _ => Nat.zero_le m⟩

/-- The first slot: a stream one byte short of its size field; one byte short of its seventh field; a height of 1 where
the store holds 0 rows; and a block that ends one byte beyond the stream. The last slot of 17: its seventh field. -/
theorem witness_StLoadHeaderPassFails :
    let tall := { stZeros 0 0 with cfg := { Config.blank with
      stStream := List.replicate 8 0 ++ [1, 0, 0, 0] ++ List.replicate 20 0, stMaxRows := some 0 } }
    let long := { stZeros 0 0 with cfg := { Config.blank with stStream := [29, 0, 0, 0] ++ List.replicate 28 0 } }
    (State.reset.stState ≠ 1 ∧ (stZeros 3 0).cfg.stStream.length < 4) ∧
    (4 + 4 * 6 ≤ (stZeros 31 0).cfg.stStream.length ∧ (stZeros 31 0).cfg.stStream.length < 4 + 4 * 6 + 4) ∧
    (tall.stState ≠ 1 ∧ 4 + 28 ≤ tall.cfg.stStream.length ∧ wordAt tall.cfg.stStream (4 + 4) = some 1 ∧
      tall.cfg.stMaxRows = some 0 ∧ 0 < 1) ∧
    (long.stState ≠ 1 ∧ 4 + 28 ≤ long.cfg.stStream.length ∧ wordAt long.cfg.stStream (4 + 4) = some 0 ∧
      (∀ m ∈ long.cfg.stMaxRows, 0 ≤ m) ∧ wordAt long.cfg.stStream (4 - 4) = some 29 ∧
      long.cfg.stStream.length < 4 + 29) ∧
    (let hs := (List.range 16).map zeroHeader;
      (∀ j h, hs[j]? = some h → HeaderAt (stZeros 95 0).cfg.stStream (4 * (j + 1)) 0 h ∧
        ∀ m ∈ (stZeros 95 0).cfg.stMaxRows, h.height.toNat ≤ m) ∧
      4 * (16 + 1) + 4 * 6 ≤ (stZeros 95 0).cfg.stStream.length ∧
      (stZeros 95 0).cfg.stStream.length < 4 * (16 + 1) + 4 * 6 + 4) := by
  refine ⟨by decide, by decide, by decide, by decide, fun j h hj => ?_, by decide, by decide⟩
  obtain ⟨hlt, rfl⟩ := get_range_map hj
  exact ⟨zeroHeader_at (by omega), fun m _ => Nat.zero_le m⟩

/-- The 96 bytes of 17 overlapping slots whose block sizes are 0: of the last slot the height, the relative outline offset
(which is also the command offset of the slot before it) and the relative command offset are given, every other word is
0 or one of these. -/
def lastSlot (height outline cmd : Byte) : State :=
  { State.reset with cfg := { Config.blank with
    stStream := List.replicate 72 0 ++ [height, 0, 0, 0] ++ List.replicate 12 0 ++ [outline, 0, 0, 0, cmd, 0, 0, 0] } }

/-- Word `q` of that stream. -/
def lastSlotWord (height outline cmd : Byte) (q : Nat) : Nat :=
  if q = 18 then height.toNat else if q = 22 then outline.toNat else if q = 23 then cmd.toNat else 0

theorem wordAt_lastSlot (height outline cmd : Byte) {q : Nat} (hq : q < 24) :
    wordAt (lastSlot height outline cmd).cfg.stStream (4 * q) = some (lastSlotWord height outline cmd q) := by
  have hw : ∀ w x y z : Byte, ∀ r, (lastSlot height outline cmd).cfg.stStream.drop (4 * q) = w :: x :: y :: z :: r →
      wordAt (lastSlot height outline cmd).cfg.stStream (4 * q) =
        some (w.toNat + 256 * x.toNat + 65536 * (y.toNat + 256 * z.toNat)) := fun w x y z r hd => by
    have hg : ∀ i, (lastSlot height outline cmd).cfg.stStream[4 * q + i]? = (w :: x :: y :: z :: r)[i]? := fun i => by
      rw [← hd, List.getElem?_drop]
    exact wordAt_of_bytes (hg 0) (hg 1) (hg 2) (hg 3)
  interval_cases q <;> exact hw _ _ _ _ _ rfl

/-- The header of slot `k` of that stream. -/
def lastSlotHeader (height outline cmd : Byte) (k : Nat) : Header :=
  let word := lastSlotWord height outline cmd
  ⟨BitVec.ofNat 32 (word (k + 1)), BitVec.ofNat 32 (word (k + 2)), BitVec.ofNat 32 (word (k + 3)),
    BitVec.ofNat 32 (word (k + 4)), BitVec.ofNat 32 (word (k + 5)), word (k + 6) + 4 * (k + 1), word (k + 7) + 4 * (k + 1)⟩

theorem lastSlotHeader_at (height outline cmd : Byte) {k : Nat} (hk : k < 17) :
    HeaderAt (lastSlot height outline cmd).cfg.stStream (4 * (k + 1)) 0 (lastSlotHeader height outline cmd k) := by
  have hb : ∀ q, (BitVec.ofNat 32 (lastSlotWord height outline cmd q)).toNat = lastSlotWord height outline cmd q :=
    fun q => by
      rw [BitVec.toNat_ofNat, Nat.mod_eq_of_lt]
      unfold lastSlotWord
      split_ifs <;> omega
  have hw : ∀ q < 24, ∀ p, p = 4 * q → wordAt (lastSlot height outline cmd).cfg.stStream p =
      some (lastSlotWord height outline cmd q) := fun q hq p hp => hp ▸ wordAt_lastSlot height outline cmd hq
  have hv : ∀ q < 24, ∀ p, p = 4 * q → wordAt (lastSlot height outline cmd).cfg.stStream p =
      some (BitVec.ofNat 32 (lastSlotWord height outline cmd q)).toNat := fun q hq p hp => by rw [hb, hw q hq p hp]
  have h0 : lastSlotWord height outline cmd k = 0 := by
    unfold lastSlotWord
    split_ifs <;> omega
  have hl : 4 * (k + 1) + 0 ≤ (lastSlot height outline cmd).cfg.stStream.length := by
    show _ ≤ 96
    omega
  exact ⟨h0 ▸ hw k (by omega) _ (by omega), hl, hv _ (by omega) _ (by omega), hv _ (by omega) _ (by omega),
    hv _ (by omega) _ (by omega), hv _ (by omega) _ (by omega), hv _ (by omega) _ (by omega),
    ⟨_, hw _ (by omega) _ (by omega), rfl⟩, _, hw _ (by omega) _ (by omega), rfl⟩

/-- At the last slot, one case for each clause: an outline table that starts one byte beyond the stream, one whose first edge
is cut, a command table that starts one byte beyond the stream, and one whose first offset is cut. -/
theorem witness_StLoadTablePassFails :
    (∀ p ∈ ([(0, 29, 0), (1, 27, 0), (0, 0, 29), (1, 0, 27)] : List (Byte × Byte × Byte)),
      let s := lastSlot p.1 p.2.1 p.2.2
      let header := lastSlotHeader p.1 p.2.1 p.2.2
      let hs := (List.range 17).map header
      let ts := (List.range 16).map fun k => (⟨header k, [], [], []⟩ : Template)
      s.stState ≠ 1 ∧ hs.length = 17 ∧
      (∀ j g, hs[j]? = some g → HeaderAt s.cfg.stStream (4 * (j + 1)) 0 g ∧ ∀ m ∈ s.cfg.stMaxRows, g.height.toNat ≤ m) ∧
      (∀ (j : Nat) (t : Template), ts[j]? = some t → hs[j]? = some t.hdr ∧ TablesAt s.cfg.stStream t) ∧
      hs[ts.length]? = some (header 16) ∧ s.cfg.stStream.length = 96) ∧
    96 < (lastSlotHeader 0 29 0 16).outlineOff ∧
    (let h := lastSlotHeader 1 27 0 16; 0 < 2 * h.height.toNat ∧ h.outlineOff ≤ 96 ∧ 96 < h.outlineOff + 2) ∧
    (let h := lastSlotHeader 0 0 29 16; h.outlineOff + 4 * h.height.toNat ≤ 96 ∧ 96 < h.cmdOff) ∧
    (let h := lastSlotHeader 1 0 27 16; 0 < h.height.toNat ∧ h.outlineOff + 4 * h.height.toNat ≤ 96 ∧ h.cmdOff ≤ 96 ∧
      96 < h.cmdOff + 4) := by
  refine ⟨fun p hp => ?_, by decide, by decide, by decide, by decide⟩
  have hb : p.1.toNat ≤ 1 ∧ p.2.1.toNat ≤ 29 := by
    simp only [List.mem_cons, List.not_mem_nil, or_false] at hp
    rcases hp with rfl | rfl | rfl | rfl <;> decide
  have ht : ∀ k < 16, let h := lastSlotHeader p.1 p.2.1 p.2.2 k
      h.outlineOff ≤ 96 ∧ h.cmdOff ≤ 96 ∧ h.height.toNat = 0 := fun k hk => by
    have hz : lastSlotWord p.1 p.2.1 p.2.2 (k + 2) = 0 := by
      unfold lastSlotWord
      split_ifs <;> omega
    refine ⟨?_, ?_, by show (BitVec.ofNat 32 (lastSlotWord _ _ _ (k + 2))).toNat = 0; rw [hz]; rfl⟩
    · show lastSlotWord _ _ _ (k + 6) + 4 * (k + 1) ≤ 96
      unfold lastSlotWord
      split_ifs <;> omega
    · show lastSlotWord _ _ _ (k + 7) + 4 * (k + 1) ≤ 96
      unfold lastSlotWord
      split_ifs <;> omega
  refine ⟨by show (0 : BitVec 2) ≠ 1; decide, rfl, fun j g hj => ?_, fun j t hj => ?_, rfl, rfl⟩
  · obtain ⟨hlt, rfl⟩ := get_range_map hj
    exact ⟨lastSlotHeader_at _ _ _ hlt, fun m hm => nomatch hm⟩
  · obtain ⟨hlt, rfl⟩ := get_range_map hj
    have h := ht j hlt
    refine ⟨?_, h.1, h.2.1, h.2.2.symm, h.2.2.symm, h.2.2.symm, fun y hy => absurd hy ?_⟩
    · rw [List.getElem?_map, List.getElem?_range (by omega)]
      rfl
    · dsimp only
      rw [h.2.2]
      exact Nat.not_lt_zero y

theorem witness_StUnloadKeepsTheHeaders : patchReady.stState = 1 ∧ State.reset.stState ≠ 1 := by decide

/-- One state for each check, each operand at the edge of its range. -/
theorem witness_PatchChecksInOrder :
    State.reset.srcPresent = 0 ∧
    (let s := { State.reset with srcPresent := 1 }; s.srcPresent = 1 ∧ s.fmState = 0) ∧
    (let s := { patchReady with arg0 := 17 }; s.srcPresent = 1 ∧ s.fmState = 1 ∧ 17 ≤ s.arg0.toNat) ∧
    (let s := { patchReady with psetLen := 2, cfg := { Config.blank with psetMax := some 1 } };
      s.arg0.toNat < 17 ∧ ¬ ∀ m ∈ s.cfg.psetMax, s.psetLen.toNat ≤ m) ∧
    (let s := { patchReady with psetLen := 2, pset := [(0, 39), (1, 40)] };
      s.patternList = [39] ++ 40 :: [] ∧ (∀ x ∈ ([39] : List Byte), x.toNat < 40) ∧ 40 ≤ (40 : Byte).toNat ∧
      ∀ m ∈ s.cfg.psetMax, s.psetLen.toNat ≤ m) ∧
    (let s := { patchReady with stState := 2 };
      s.stState ≠ 1 ∧ (∀ x ∈ s.patternList, x.toNat < 40) ∧ ∀ m ∈ s.cfg.psetMax, s.psetLen.toNat ≤ m) ∧
    (let s := { patchReady with psetLen := 1, pset := [(0, 39)] };
      s.stState = 1 ∧ s.psetLen ≠ 0 ∧ s.pmState = 0 ∧ (∀ x ∈ s.patternList, x.toNat < 40) ∧
      ∀ m ∈ s.cfg.psetMax, s.psetLen.toNat ≤ m) := by decide

/-- The last slope. -/
theorem witness_PatchSetsUpTheFrame :
    patchReady.srcPresent = 1 ∧ patchReady.fmState = 1 ∧ patchReady.arg0.toNat < 17 ∧
      (∀ m ∈ patchReady.cfg.psetMax, patchReady.psetLen.toNat ≤ m) ∧
      (∀ x ∈ patchReady.patternList, x.toNat < 40) ∧ patchReady.stState = 1 ∧
      (patchReady.psetLen ≠ 0 → patchReady.pmState = 1) ∧
      patchReady.templates[patchReady.arg0.toNat]? = some template := by decide

/-- The `ST_PATCH` of slope 16 of `patchReady`, set up. -/
theorem witness_EveryPatchEnds :
    let s := patchReady.patchStart 16 template
    StateSound s ∧ s.phase = .patching 16 ∧ ∃ f, s.fm[16]? = some f := by
  refine ⟨⟨by decide, by unfold StoresCanonical; decide, by unfold PositionsInStreams; decide, ⟨?_, ?_, ?_, ?_⟩,
    by unfold OutSound; decide, ⟨by decide, rfl, rfl, rfl, by decide, by decide, rfl, by decide⟩⟩, rfl, _, rfl⟩
  · unfold IcmSound; decide
  · exact ⟨by decide, fun h => absurd h (by decide)⟩
  · unfold FmSound; decide
  · unfold StSound; decide

end Sys2Proof.Tests
end

section
/-! The fields of the two packed formats (30_encoding.md rules R101, R102, R104): each format is a concatenation of its
two fields, so packing and decoding are inverse because the fields partition the bits. -/

namespace Sys2Proof

/-- A concatenation as a number: the low part lies below the weight of the high part, so the `or` is a sum. -/
theorem toNat_append_eq_mul_add {m n : Nat} (hi : BitVec m) (lo : BitVec n) :
    (hi ++ lo).toNat = hi.toNat * 2 ^ n + lo.toNat := by
  rw [BitVec.toNat_append, ← Nat.shiftLeft_add_eq_or_of_lt lo.isLt, Nat.shiftLeft_eq]

/-- A field of a bit vector as a number: the bits from `start` on, cut to the field's width. -/
theorem extractLsb'_eq_ofNat_div {w : Nat} (start len : Nat) (v : BitVec w) :
    v.extractLsb' start len = BitVec.ofNat len (v.toNat / 2 ^ start) := by
  rw [BitVec.extractLsb', Nat.shiftRight_eq_div_pow]

/-! ### Format FC -/

theorem encodeHeader_toNat (light n : BitVec 4) : (encodeHeader light n).toNat = light.toNat * 16 + n.toNat :=
  toNat_append_eq_mul_add light n

@[simp] theorem headerLight_encodeHeader (light n : BitVec 4) : headerLight (encodeHeader light n) = light :=
  BitVec.extractLsb'_append_eq_left

@[simp] theorem headerCount_encodeHeader (light n : BitVec 4) : headerCount (encodeHeader light n) = n :=
  BitVec.extractLsb'_append_eq_right

@[simp] theorem decodeHeader_encodeHeader (light n : BitVec 4) :
    decodeHeader (encodeHeader light n) = .blend light n := by
  rw [decodeHeader, headerLight_encodeHeader, headerCount_encodeHeader]

/-- Bits 7:4 beside bits 3:0 are the whole byte. -/
@[simp] theorem encodeHeader_fields (h : Byte) : encodeHeader (headerLight h) (headerCount h) = h :=
  (BitVec.extractLsb'_append_extractLsb'_eq_extractLsb' rfl).trans BitVec.extractLsb'_eq_self

/-! ### Format SP -/

theorem packPixel_toNat (si : BitVec 15) (a : BitVec 9) : (packPixel si a).toNat = si.toNat * 512 + a.toNat :=
  toNat_append_eq_mul_add si a

@[simp] theorem srcIndexField_packPixel (si : BitVec 15) (a : BitVec 9) : srcIndexField (packPixel si a) = si :=
  BitVec.extractLsb'_append_eq_left

@[simp] theorem alphaField_packPixel (si : BitVec 15) (a : BitVec 9) : alphaField (packPixel si a) = a :=
  BitVec.extractLsb'_append_eq_right

@[simp] theorem decodePixel_packPixel (si : BitVec 15) (a : BitVec 9) :
    decodePixel (packPixel si a) = .srcpx si a := by
  rw [decodePixel, srcIndexField_packPixel, alphaField_packPixel]

/-- Bits 23:9 beside bits 8:0 are the whole value. -/
@[simp] theorem packPixel_fields (v : BitVec 24) : packPixel (srcIndexField v) (alphaField v) = v :=
  (BitVec.extractLsb'_append_extractLsb'_eq_extractLsb' rfl).trans BitVec.extractLsb'_eq_self

/-- The bytes of a source pixel are the packed value's digits to base 256, low byte first (R61, R102). -/
theorem encodePixel_eq_digits (si : BitVec 15) (a : BitVec 9) :
    encodePixel si a = [BitVec.ofNat 8 (packPixel si a).toNat, BitVec.ofNat 8 ((packPixel si a).toNat / 256),
      BitVec.ofNat 8 ((packPixel si a).toNat / 65536)] := by
  simp only [encodePixel, extractLsb'_eq_ofNat_div, Nat.reducePow, Nat.div_one]

/-- Settles O2: the two fields of each format partition its bits, so each direction of the round trip holds field by
field; the source's examples are evaluated. -/
theorem packingAndDecodingAreInverse : Obligations.PackingAndDecodingAreInverse := by
  unfold Obligations.PackingAndDecodingAreInverse
  refine ⟨fun light n => ⟨encodeHeader_toNat light n, decodeHeader_encodeHeader light n⟩, encodeHeader_fields,
    fun si a => ⟨packPixel_toNat si a, decodePixel_packPixel si a, encodePixel_eq_digits si a⟩, packPixel_fields, ?_⟩
  decide

end Sys2Proof
end

section
/-! The ICM unit (40_icm_lookup.md): what each turn of `ICM_LOAD`'s loop does, the run of several whole turns, and from
these the four outcomes of the load; then the address of a cube cell as a number, and the two outcomes of a lookup. -/

namespace Sys2Proof.Machine

variable {s : State}

/-! ### The loop of `ICM_LOAD` (R131) -/

variable {b : List Byte} {mx : Option Nat} {fuel n pos : Nat}

theorem exceeds_eq_false_iff : exceeds n mx = false ↔ ∀ m ∈ mx, n ≤ m := by
  cases mx <;> simp [exceeds_some]

/-- The turn at the end of the stream. -/
theorem icmCubes_at_end : icmCubes b mx (fuel + 1) n b.length = .ok [] b.length := by
  rw [icmCubes, if_pos rfl]

/-- The turn at a partial cube, which the loop meets before it tests the capacity. -/
theorem icmCubes_at_partial (hne : pos ≠ b.length) (hlt : b.length - pos < 32768) :
    icmCubes b mx (fuel + 1) n pos = .fail .formatError pos pos := by
  rw [icmCubes, if_neg hne, if_pos hlt]

/-- The turn at a whole cube beyond the capacity. -/
theorem icmCubes_at_full (hle : pos + 32768 ≤ b.length) (hx : exceeds (n + 1) mx = true) :
    icmCubes b mx (fuel + 1) n pos = .fail .capacityError n pos := by
  rw [icmCubes, if_neg (by omega), if_neg (by omega), if_pos hx]

/-- The turn at a whole cube within the capacity. -/
theorem icmCubes_at_cube (hle : pos + 32768 ≤ b.length) (hx : exceeds (n + 1) mx = false) :
    icmCubes b mx (fuel + 1) n pos = (icmCubes b mx fuel (n + 1) (pos + 32768)).bind fun rest p =>
      .ok ((b.drop pos).take 32768 ++ rest) p := by
  rw [icmCubes, if_neg (by omega), if_neg (by omega), if_neg (by simp [hx]), strBytes, if_pos hle, Rd.bind_ok]

/-- `j` turns at whole cubes within the capacity: the loop goes on behind them, with their bytes in front of what it
still answers. -/
theorem icmCubes_whole_cubes (j : Nat) (hle : pos + j * 32768 ≤ b.length) (hx : ∀ m ∈ mx, n + j ≤ m) :
    icmCubes b mx (j + fuel) n pos = (icmCubes b mx fuel (n + j) (pos + j * 32768)).bind fun rest p =>
      .ok ((b.drop pos).take (j * 32768) ++ rest) p := by
  induction j generalizing n pos with
  | zero =>
    rw [Nat.zero_add, Nat.zero_mul]
    show _ = (icmCubes b mx fuel n pos).bind fun rest p => .ok rest p
    cases icmCubes b mx fuel n pos <;> rfl
  | succ j ih =>
    have hn : n + 1 + j = n + (j + 1) := by omega
    have hpos : pos + 32768 + j * 32768 = pos + (j + 1) * 32768 := by omega
    have hfirst : exceeds (n + 1) mx = false :=
      exceeds_eq_false_iff.mpr fun m hm => le_trans (by omega) (hx m hm)
    rw [Nat.succ_add, icmCubes_at_cube (by omega) hfirst, ih (by omega) (hn ▸ hx), hn, hpos]
    cases icmCubes b mx fuel (n + (j + 1)) (pos + (j + 1) * 32768) with
    | fail c i p => rfl
    | ok rest p =>
      rw [Rd.bind_ok, Rd.bind_ok, Rd.bind_ok, ← List.append_assoc, ← List.drop_drop, ← List.take_add,
        show 32768 + j * 32768 = (j + 1) * 32768 by omega]

/-- A capacity below the whole cubes of the stream: the loop ends at the first cube too many. -/
theorem icmCubes_of_capacity_lt {m : Nat} (hm : m < b.length / 32768) :
    icmCubes b (some m) (b.length / 32768 + 1) 0 0 = .fail .capacityError m (m * 32768) := by
  rw [show b.length / 32768 + 1 = m + ((b.length / 32768 - m) + 1) by omega,
    icmCubes_whole_cubes m (by omega) (by simp), icmCubes_at_full (by omega) (by simp [exceeds_some]), Rd.bind_fail,
    Nat.zero_add, Nat.zero_add]

/-- Bytes behind the last whole cube: the loop ends at the partial cube's position. -/
theorem icmCubes_of_partial (hx : ∀ m ∈ mx, b.length / 32768 ≤ m) (hmod : b.length % 32768 ≠ 0) :
    icmCubes b mx (b.length / 32768 + 1) 0 0 =
      .fail .formatError (b.length / 32768 * 32768) (b.length / 32768 * 32768) := by
  rw [icmCubes_whole_cubes (b.length / 32768) (by omega) (by simpa using hx),
    icmCubes_at_partial (by omega) (by omega), Rd.bind_fail, Nat.zero_add]

/-- Whole cubes only: the loop answers the stream. -/
theorem icmCubes_of_whole (hx : ∀ m ∈ mx, b.length / 32768 ≤ m) (hmod : b.length % 32768 = 0) :
    icmCubes b mx (b.length / 32768 + 1) 0 0 = .ok b b.length := by
  have hlen : b.length / 32768 * 32768 = b.length := by omega
  rw [icmCubes_whole_cubes (b.length / 32768) (by omega) (by simpa using hx), hlen, Nat.zero_add b.length,
    icmCubes_at_end, Rd.bind_ok, List.append_nil, List.drop_zero, List.take_length]

/-! ### `ICM_LOAD` -/

theorem exec_icmLoad_of_loaded (h : s.icmState = 1) : exec .icmLoad s = .next (s.raise .preconditionError 0x01) :=
  congrArg Host.Outcome.next (if_pos h)

theorem exec_icmLoad_of_fail {c : Code} {info : Nat} (h : s.icmState = 0)
    (hr : icmCubes s.cfg.icmStream s.cfg.icmMaxCubes (s.cfg.icmStream.length / 32768 + 1) 0 0 = .fail c info pos) :
    exec .icmLoad s = .next (s.icmFail c info pos) := by
  show execIcmLoad s = _
  rw [execIcmLoad, if_neg (by simp [h]), hr]

theorem exec_icmLoad_of_ok {bytes : List Byte} (h : s.icmState = 0)
    (hr : icmCubes s.cfg.icmStream s.cfg.icmMaxCubes (s.cfg.icmStream.length / 32768 + 1) 0 0 = .ok bytes pos) :
    exec .icmLoad s = .next (s.icmLoadDone (bytes.length / 32768) bytes pos) := by
  show execIcmLoad s = _
  rw [execIcmLoad, if_neg (by simp [h]), hr]

/-! ### `ICM_LOOKUP` (R132, R133) -/

theorem lowByte_toNat (w : Word) : (lowByte w).toNat = w.toNat % 256 := by
  rw [lowByte, extractLsb'_eq_ofNat_div, pow_zero, Nat.div_one, BitVec.toNat_ofNat]

/-- The five top bits of a channel as a number. -/
theorem channelTop_toNat (x : Byte) : (x.extractLsb' 3 5).toNat = x.toNat / 8 := by
  have := x.isLt
  rw [extractLsb'_eq_ofNat_div, BitVec.toNat_ofNat]
  omega

/-- The cell's address is row-major in the subscripts `[r>>3][g>>3][b>>3]`. -/
theorem cubeAddress_toNat (c : Rgb) :
    (cubeAddress c).toNat = c.r.toNat / 8 * 1024 + c.g.toNat / 8 * 32 + c.b.toNat / 8 := by
  rw [cubeAddress, toNat_append_eq_mul_add, toNat_append_eq_mul_add, channelTop_toNat, channelTop_toNat,
    channelTop_toNat]
  omega

theorem paletteIndex_of_absent {c : Word} (col : Rgb) (h : s.icmCount.toNat ≤ c.toNat) :
    s.paletteIndex c col = .error (.icmAbsentFault, c) :=
  if_pos h

theorem exec_icmLookup_of_ok {v : Byte}
    (h : s.paletteIndex s.arg0 ⟨lowByte s.arg1, lowByte s.arg2, lowByte s.arg3⟩ = .ok v) :
    exec .icmLookup s = .next (s.doneWith (v.setWidth 32)) := by
  show execIcmLookup s = _
  rw [execIcmLookup, h]

theorem exec_icmLookup_of_error {c : Code} {info : Word}
    (h : s.paletteIndex s.arg0 ⟨lowByte s.arg1, lowByte s.arg2, lowByte s.arg3⟩ = .error (c, info)) :
    exec .icmLookup s = .next (s.raise c info) := by
  show execIcmLookup s = _
  rw [execIcmLookup, h]

end Sys2Proof.Machine

namespace Sys2Proof

open Sys2Proof.Machine

/-- Settles O26: the loop runs through the whole cubes that the capacity allows, and its next turn decides the outcome. -/
theorem icmLoadOutcome : Obligations.IcmLoadOutcome := by
  unfold Obligations.IcmLoadOutcome
  refine fun s => ⟨exec_icmLoad_of_loaded, fun m h0 hm hlt => ?capacity, fun h0 hx hmod => ?cut,
    fun h0 hx hmod => ?whole⟩
  case capacity => exact exec_icmLoad_of_fail h0 (hm ▸ icmCubes_of_capacity_lt hlt)
  case cut => exact exec_icmLoad_of_fail h0 (icmCubes_of_partial hx hmod)
  case whole => exact ⟨_, exec_icmLoad_of_ok h0 (icmCubes_of_whole hx hmod), Memory.read_ofList_zero _⟩

/-- Settles O27: `paletteIndex` answers a cell exactly when the cube is held, at the row-major address of its
subscripts. -/
theorem icmLookupReturnsTheCellOrFaults : Obligations.IcmLookupReturnsTheCellOrFaults := by
  unfold Obligations.IcmLookupReturnsTheCellOrFaults
  refine fun s => ⟨fun held => ?_, fun absent => exec_icmLookup_of_error (paletteIndex_of_absent _ absent)⟩
  rw [exec_icmLookup_of_ok (paletteIndex_eq_ok.mpr ⟨held, rfl⟩), cubeAddress_toNat, lowByte_toNat, lowByte_toNat,
    lowByte_toNat]
  rfl

end Sys2Proof
end

section
/-! The queries of the PM unit (41_pattern_mask.md): the checks that the four mask queries share, the fields of an entry
as numbers, and the one condition under which `apply` answers its candidate, from which its consequences follow. -/

namespace Sys2Proof.Machine

variable {s : State} {c : Code} {info : Word} {f : Byte → Word} {m x : Byte}

/-! ### The checks of a mask query (R150) -/

/-- The four mask queries differ only in what they answer for the entry. -/
theorem exec_maskQuery (s : State) {i : Instr} (hi : i ∈ [Instr.pmIgnore, .pmBrighten, .pmDarken, .pmApply]) :
    ∃ f, exec i s = .next (s.maskQuery f) := by
  simp only [List.mem_cons, List.not_mem_nil, or_false] at hi
  obtain rfl | rfl | rfl | rfl := hi <;> exact ⟨_, rfl⟩

theorem maskQuery_of_cause (h : s.maskCause = some (c, info)) : s.maskQuery f = s.raise c info := by
  rw [State.maskQuery, h]

theorem maskQuery_of_no_cause (h : s.maskCause = none) : s.maskQuery f = s.doneWith (f s.argEntry) := by
  rw [State.maskQuery, h]

theorem maskCause_of_absent (h : s.pmState = 0) : s.maskCause = some (.tableAbsentFault, 0x10) :=
  if_pos h

theorem maskCause_of_bad_id (h : s.pmState = 1) (hid : 40 ≤ s.arg0.toNat) :
    s.maskCause = some (.preconditionError, s.arg0) := by
  rw [State.maskCause, if_neg (by simp [h]), if_pos hid]

theorem maskCause_of_bad_index (h : s.pmState = 1) (hid : s.arg0.toNat < 40) (hi : 4096 ≤ s.arg1.toNat) :
    s.maskCause = some (.preconditionError, s.arg1) := by
  rw [State.maskCause, if_neg (by simp [h]), if_neg (by omega), if_pos hi]

theorem maskCause_of_in_range (h : s.pmState = 1) (hid : s.arg0.toNat < 40) (hi : s.arg1.toNat < 4096) :
    s.maskCause = none :=
  maskCause_eq_none.mpr ⟨by simp [h], hid, hi⟩

/-! ### The numbers that `apply` compares (R152, R156) -/

theorem entryIgnore_eq_one_iff : entryIgnore m = 1 ↔ m.toNat % 2 = 1 := by
  rw [entryIgnore, extractLsb'_eq_ofNat_div, pow_zero, Nat.div_one, BitVec.toNat_eq]
  exact Iff.rfl

theorem entryCandidate_toNat (m : Byte) : (entryCandidate m).toNat = m.toNat / 4 := by
  rw [entryCandidate, BitVec.toNat_ushiftRight, Nat.shiftRight_eq_div_pow]

/-- The five bits 6:2 of an input. -/
theorem window_toNat (x : Byte) : ((x >>> 2) &&& 0x1F).toNat = x.toNat / 4 % 32 := by
  rw [BitVec.toNat_and, BitVec.toNat_ushiftRight, Nat.shiftRight_eq_div_pow]
  exact Nat.and_two_pow_sub_one_eq_mod _ 5

/-- The test `candidate & 2` reads the bit of weight 2 (90_conflicts.md C1). -/
theorem and_two_ne_zero_iff : x &&& 2 ≠ 0 ↔ x.toNat / 2 % 2 = 1 := by
  have hand : x.toNat &&& 2 = (x.toNat.testBit 1).toNat * 2 := Nat.and_two_pow x.toNat 1
  rw [← BitVec.toNat_ne_iff_ne, BitVec.toNat_and, show (2 : Byte).toNat = 2 from rfl, hand,
    Nat.testBit_eq_decide_div_mod_eq, pow_one]
  simp

/-- `apply` in plain numbers, in the order of its tests. -/
theorem applyEntry_eq_ite (m x : Byte) : applyEntry m x =
    if m.toNat % 2 = 1 then x
    else if m.toNat / 4 / 2 % 2 = 1 ∧ x.toNat / 4 % 32 < m.toNat / 4 then entryCandidate m
    else if m.toNat / 4 < x.toNat / 4 % 32 then entryCandidate m
    else x := by
  simp only [applyEntry, entryIgnore_eq_one_iff, and_two_ne_zero_iff, BitVec.lt_def, entryCandidate_toNat,
    window_toNat]

theorem applyEntry_toNat (m x : Byte) : (applyEntry m x).toNat =
    if m.toNat % 2 = 1 then x.toNat
    else if m.toNat / 4 / 2 % 2 = 1 ∧ x.toNat / 4 % 32 < m.toNat / 4 then m.toNat / 4
    else if m.toNat / 4 < x.toNat / 4 % 32 then m.toNat / 4
    else x.toNat := by
  simp only [applyEntry_eq_ite, apply_ite BitVec.toNat, entryCandidate_toNat]

/-! ### When `apply` answers its candidate (R158) -/

/-- At the window `w` the entry `m` moves the input to its candidate: it does not ignore, and the candidate lies below
the window, or above it with bit 1 set. -/
def TakesCandidate (m : Byte) (w : Nat) : Prop :=
  m.toNat % 2 = 0 ∧ (m.toNat / 4 < w ∨ w < m.toNat / 4 ∧ m.toNat / 4 / 2 % 2 = 1)

theorem applyEntry_of_takes (h : TakesCandidate m (x.toNat / 4 % 32)) : applyEntry m x = entryCandidate m := by
  obtain ⟨hign, hlow | ⟨hhigh, hbit⟩⟩ := h
  · rw [applyEntry_eq_ite, if_neg (by omega), if_pos hlow, ite_self]
  · rw [applyEntry_eq_ite, if_neg (by omega), if_pos ⟨hbit, hhigh⟩]

theorem applyEntry_of_not_takes (h : ¬ TakesCandidate m (x.toNat / 4 % 32)) : applyEntry m x = x := by
  unfold TakesCandidate at h
  rw [applyEntry_eq_ite, ite_eq_left_iff]
  intro hign
  rw [if_neg (by omega), if_neg (by omega)]

/-- The two branches of `apply`, for a proof by cases. -/
theorem applyEntry_cases (m x : Byte) :
    (TakesCandidate m (x.toNat / 4 % 32) ∧ applyEntry m x = entryCandidate m) ∨
    (¬ TakesCandidate m (x.toNat / 4 % 32) ∧ applyEntry m x = x) := by
  by_cases h : TakesCandidate m (x.toNat / 4 % 32)
  · exact .inl ⟨h, applyEntry_of_takes h⟩
  · exact .inr ⟨h, applyEntry_of_not_takes h⟩

/-- A candidate is a fixed point of its entry, whichever branch is taken. -/
theorem applyEntry_candidate (m : Byte) : applyEntry m (entryCandidate m) = entryCandidate m := by
  obtain ⟨-, h⟩ | ⟨-, h⟩ := applyEntry_cases m (entryCandidate m) <;> exact h

theorem applyEntry_idempotent (m x : Byte) : applyEntry m (applyEntry m x) = applyEntry m x := by
  obtain ⟨-, h⟩ | ⟨-, h⟩ := applyEntry_cases m x
  · rw [h, applyEntry_candidate]
  · rw [h, h]

/-- Above the window the bit decides. -/
theorem applyEntry_toNat_of_above (hign : m.toNat % 2 = 0) (h : x.toNat / 4 % 32 < m.toNat / 4) :
    (applyEntry m x).toNat = if m.toNat / 4 / 2 % 2 = 1 then m.toNat / 4 else x.toNat := by
  split_ifs with hbit
  · rw [applyEntry_of_takes ⟨hign, .inr ⟨h, hbit⟩⟩, entryCandidate_toNat]
  · rw [applyEntry_of_not_takes fun ⟨_, ht⟩ => by omega]

/-! ### The mode bit, of weight 2, is read by neither field that `apply` uses -/

@[simp] theorem entryIgnore_xor_mode (m : Byte) : entryIgnore (m ^^^ 2) = entryIgnore m := by
  rw [entryIgnore, BitVec.extractLsb'_xor]
  exact BitVec.xor_zero

@[simp] theorem entryCandidate_xor_mode (m : Byte) : entryCandidate (m ^^^ 2) = entryCandidate m := by
  rw [entryCandidate, BitVec.ushiftRight_xor_distrib]
  exact BitVec.xor_zero

theorem applyEntry_xor_mode (m x : Byte) : applyEntry (m ^^^ 2) x = applyEntry m x := by
  rw [applyEntry, applyEntry, entryIgnore_xor_mode, entryCandidate_xor_mode]

end Sys2Proof.Machine

namespace Sys2Proof

open Sys2Proof.Machine

/-- Settles O31: the four queries share `chk`, whose tests are taken in order. -/
theorem maskQueriesCheckInOrder : Obligations.MaskQueriesCheckInOrder := by
  unfold Obligations.MaskQueriesCheckInOrder
  intro s i hi
  obtain ⟨f, hf⟩ := exec_maskQuery s hi
  rw [hf]
  refine ⟨fun absent => ?_, fun h hid => ?_, fun h hid hi => ?_⟩
  · rw [maskQuery_of_cause (maskCause_of_absent absent)]; rfl
  · rw [maskQuery_of_cause (maskCause_of_bad_id h hid)]; rfl
  · rw [maskQuery_of_cause (maskCause_of_bad_index h hid hi)]; rfl

/-- Settles O33: the checks pass, and the answer is `apply` in numbers. -/
theorem pmApplyIsTheOneStepClamp : Obligations.PmApplyIsTheOneStepClamp := by
  unfold Obligations.PmApplyIsTheOneStepClamp
  intro s h hid hi
  show Host.Outcome.next (s.maskQuery _) = _
  rw [maskQuery_of_no_cause (maskCause_of_in_range h hid hi), ← BitVec.ofNat_toNat, applyEntry_toNat, lowByte_toNat]
  rfl

/-- Settles O34: each consequence follows from the one condition under which the candidate is taken, which reads the
window only. -/
theorem applyConsequences : Obligations.ApplyConsequences := by
  unfold Obligations.ApplyConsequences
  intro m x
  have hm := m.isLt
  refine ⟨?result, fun hign hlow => ?below, applyEntry_toNat_of_above, fun heq => ?equal, applyEntry_idempotent m x,
    fun x' hw => ?window, fun hc => ?large, applyEntry_xor_mode m x⟩
  case result =>
    obtain ⟨-, h⟩ | ⟨-, h⟩ := applyEntry_cases m x
    · exact .inr (by rw [h, entryCandidate_toNat]; omega)
    · exact .inl h
  case below => rw [applyEntry_of_takes ⟨hign, .inl hlow⟩, entryCandidate_toNat]
  case equal => exact applyEntry_of_not_takes fun ⟨_, ht⟩ => by omega
  case window =>
    obtain ⟨ht, h⟩ | ⟨ht, h⟩ := applyEntry_cases m x
    · exact .inr (by rw [h, applyEntry_of_takes (hw ▸ ht), entryCandidate_toNat]; exact ⟨rfl, rfl⟩)
    · exact .inl ⟨h, applyEntry_of_not_takes (hw ▸ ht)⟩
  case large =>
    have habove : x.toNat / 4 % 32 < m.toNat / 4 := by omega
    exact ⟨habove, fun hign => applyEntry_toNat_of_above hign habove⟩

end Sys2Proof
end

section
/-! The operand records of a filter command (42_filtermap.md rules R190, R194, R195): the two ways each form of the
operand ends, and from these the three outcomes of `SRCPX`; then the blend function that the configuration holds
(R196). -/

namespace Sys2Proof.Machine

variable {s : State} {y slope : Nat} {si : BitVec 15} {a : BitVec 9} {p : Byte}

/-! ### The `info` of a range fault (60_exceptions.md rule R261) -/

/-- The two 16-bit halves as one number. -/
theorem packInfo_eq_ofNat (y x : Nat) : packInfo y x = BitVec.ofNat 32 (y % 65536 * 65536 + x % 65536) := by
  apply BitVec.eq_of_toNat_eq
  rw [packInfo, toNat_append_eq_mul_add, BitVec.toNat_ofNat, BitVec.toNat_ofNat, BitVec.toNat_ofNat]
  omega

/-- A source offset is narrower than its half. -/
theorem packInfo_sourceIndex (y : Nat) (si : BitVec 15) :
    packInfo y si.toNat = BitVec.ofNat 32 (y % 65536 * 65536 + si.toNat) := by
  have := si.isLt
  rw [packInfo_eq_ofNat, Nat.mod_eq_of_lt (a := si.toNat) (by omega)]

/-! ### The operand forms (R194, R195) -/

theorem fetchSrc_of_outside (h : s.baseHeight.toNat ≤ y ∨ s.baseWidth.toNat ≤ si.toNat) :
    s.fetchSrc y si = .error (.srcRangeFault, packInfo y si.toNat) :=
  if_pos h

theorem resolve_of_absent (h : s.palLen.toNat ≤ p.toNat) :
    s.resolve p = .error (.paletteRangeFault, p.setWidth 32) :=
  if_pos h

theorem resolve_of_present (h : p.toNat < s.palLen.toNat) :
    s.resolve p = .ok ((Memory.read s.pal p.toNat).getD (Config.undefColour p.toNat)) :=
  if_neg (Nat.not_le.mpr h)

theorem sourceColour_of_fetch_error {e : Cause} (h : s.fetchSrc y si = .error e) :
    s.sourceColour y si = .error e := by
  rw [State.sourceColour, h]

theorem sourceColour_of_fetch_ok (h : s.fetchSrc y si = .ok p) : s.sourceColour y si = s.resolve p := by
  rw [State.sourceColour, h]

/-! ### `SRCPX` (R190, R244) -/

theorem exec_srcpx_of_ok {rgb : Rgb} (hp : s.phase = .patching slope)
    (h : s.sourceColour s.curY.toNat si = .ok rgb) :
    exec (.srcpx si a) s = .next { s with taps := s.taps ++ [⟨a, rgb⟩] } := by
  show execSrcpx si a s = _
  rw [execSrcpx, hp, h]

theorem exec_srcpx_of_error {c : Code} {info : Word} (hp : s.phase = .patching slope)
    (h : s.sourceColour s.curY.toNat si = .error (c, info)) :
    exec (.srcpx si a) s = .next (s.patchFail c info) := by
  show execSrcpx si a s = _
  rw [execSrcpx, hp, h]

/-! ### The blend function as a parameter (R8, R196) -/

/-- Of the values given for a list the first counts. -/
theorem blendFn_replaced_of_first {c : Config} {front back : List (List Tap × Rgb)} {taps : List Tap} {colour : Rgb}
    (h : c.blendBody = .replaced (front ++ (taps, colour) :: back)) (first : ∀ e ∈ front, e.1 ≠ taps) :
    blendFn c taps = colour := by
  have hlookup : (front ++ (taps, colour) :: back).lookup taps = some colour :=
    List.lookup_eq_some_iff.mpr ⟨front, back, rfl, fun e he => bne_iff_ne.mpr (first e he).symm⟩
  rw [blendFn_replaced h, hlookup, Option.getD_some]

/-- Nothing of the configuration but the body is read. -/
theorem blendFn_congr {c c' : Config} (h : c.blendBody = c'.blendBody) (taps : List Tap) :
    blendFn c taps = blendFn c' taps := by
  rw [blendFn, blendFn, h]

end Sys2Proof.Machine

namespace Sys2Proof

open Sys2Proof.Machine

/-- Settles O42: the fetch decides first, then the palette; a fault is a failed `ST_PATCH`. -/
theorem srcpxFetchesAndResolves : Obligations.SrcpxFetchesAndResolves := by
  unfold Obligations.SrcpxFetchesAndResolves
  intro s slope si a hp p
  have fetched (hy : s.curY.toNat < s.baseHeight.toNat) (hx : si.toNat < s.baseWidth.toNat) :
      s.sourceColour s.curY.toNat si = s.resolve p :=
    sourceColour_of_fetch_ok (fetchSrc_eq_ok.mpr ⟨hy, hx, rfl⟩)
  refine ⟨fun hy hx present => ?operand, fun outside => ?outside, fun hy hx absent => ?absent⟩
  case operand => exact exec_srcpx_of_ok hp ((fetched hy hx).trans (resolve_of_present present))
  case outside =>
    rw [exec_srcpx_of_error hp (sourceColour_of_fetch_error (fetchSrc_of_outside outside)), packInfo_sourceIndex]
    rfl
  case absent =>
    rw [exec_srcpx_of_error hp ((fetched hy hx).trans (resolve_of_absent absent)), BitVec.ofNat_toNat]
    rfl

/-- Settles O54: the decided body is three lanes, a replacement is looked up in its values, and both are read from the
body alone. -/
theorem blendFunctionIsAParameter : Obligations.BlendFunctionIsAParameter := by
  unfold Obligations.BlendFunctionIsAParameter
  refine ⟨rfl, fun cfg taps decided => ?decided, fun cfg front back taps colour => blendFn_replaced_of_first,
    fun cfg cfg' taps same => blendFn_congr same taps⟩
  case decided =>
    rw [blendFn_decided decided]
    exact ⟨blendLane_toNat taps Rgb.r, blendLane_toNat taps Rgb.g, blendLane_toNat taps Rgb.b⟩

end Sys2Proof
end

section
/-! The ST unit's instructions that read no stream (43_slope_template.md): `ST_UNLOAD` from Loaded and from the other two
states (R230), `ST_ISLOADED` (R231), and `ST_PATCH` past its checks (R241, R242). -/

namespace Sys2Proof.Machine

variable {s : State}

theorem exec_stUnload_of_loaded (h : s.stState = 1) :
    exec .stUnload s = .next { s.done with templates := s.templates.map Template.clearRows, stState := 2 } := by
  show execStUnload s = _
  rw [execStUnload, if_pos h, if_pos h]

theorem exec_stUnload_of_not_loaded (h : s.stState ≠ 1) :
    exec .stUnload s = .next { (s.emit .warning .preconditionError 0x31).done with
      templates := s.templates.map Template.clearRows } := by
  show execStUnload s = _
  rw [execStUnload, if_neg h, if_neg h]
  rfl

theorem exec_stPatch_of_no_cause {t : Template} (h : s.patchCause = none) (ht : s.templates[s.arg0.toNat]? = some t) :
    exec .stPatch s = .next (s.patchStart s.arg0.toNat t) := by
  show execStPatch s = _
  rw [execStPatch, h, ht]

end Sys2Proof.Machine

namespace Sys2Proof

open Sys2Proof.Machine

/-- Settles O49: the two branches of `ST_UNLOAD`; `done` changes neither the log nor the state register, and the warning
is the only record. -/
theorem stUnloadKeepsTheHeaders : Obligations.StUnloadKeepsTheHeaders := by
  unfold Obligations.StUnloadKeepsTheHeaders
  exact fun s => ⟨exec_stUnload_of_loaded, exec_stUnload_of_not_loaded⟩

/-- Settles O50: `ST_ISLOADED` is `done(v)` with the test of `ST_STATE` as its value. -/
theorem stIsLoadedReportsTheState : Obligations.StIsLoadedReportsTheState := by
  unfold Obligations.StIsLoadedReportsTheState
  exact fun s => rfl

/-- Settles O52: the hypotheses are the conditions under which `Precheck` finds no cause, and `Setup` follows. -/
theorem patchSetsUpTheFrame : Obligations.PatchSetsUpTheFrame := by
  unfold Obligations.PatchSetsUpTheFrame
  intro s t hsrc hfm hslope hlen hids hst hpm ht
  have passed : s.patchCause = none := patchCause_eq_none.mpr
    ⟨by simp [hsrc], by simp [hfm], hslope, exceeds_eq_false_iff.mpr hlen, hids, hst, fun hne => by simp [hpm hne]⟩
  exact exec_stPatch_of_no_cause passed ht

end Sys2Proof
end

section
/-! A write to `OP` of a code that names no operation (60_exceptions.md rule R275): which codes those are, and the step
that takes the write. -/

namespace Sys2Proof.Machine

variable {s : State} {v : Nat} {rest : List HostEvent}

/-- The codes that name an operation are the thirteen of 30_encoding.md rule R111. -/
theorem decodeOperation_eq_none_iff {c : Byte} :
    decodeOperation c = none ↔
      c.toNat ∉ [0x01, 0x02, 0x10, 0x11, 0x12, 0x13, 0x14, 0x15, 0x20, 0x30, 0x31, 0x32, 0x33] := by
  unfold decodeOperation
  split
  case h_14 => simp_all
  all_goals simp [*]

/-- A write to `OP` starts an operation in the state from which the write is taken. -/
theorem hostControl_of_writeOp (h : s.pending = .writeReg 0 v :: rest) :
    s.hostControl = ({ s with pending := rest } : State).startOperation v := by
  rw [State.hostControl, h]
  rfl

theorem startOperation_of_unassigned (h : decodeOperation (BitVec.ofNat 8 v) = none) :
    s.startOperation v = .act (.next (s.illegalOperation (BitVec.ofNat 8 v))) := by
  rw [State.startOperation, h]

/-- The `info` of the record is the low 8 bits of the written value. -/
theorem illegalOperation_ofNat (s : State) (v : Nat) :
    s.illegalOperation (BitVec.ofNat 8 v) = s.raise .illegalOperation (BitVec.ofNat 32 (v % 256)) := by
  rw [State.illegalOperation, ← BitVec.ofNat_toNat, BitVec.toNat_ofNat]

end Sys2Proof.Machine

namespace Sys2Proof

open Sys2Proof.Machine

/-- Settles O9: the write is taken, its code decodes to no operation, and the step is `raise` with that code. -/
theorem unassignedCodesAreIllegal : Obligations.UnassignedCodesAreIllegal := by
  unfold Obligations.UnassignedCodesAreIllegal
  intro s v rest idle hpending unassigned
  have hcode : decodeOperation (BitVec.ofNat 8 v) = none :=
    decodeOperation_eq_none_iff.mpr (by rwa [BitVec.toNat_ofNat])
  rw [step_idle idle, hostControl_of_writeOp hpending, startOperation_of_unassigned hcode, illegalOperation_ofNat]
  rfl

end Sys2Proof
end

section
/-! What keeps a Loaded unit as it is (70_reset_and_hazards.md rule R301): the four units as one value, what each
instruction and each host access does to it, and from these what a step that is not a reset does. -/

namespace Sys2Proof.Machine

variable {s t : State} {i : Instr} {P Q : Prop}

/-! ### The units -/

/-- The ICM unit: its state register and its store. -/
def State.icmUnit (s : State) : BitVec 1 × Word × Memory := (s.icmState, s.icmCount, s.icm)

/-- The PM unit. -/
def State.pmUnit (s : State) : BitVec 1 × Memory := (s.pmState, s.pm)

/-- The FM unit. -/
def State.fmUnit (s : State) : BitVec 1 × List Filtermap := (s.fmState, s.fm)

/-- What R301 speaks of: the three units that stay Loaded, and `ST_STATE`. -/
def State.units (s : State) := (s.icmUnit, s.pmUnit, s.fmUnit, s.stState)

/-- From `s` to `t` each of the three units changes from Unloaded only, and `ST_STATE` only where `P` allows it. -/
structure UnitsKept (s t : State) (P : Prop) : Prop where
  icm : s.icmState = 0 ∨ t.icmUnit = s.icmUnit
  pm : s.pmState = 0 ∨ t.pmUnit = s.pmUnit
  fm : s.fmState = 0 ∨ t.fmUnit = s.fmUnit
  st : P ∨ t.stState = s.stState

theorem UnitsKept.of_units_eq (h : t.units = s.units) : UnitsKept s t P := by
  simp only [State.units, Prod.mk.injEq] at h
  obtain ⟨hicm, hpm, hfm, hst⟩ := h
  exact ⟨.inr hicm, .inr hpm, .inr hfm, .inr hst⟩

theorem UnitsKept.imp (h : UnitsKept s t P) (hpq : P → Q) : UnitsKept s t Q :=
  { h with st := h.st.imp_left hpq }

/-- Taking the host's event is no change of a unit. -/
theorem UnitsKept.of_pending {rest : List HostEvent} (h : UnitsKept { s with pending := rest } t P) :
    UnitsKept s t P :=
  ⟨h.icm, h.pm, h.fm, h.st⟩

theorem UnitsKept.icm_of_loaded (h : UnitsKept s t P) (loaded : s.icmState = 1) :
    t.icmState = 1 ∧ t.icmCount = s.icmCount ∧ t.icm = s.icm := by
  have same := h.icm.resolve_left (by simp [loaded])
  simpa only [State.icmUnit, Prod.mk.injEq, loaded] using same

theorem UnitsKept.pm_of_loaded (h : UnitsKept s t P) (loaded : s.pmState = 1) :
    t.pmState = 1 ∧ t.pm = s.pm := by
  have same := h.pm.resolve_left (by simp [loaded])
  simpa only [State.pmUnit, Prod.mk.injEq, loaded] using same

theorem UnitsKept.fm_of_loaded (h : UnitsKept s t P) (loaded : s.fmState = 1) :
    t.fmState = 1 ∧ t.fm = s.fm := by
  have same := h.fm.resolve_left (by simp [loaded])
  simpa only [State.fmUnit, Prod.mk.injEq, loaded] using same

/-! ### What an instruction does to the units -/

theorem units_maskQuery (s : State) (f : Byte → Word) : (s.maskQuery f).units = s.units := by
  obtain ⟨c, info, h⟩ | ⟨v, h⟩ := maskQuery_cases s f <;> rw [h] <;> rfl

/-- A load changes its unit from Unloaded only, and the other instructions but `ST_LOAD` and `ST_UNLOAD` change none. -/
theorem exec_unitsKept (h : exec i s = .next t) : UnitsKept s t (i = .stLoad ∨ i = .stUnload) := by
  cases i with
  | icmLoad =>
    obtain ⟨-, rfl⟩ | ⟨unloaded, c, info, p, -, rfl⟩ | ⟨unloaded, bytes, k, -, -, -, rfl⟩ := execIcmLoad_cases h
    · exact .of_units_eq rfl
    · exact ⟨.inl unloaded, .inr rfl, .inr rfl, .inr rfl⟩
    · exact ⟨.inl unloaded, .inr rfl, .inr rfl, .inr rfl⟩
  | pmLoad =>
    obtain ⟨-, rfl⟩ | ⟨unloaded, c, info, p, -, rfl⟩ | ⟨unloaded, bytes, p, -, -, rfl⟩ := execPmLoad_cases h
    · exact .of_units_eq rfl
    · exact ⟨.inr rfl, .inl unloaded, .inr rfl, .inr rfl⟩
    · exact ⟨.inr rfl, .inl unloaded, .inr rfl, .inr rfl⟩
  | fmLoad =>
    obtain ⟨-, rfl⟩ | ⟨unloaded, c, info, p, -, rfl⟩ | ⟨unloaded, fm, p, -, -, rfl⟩ := execFmLoad_cases h
    · exact .of_units_eq rfl
    · exact ⟨.inr rfl, .inr rfl, .inl unloaded, .inr rfl⟩
    · exact ⟨.inr rfl, .inr rfl, .inl unloaded, .inr rfl⟩
  | stLoad =>
    obtain ⟨-, rfl⟩ | ⟨-, c, info, p, -, rfl⟩ | ⟨-, ts, p, -, -, -, rfl⟩ := execStLoad_cases h
    all_goals exact ⟨.inr rfl, .inr rfl, .inr rfl, .inl (.inl rfl)⟩
  | stUnload =>
    by_cases loaded : s.stState = 1
    · cases (exec_stUnload_of_loaded loaded).symm.trans h
      exact ⟨.inr rfl, .inr rfl, .inr rfl, .inl (.inr rfl)⟩
    · cases (exec_stUnload_of_not_loaded loaded).symm.trans h
      exact .of_units_eq rfl
  | pmIgnore | pmBrighten | pmDarken | pmApply =>
    cases h; exact .of_units_eq (units_maskQuery s _)
  | icmLookup => obtain ⟨c, info, rfl⟩ | ⟨v, rfl⟩ := execIcmLookup_cases h <;> exact .of_units_eq rfl
  | pmGetIcm => obtain ⟨c, info, rfl⟩ | ⟨recs, v, rfl⟩ := execPmGetIcm_cases h <;> exact .of_units_eq rfl
  | stIsLoaded => cases h; exact .of_units_eq rfl
  | stPatch =>
    obtain ⟨c, info, -, rfl⟩ | ⟨-, tpl, -, rfl⟩ := execStPatch_cases h <;> exact .of_units_eq rfl
  | srcpx =>
    obtain ⟨-, ⟨c, info, rfl⟩ | ⟨rgb, rfl⟩⟩ := execSrcpx_cases h <;> exact .of_units_eq rfl
  | blend =>
    obtain ⟨-, -, ⟨recs, c, info, rfl⟩ | ⟨recs, f, a, idx, -, -, rfl⟩⟩ := execBlend_cases h <;>
      exact .of_units_eq rfl

/-! ### What a host access does to the units -/

theorem units_writeReg (s : State) (r : BitVec 4) (v : Nat) : (s.writeReg r v).units = s.units := by
  unfold State.writeReg
  split <;> rfl

theorem units_deliver (s : State) (v : Option Word) : (s.deliver v).units = s.units := by
  cases v <;> rfl

/-- The state and count registers of the units are read-only to the host, and no host access but reset reaches their
stores. -/
theorem units_of_serve {e : HostEvent} (he : e ≠ .reset) (h : s.serve e = .next t) : t.units = s.units := by
  cases e with
  | writeReg r v => cases h; exact units_writeReg s r v
  | readReg r =>
    cases hv : s.regValue r with
    | none => simp [State.serve, hv] at h
    | some v =>
      simp only [State.serve, hv, Host.Outcome.next.injEq] at h
      rw [← h, units_deliver]
  | readBase f | readOut f => cases h; exact units_deliver s _
  | writeBase f v | writePal p c | writePset j id => cases h; rfl
  | reset => exact absurd rfl he

/-! ### What a step does to the units -/

/-- An operation is decoded from its own code only. -/
theorem encode_of_decodeOperation {c : Byte} (h : decodeOperation c = some i) : encode i = [c] := by
  unfold decodeOperation at h
  split at h <;> simp only [Option.some.injEq, reduceCtorEq] at h
  all_goals
    subst h
    exact congrArg (fun b => [b]) (BitVec.eq_of_toNat_eq (Eq.symm ‹_›))

/-- What a host write must be to start `ST_LOAD` or `ST_UNLOAD`. -/
theorem code_of_stLoad_or_stUnload {v : Nat} (h : decodeOperation (BitVec.ofNat 8 v) = some i)
    (hi : i = .stLoad ∨ i = .stUnload) : v % 256 = 0x30 ∨ v % 256 = 0x31 := by
  have hcode := encode_of_decodeOperation h
  rw [← BitVec.toNat_ofNat v 8]
  obtain rfl | rfl := hi
  · exact .inl (congrArg BitVec.toNat (List.cons.inj hcode).1).symm
  · exact .inr (congrArg BitVec.toNat (List.cons.inj hcode).1).symm

/-- The step starts `ST_LOAD` or `ST_UNLOAD`: the two operations that may change `ST_STATE`. -/
def StartsStLoadOrUnload (s : State) : Prop :=
  s.phase = .idle ∧ ∃ v rest, s.pending = .writeReg 0 v :: rest ∧ (v % 256 = 0x30 ∨ v % 256 = 0x31)

theorem step_unitsKept_of_idle (idle : s.phase = .idle) (noReset : s.pending.head? ≠ some .reset)
    (h : step s = .next t) : UnitsKept s t (StartsStLoadOrUnload s) := by
  obtain ⟨-, hs⟩ | ⟨v, rest, i, hp, hi, hs⟩ | ⟨v, rest, -, -, hs⟩ | ⟨e, rest, hp, -, hs⟩ := step_idle_cases idle
  all_goals rw [hs] at h
  case inl => cases h; exact .of_units_eq rfl
  case inr.inl =>
    exact (exec_unitsKept h).of_pending.imp fun hst => ⟨idle, v, rest, hp, code_of_stLoad_or_stUnload hi hst⟩
  case inr.inr.inl => cases h; exact .of_units_eq rfl
  case inr.inr.inr =>
    have he : e ≠ .reset := fun he => noReset (by rw [hp, he, List.head?_cons])
    have same := units_of_serve he h
    exact .of_units_eq same

/-- An `ST_PATCH` runs no load. -/
theorem step_unitsKept_of_patching {slope : Nat} (hp : s.phase = .patching slope) (h : step s = .next t) :
    UnitsKept s t False := by
  obtain ⟨f, -, -, hs⟩ | ⟨f, row, -, -, -, -, hs⟩ | ⟨f, row, c, i, -, -, -, -, -, hi, hs⟩ | ⟨-, hs⟩ :=
    step_patching_cases hp
  all_goals rw [hs] at h
  case inl => cases h; exact .of_units_eq rfl
  case inr.inl => cases h; exact .of_units_eq rfl
  case inr.inr.inl =>
    refine (exec_unitsKept h).imp ?_
    obtain ⟨p, -, -, rfl⟩ | ⟨-, rfl⟩ := nextOfCommand_cases hi <;> simp
  case inr.inr.inr => cases h

/-- Every step that is not a reset. -/
theorem step_unitsKept (noReset : s.phase = .idle → s.pending.head? ≠ some .reset) (h : step s = .next t) :
    UnitsKept s t (StartsStLoadOrUnload s) := by
  cases hp : s.phase with
  | idle => exact step_unitsKept_of_idle hp (noReset hp) h
  | patching slope => exact (step_unitsKept_of_patching hp h).imp False.elim

end Sys2Proof.Machine

namespace Sys2Proof

open Sys2Proof.Machine

/-- Settles O17: a load changes its unit from Unloaded only, no other step but a reset changes the three units, and
`ST_STATE` changes only in the step that starts `ST_LOAD` or `ST_UNLOAD`. -/
theorem loadedUnitsStayUntilReset : Obligations.LoadedUnitsStayUntilReset := by
  unfold Obligations.LoadedUnitsStayUntilReset
  intro s t h noReset
  have kept := step_unitsKept noReset h
  exact ⟨kept.icm_of_loaded, kept.pm_of_loaded, kept.fm_of_loaded, fun moved => kept.st.resolve_right moved⟩

end Sys2Proof
end

section
/-! The formats and the stream primitives as bytes: a little-endian value is the concatenation of its bytes, so the
decoders and the encoders are inverse byte by byte (30_encoding.md rules R101, R102, R104, R111; 20_memory.md rules R61 to
R64, R69). -/

namespace Sys2Proof

/-! ### Values and their bytes -/

theorem le16_bytes (v : Half) : le16 (v.extractLsb' 0 8) (v.extractLsb' 8 8) = v :=
  (BitVec.extractLsb'_append_extractLsb'_eq_extractLsb' rfl).trans BitVec.extractLsb'_eq_self

theorem le24_bytes (v : BitVec 24) :
    le24 (v.extractLsb' 0 8) (le16 (v.extractLsb' 8 8) (v.extractLsb' 16 8)) = v := by
  have hhigh : le16 (v.extractLsb' 8 8) (v.extractLsb' 16 8) = v.extractLsb' 8 16 :=
    BitVec.extractLsb'_append_extractLsb'_eq_extractLsb' rfl
  rw [hhigh]
  exact (BitVec.extractLsb'_append_extractLsb'_eq_extractLsb' rfl).trans BitVec.extractLsb'_eq_self

theorem le16_toNat (x y : Byte) : (le16 x y).toNat = x.toNat + 256 * y.toNat := by
  rw [le16, toNat_append_eq_mul_add]
  omega

theorem le24_toNat (x y z : Byte) : (le24 x (le16 y z)).toNat = x.toNat + 256 * (y.toNat + 256 * z.toNat) := by
  rw [le24, toNat_append_eq_mul_add, le16_toNat]
  omega

theorem le32_toNat (x y z w : Byte) :
    (le32 x y z w).toNat = x.toNat + 256 * y.toNat + 65536 * (z.toNat + 256 * w.toNat) := by
  rw [le32, toNat_append_eq_mul_add, toNat_append_eq_mul_add, toNat_append_eq_mul_add]
  omega

theorem le32_bytes (v : Word) : le32 (v.extractLsb' 0 8) (v.extractLsb' 8 8) (v.extractLsb' 16 8)
    (v.extractLsb' 24 8) = v := by
  apply BitVec.eq_of_toNat_eq
  have hv := v.isLt
  simp only [le32_toNat, extractLsb'_eq_ofNat_div, BitVec.toNat_ofNat]
  omega

/-- The three bytes of a packed pixel are the bytes it was read from. -/
theorem encodePixel_fields_le24 (x y z : Byte) :
    encodePixel (srcIndexField (le24 x (le16 y z))) (alphaField (le24 x (le16 y z))) = [x, y, z] := by
  have hx := x.isLt
  have hy := y.isLt
  have hz := z.isLt
  have byte_eq {a : Nat} {b : Byte} (h : a % 256 = b.toNat) : BitVec.ofNat 8 a = b :=
    BitVec.eq_of_toNat_eq (by rw [BitVec.toNat_ofNat, h])
  rw [encodePixel_eq_digits, packPixel_fields, le24_toNat, byte_eq (b := x) (by omega),
    byte_eq (b := y) (by omega), byte_eq (b := z) (by omega)]

/-! ### Decoders and encoders -/

/-- Settles O3: each format's fields come back from the packed value, and each code is its operation's own. -/
theorem decodeOfEncodeIsTheInstruction : Obligations.DecodeOfEncodeIsTheInstruction := by
  unfold Obligations.DecodeOfEncodeIsTheInstruction
  intro i rest
  cases i with
  | blend light n => exact congrArg (fun d => Except.ok (d, rest)) (decodeHeader_encodeHeader light n)
  | srcpx si a =>
    show Except.ok (decodePixel (le24 _ (le16 _ _)), rest) = _
    rw [le24_bytes, decodePixel_packPixel]
  | _ => rfl

/-- Settles O4: a header byte and a pixel's value are packed from their own fields, and an operation is decoded from its
own code only. -/
theorem encodeOfDecodeIsTheBytes : Obligations.EncodeOfDecodeIsTheBytes := by
  unfold Obligations.EncodeOfDecodeIsTheBytes
  intro f bytes rest i h
  unfold decode at h
  split at h
  case h_1 hd tail =>
    cases h
    exact ⟨congrArg (· :: _) (encodeHeader_fields hd).symm, rfl⟩
  case h_2 b0 b1 b2 tail =>
    cases h
    exact ⟨congrArg (· ++ _) (encodePixel_fields_le24 b0 b1 b2).symm, rfl⟩
  case h_3 c tail =>
    cases hd : decodeOperation c with
    | none => simp [hd] at h
    | some j =>
      simp only [hd, Except.ok.injEq, Prod.mk.injEq] at h
      obtain ⟨rfl, rfl⟩ := h
      exact ⟨by rw [Machine.encode_of_decodeOperation hd]; rfl, Machine.decodeOperation_format hd⟩
  case h_4 => cases h

/-- Settles O1: the words are evaluated. -/
theorem wordsFromTheTablesDecode : Obligations.WordsFromTheTablesDecode := by
  unfold Obligations.WordsFromTheTablesDecode
  decide

end Sys2Proof

namespace Sys2Proof.Machine

/-! ### The primitives, by the numbers in the stream -/

variable {b : List Byte} {pos v : Nat}

/-- A half in the stream is two bytes of it. -/
theorem halfAt_eq_some_iff : halfAt b pos = some v ↔
    ∃ x y : Byte, b[pos]? = some x ∧ b[pos + 1]? = some y ∧ x.toNat + 256 * y.toNat = v := by
  unfold halfAt
  cases b[pos]? <;> cases b[pos + 1]? <;> simp

/-- A word in the stream is two halves of it. -/
theorem wordAt_eq_some_iff : wordAt b pos = some v ↔
    ∃ x y, halfAt b pos = some x ∧ halfAt b (pos + 2) = some y ∧ x + 65536 * y = v := by
  unfold wordAt
  cases halfAt b pos <;> cases halfAt b (pos + 2) <;> simp

theorem halfAt_lt (h : halfAt b pos = some v) : v < 65536 := by
  obtain ⟨x, y, -, -, rfl⟩ := halfAt_eq_some_iff.mp h
  have := x.isLt
  have := y.isLt
  omega

theorem wordAt_lt (h : wordAt b pos = some v) : v < 4294967296 := by
  obtain ⟨x, y, hx, hy, rfl⟩ := wordAt_eq_some_iff.mp h
  have := halfAt_lt hx
  have := halfAt_lt hy
  omega

theorem strU8_of_byte {x : Byte} (h : b[pos]? = some x) : strU8 b pos = .ok x (pos + 1) := by
  rw [strU8_eq, h]

theorem strU16_of_halfAt (h : halfAt b pos = some v) : strU16 b pos = .ok (BitVec.ofNat 16 v) (pos + 2) := by
  obtain ⟨x, y, hx, hy, rfl⟩ := halfAt_eq_some_iff.mp h
  rw [strU16_of_bytes hx hy, ← le16_toNat, BitVec.ofNat_toNat, BitVec.setWidth_eq]

theorem strU32_of_wordAt (h : wordAt b pos = some v) : strU32 b pos = .ok (BitVec.ofNat 32 v) (pos + 4) := by
  obtain ⟨lo, hi, hlo, hhi, rfl⟩ := wordAt_eq_some_iff.mp h
  obtain ⟨x, y, hx, hy, rfl⟩ := halfAt_eq_some_iff.mp hlo
  obtain ⟨z, w, hz, hw, rfl⟩ := halfAt_eq_some_iff.mp hhi
  rw [strU32_of_bytes hx hy hz hw, ← le32_toNat, BitVec.ofNat_toNat, BitVec.setWidth_eq]

/-- A stream with the half's two bytes in it holds one there. -/
theorem exists_halfAt (h : pos + 2 ≤ b.length) : ∃ v, halfAt b pos = some v :=
  ⟨_, halfAt_eq_some_iff.mpr ⟨_, _, List.getElem?_eq_getElem (by omega), List.getElem?_eq_getElem (by omega), rfl⟩⟩

theorem exists_wordAt (h : pos + 4 ≤ b.length) : ∃ v, wordAt b pos = some v := by
  obtain ⟨x, hx⟩ := exists_halfAt (b := b) (pos := pos) (by omega)
  obtain ⟨y, hy⟩ := exists_halfAt (b := b) (pos := pos + 2) (by omega)
  exact ⟨_, wordAt_eq_some_iff.mpr ⟨x, y, hx, hy, rfl⟩⟩

/-! ### The primitives at the end of the stream (R68) -/

theorem strU8_of_cut (h : b.length < pos + 1) : strU8 b pos = .fail .ioError pos pos := by
  rw [strU8_eq, List.getElem?_eq_none (by omega)]

/-- Fewer than two bytes from the position on. -/
theorem strU16_of_cut (h : b.length < pos + 2) : strU16 b pos = .fail .ioError pos pos := by
  have hl : (b.drop pos).length = b.length - pos := List.length_drop
  unfold strU16
  split
  case h_1 heq => rw [heq, List.length_cons, List.length_cons] at hl; omega
  case h_2 => rfl

/-- Fewer than four bytes from the position on. -/
theorem strU32_of_cut (h : b.length < pos + 4) : strU32 b pos = .fail .ioError pos pos := by
  have hl : (b.drop pos).length = b.length - pos := List.length_drop
  unfold strU32
  split
  case h_1 heq => rw [heq] at hl; simp only [List.length_cons] at hl; omega
  case h_2 => rfl

theorem strBytes_of_le {n : Nat} (h : pos + n ≤ b.length) :
    strBytes b n pos = .ok ((b.drop pos).take n) (pos + n) := if_pos h

theorem strBytes_of_cut {n : Nat} (h : b.length < pos + n) : strBytes b n pos = .fail .ioError pos pos :=
  if_neg (by omega)

theorem strSeek_of_le {target : Nat} (h : target ≤ b.length) : strSeek b target pos = .ok () target := if_pos h

theorem strSeek_of_cut {target : Nat} (h : b.length < target) :
    strSeek b target pos = .fail .ioError target pos := if_neg (by omega)

end Sys2Proof.Machine

namespace Sys2Proof

open Sys2Proof.Machine

/-- Settles O55: each primitive by the bytes it needs, which the stream holds or does not. -/
theorem streamReadsFailBeyondTheEnd : Obligations.StreamReadsFailBeyondTheEnd := by
  unfold Obligations.StreamReadsFailBeyondTheEnd
  refine fun b pos => ⟨fun x => strU8_of_byte, strU8_of_cut, fun v => strU16_of_halfAt, strU16_of_cut,
    fun v => strU32_of_wordAt, strU32_of_cut, fun n hn => ?run, fun n => strBytes_of_cut, fun p => strSeek_of_le,
    fun p => strSeek_of_cut⟩
  case run =>
    refine ⟨_, strBytes_of_le hn, by rw [List.length_take, List.length_drop]; omega, fun i hi => ?_⟩
    rw [List.getElem?_take_of_lt hi, List.getElem?_drop]

end Sys2Proof
end

section
/-! The FM stream read by read (42_filtermap.md rules R181 to R183): what it is for a reader to consume a list of reads,
whole or up to a cut, and that `FM_LOAD`'s readers are built from readers that do. -/

namespace Sys2Proof.Machine

variable {α β : Type} {b : List Byte} {pos : Nat}

/-! ### Readers that consume a list of reads -/

/-- The reader `f` of the stream `b` consumes the given reads and answers `x`: where the stream holds all their bytes it
advances by them, and where the stream ends inside one of them it raises `IOError` with that read's position (20_memory.md
rule R68). -/
structure Consumes (b : List Byte) (f : Nat → Rd α) (reads : List (List Byte)) (x : α) : Prop where
  whole : ∀ pos after, b.drop pos = reads.flatten ++ after → f pos = .ok x (pos + reads.flatten.length)
  cut : ∀ pos done read toCome part, reads = done ++ read :: toCome → part.length < read.length →
    b.drop pos = done.flatten ++ part →
    f pos = .fail .ioError (pos + done.flatten.length) (pos + done.flatten.length)

/-- Beyond what has been read lies what is still to read. -/
theorem drop_add_of_drop_eq_append {front back : List Byte} (h : b.drop pos = front ++ back) :
    b.drop (pos + front.length) = back := by
  rw [← List.drop_drop, h, List.drop_left]

theorem Consumes.pure (x : α) : Consumes b (fun pos => .ok x pos) [] x where
  whole := fun _ _ _ => rfl
  cut := fun _ done _ _ _ hsplit => absurd hsplit.symm (by simp)

/-- A reader of a single read. -/
theorem Consumes.single {f : Nat → Rd α} {bytes : List Byte} {x : α}
    (whole : ∀ pos after, b.drop pos = bytes ++ after → f pos = .ok x (pos + bytes.length))
    (cut : ∀ pos, (b.drop pos).length < bytes.length → f pos = .fail .ioError pos pos) :
    Consumes b f [bytes] x where
  whole := by simpa using whole
  cut := fun pos done read toCome part hsplit hlt hdrop => by
    obtain ⟨rfl, hsplit⟩ : done = [] ∧ [bytes] = read :: toCome := by
      cases done with
      | nil => exact ⟨rfl, hsplit⟩
      | cons d ds => simp at hsplit
    obtain ⟨rfl, -⟩ := List.cons.inj hsplit
    exact cut pos (by rw [hdrop]; exact hlt)

/-- One reader, then another: a cut lies in the reads of the one or of the other. -/
theorem Consumes.bind {f : Nat → Rd α} {g : α → Nat → Rd β} {front back : List (List Byte)} {x : α} {y : β}
    (hf : Consumes b f front x) (hg : Consumes b (g x) back y) :
    Consumes b (fun pos => (f pos).bind g) (front ++ back) y where
  whole := fun pos after h => by
    rw [List.flatten_append, List.append_assoc] at h
    rw [hf.whole pos _ h, Rd.bind_ok, hg.whole _ _ (drop_add_of_drop_eq_append h), List.flatten_append,
      List.length_append, Nat.add_assoc]
  cut := fun pos done read toCome part hsplit hlt h => by
    obtain ⟨rest, hfront, hback⟩ | ⟨rest, hdone, hback⟩ := List.append_eq_append_iff.mp hsplit
    · rw [hfront, List.flatten_append, List.append_assoc] at h
      rw [hf.whole pos _ h, Rd.bind_ok, hg.cut _ rest read toCome part hback hlt (drop_add_of_drop_eq_append h),
        hfront, List.flatten_append, List.length_append, Nat.add_assoc]
    · cases rest with
      | nil =>
        rw [List.append_nil] at hdone
        subst hdone
        rw [hf.whole pos part h, Rd.bind_ok, hg.cut _ [] read toCome part hback.symm hlt
          (by simpa using drop_add_of_drop_eq_append h)]
        rfl
      | cons r rs =>
        obtain ⟨rfl, -⟩ := List.cons.inj hback
        rw [hf.cut pos done read rs part hdone hlt h, Rd.bind_fail]

/-- A reader whose value is put into another. -/
theorem Consumes.map {f : Nat → Rd α} {reads : List (List Byte)} {x : α} (h : Consumes b f reads x) (k : α → β) :
    Consumes b (fun pos => (f pos).bind fun x pos => .ok (k x) pos) reads (k x) := by
  have hk := h.bind (g := fun x pos => .ok (k x) pos) (.pure (k x))
  rwa [List.append_nil] at hk

/-- The induction over `repeatRd`: readers that consume their element's reads consume all of them in order. -/
theorem Consumes.loop {f : Nat → Nat → Rd α} {reads : α → List (List Byte)} (xs : List α) (j : Nat)
    (h : ∀ x ∈ xs, ∀ j, Consumes b (f j) (reads x) x) :
    Consumes b (fun pos => repeatRd f xs.length j pos) (xs.flatMap reads) xs := by
  induction xs generalizing j with
  | nil => exact .pure []
  | cons x xs ih =>
    have ih := ih (j + 1) fun y hy => h y (List.mem_cons_of_mem x hy)
    exact (h x List.mem_cons_self j).bind (g := fun x pos => (repeatRd f xs.length (j + 1) pos).bind
      fun ys pos => .ok (x :: ys) pos) (ih.map (x :: ·))

/-! ### The primitives -/

theorem strU8_consumes (x : Byte) : Consumes b (strU8 b) [[x]] x :=
  .single (fun pos after h => by rw [strU8, h]; rfl)
    fun pos h => strU8_of_cut (by simp only [List.length_drop, List.length_singleton] at h; omega)

theorem strU16_consumes (x y : Byte) : Consumes b (strU16 b) [[x, y]] (le16 x y) :=
  .single (fun pos after h => by rw [strU16, h]; rfl)
    fun pos h => strU16_of_cut (by simp only [List.length_drop, List.length_cons, List.length_nil] at h; omega)

theorem strU16_consumes_encode16 (v : Half) : Consumes b (strU16 b) [encode16 v] v := by
  have h := strU16_consumes (b := b) (v.extractLsb' 0 8) (v.extractLsb' 8 8)
  rwa [le16_bytes] at h

theorem strU32_consumes_encode32 (v : Word) : Consumes b (strU32 b) [encode32 v] v :=
  .single (fun pos after h => by rw [strU32, h]; exact congrArg (Rd.ok · (pos + 4)) (le32_bytes v))
    fun pos h => strU32_of_cut (by
      simp only [List.length_drop, encode32, List.length_cons, List.length_nil] at h; omega)

/-! ### The readers of `FM_LOAD` -/

/-- A source pixel is two reads: a byte, then a 2-byte unit (R183; 20_memory.md rule R69). -/
theorem readSrc_consumes (p : SrcPx) : Consumes b (readSrc b)
    [(encodePixel p.sourceIndex p.alpha).take 1, (encodePixel p.sourceIndex p.alpha).drop 1] p := by
  have value : Consumes b (strU24 b)
      [(encodePixel p.sourceIndex p.alpha).take 1, (encodePixel p.sourceIndex p.alpha).drop 1]
      (packPixel p.sourceIndex p.alpha) := by
    rw [← le24_bytes (packPixel _ _)]
    exact (strU8_consumes _).bind ((strU16_consumes _ _).bind (.pure _))
  have h := value.map fun v => (⟨srcIndexField v, alphaField v⟩ : SrcPx)
  rwa [srcIndexField_packPixel, alphaField_packPixel] at h

/-- A command is its header's read, then its records' (R182). -/
theorem readCmd_consumes {c : FilterCmd} (hc : c.WellFormed) : Consumes b (readCmd b) (cmdReads c) c := by
  refine (strU8_consumes (encodeHeader c.light c.n)).bind ?_
  have records := Consumes.loop (f := fun _ pos => readSrc b pos) c.src 0 fun p _ _ => readSrc_consumes (b := b) p
  rw [hc] at records
  rw [headerLight_encodeHeader, headerCount_encodeHeader]
  exact records.map (FilterCmd.mk c.light c.n)

variable {cfg : Config} {s : Nat}

/-- A row within `FM_MAX_ROW_CMDS` is its width's read, then its commands' (R181). -/
theorem readRow_consumes {r : FilterRow} (hr : r.WellFormed) (fits : RowFits cfg r) :
    Consumes cfg.fmStream (readRow cfg s) (rowReads r) r := by
  refine (strU16_consumes_encode16 r.width).bind ?_
  obtain ⟨hwidth, hcmds⟩ := hr
  have cmds := Consumes.loop (f := fun _ pos => readCmd cfg.fmStream pos) r.cmds 0
    fun c hc _ => readCmd_consumes (b := cfg.fmStream) (hcmds c hc)
  rw [hwidth] at cmds
  simp only [exceeds_eq_false_iff.mpr fits]
  exact cmds.map (FilterRow.mk r.width)

/-- A filtermap within the capacities is its size's read, its height's, then its rows' (R181). -/
theorem readFiltermap_consumes {f : Filtermap} (hf : f.WellFormed) (fits : FiltermapFits cfg f) :
    Consumes cfg.fmStream (readFiltermap cfg s) (filtermapReads f) f := by
  refine (strU32_consumes_encode32 f.size).bind ((strU32_consumes_encode32 f.height).bind ?_)
  obtain ⟨hheight, hrows⟩ := hf
  obtain ⟨fitsHeight, fitsRows⟩ := fits
  have rows := Consumes.loop (f := fun _ pos => readRow cfg s pos) f.rows 0
    fun r hr _ => readRow_consumes (hrows r hr) (fitsRows r hr)
  rw [hheight] at rows
  simp only [exceeds_eq_false_iff.mpr fitsHeight]
  exact rows.map (Filtermap.mk f.size f.height)

/-- Filtermaps within the capacities, one after another. -/
theorem readFiltermaps_consumes {fm : List Filtermap} (h : ∀ f ∈ fm, f.WellFormed ∧ FiltermapFits cfg f) :
    Consumes cfg.fmStream (fun pos => repeatRd (readFiltermap cfg) fm.length 0 pos) (storeReads fm) fm :=
  .loop fm 0 fun f hf _ => readFiltermap_consumes (h f hf).1 (h f hf).2

/-! ### The reads of an encoding are its bytes -/

theorem flatten_flatMap_reads {reads : α → List (List Byte)} {enc : α → List Byte} (h : ∀ x, (reads x).flatten = enc x)
    (xs : List α) : (xs.flatMap reads).flatten = xs.flatMap enc := by
  induction xs with
  | nil => rfl
  | cons x xs ih => rw [List.flatMap_cons, List.flatten_append, h, ih, List.flatMap_cons]

theorem cmdReads_flatten (c : FilterCmd) : (cmdReads c).flatten = encodeCmd c := by
  rw [cmdReads, List.flatten_cons, flatten_flatMap_reads (enc := fun p => encode (.srcpx p.sourceIndex p.alpha)), encodeCmd]
  intro p
  rw [List.flatten_cons, List.flatten_singleton, List.take_append_drop, encode]

theorem rowReads_flatten (r : FilterRow) : (rowReads r).flatten = encodeRow r := by
  rw [rowReads, List.flatten_cons, flatten_flatMap_reads cmdReads_flatten, encodeRow]

theorem filtermapReads_flatten (f : Filtermap) : (filtermapReads f).flatten = encodeFiltermap f := by
  rw [filtermapReads, List.flatten_cons, List.flatten_cons, flatten_flatMap_reads rowReads_flatten, encodeFiltermap,
    List.append_assoc]

theorem storeReads_flatten (fm : List Filtermap) : (storeReads fm).flatten = encodeFilterStore fm :=
  flatten_flatMap_reads filtermapReads_flatten fm

/-- A command's encoding is its header byte and three bytes for each record (R103). -/
theorem encodeCmd_length (c : FilterCmd) : (encodeCmd c).length = 1 + 3 * c.src.length := by
  have records : (c.src.flatMap fun p => encode (.srcpx p.sourceIndex p.alpha)).length = 3 * c.src.length := by
    induction c.src with
    | nil => rfl
    | cons p ps ih => rw [List.flatMap_cons, List.length_append, ih, List.length_cons]; simp [encode, encodePixel]; omega
  rw [encodeCmd, List.length_append, records]
  rfl

/-! ### `FM_LOAD` -/

variable {st : State}

theorem exec_fmLoad_of_loaded (h : st.fmState = 1) : exec .fmLoad st = .next (st.raise .preconditionError 0x20) :=
  congrArg Host.Outcome.next (if_pos h)

theorem exec_fmLoad_of_ok {fm : List Filtermap} (h : st.fmState = 0)
    (hr : repeatRd (readFiltermap st.cfg) 17 0 0 = .ok fm pos) : exec .fmLoad st = .next (st.fmLoadDone fm pos) := by
  show execFmLoad st = _
  rw [execFmLoad, if_neg (by simp [h]), hr]

theorem exec_fmLoad_of_fail {c : Code} {info : Nat} (h : st.fmState = 0)
    (hr : repeatRd (readFiltermap st.cfg) 17 0 0 = .fail c info pos) :
    exec .fmLoad st = .next (st.fmFail c info pos) := by
  show execFmLoad st = _
  rw [execFmLoad, if_neg (by simp [h]), hr]

/-! ### Counts beyond a capacity (R273) -/

/-- The readers of a loop in two parts. -/
theorem repeatRd_add (f : Nat → Nat → Rd α) (m n j pos : Nat) :
    repeatRd f (m + n) j pos = (repeatRd f m j pos).bind fun xs pos =>
      (repeatRd f n (j + m) pos).bind fun ys pos => .ok (xs ++ ys) pos := by
  induction m generalizing j pos with
  | zero =>
    rw [Nat.zero_add]
    show _ = (repeatRd f n j pos).bind fun ys pos => .ok ys pos
    cases repeatRd f n j pos <;> rfl
  | succ m ih =>
    rw [Nat.succ_add, repeatRd, repeatRd]
    cases f j pos with
    | fail => rfl
    | ok x p =>
      rw [Rd.bind_ok, Rd.bind_ok, ih, show j + 1 + m = j + (m + 1) by omega]
      cases repeatRd f m (j + 1) p with
      | fail => rfl
      | ok xs q =>
        simp only [Rd.bind_ok]
        cases repeatRd f n (j + (m + 1)) q <;> rfl

/-- A loop whose first readers succeed and whose next one fails. -/
theorem repeatRd_fail {f : Nat → Nat → Rd α} {xs : List α} {k n p q : Nat} {c : Code} {i : Nat} (hn : k < n)
    (hxs : repeatRd f k 0 pos = .ok xs p) (hfail : f k p = .fail c i q) : repeatRd f n 0 pos = .fail c i q := by
  obtain ⟨m, rfl⟩ := Nat.exists_eq_add_of_lt hn
  rw [Nat.add_assoc, repeatRd_add, hxs, Rd.bind_ok, Nat.zero_add, repeatRd, hfail]
  rfl

/-- A filtermap whose row count is beyond `FM_MAX_ROWS`. -/
theorem readFiltermap_of_many_rows {size height : Word} {after : List Byte}
    (hx : exceeds height.toNat cfg.fmMaxRows = true)
    (h : cfg.fmStream.drop pos = encode32 size ++ (encode32 height ++ after)) :
    readFiltermap cfg s pos = .fail .capacityError s (pos + 4 + 4) := by
  have hsize := (strU32_consumes_encode32 size).whole pos _ (by simpa using h)
  have hheight := (strU32_consumes_encode32 height).whole (pos + 4) after
    (by rw [List.flatten_singleton]; exact drop_add_of_drop_eq_append h)
  rw [readFiltermap, hsize, Rd.bind_ok]
  show (strU32 _ (pos + 4)).bind _ = _
  rw [hheight, Rd.bind_ok, if_pos hx]
  rfl

/-- A row whose command count is beyond `FM_MAX_ROW_CMDS`. -/
theorem readRow_of_many_cmds {width : Half} {after : List Byte} (hx : exceeds width.toNat cfg.fmMaxRowCmds = true)
    (h : cfg.fmStream.drop pos = encode16 width ++ after) :
    readRow cfg s pos = .fail .capacityError s (pos + 2) := by
  have hwidth := (strU16_consumes_encode16 width).whole pos after (by simpa using h)
  rw [readRow, hwidth, Rd.bind_ok, if_pos hx]
  rfl

/-- A filtermap with such a row, after rows that fit. -/
theorem readFiltermap_of_many_cmds {size height : Word} {rows : List FilterRow} {width : Half} {after : List Byte}
    (hheight : exceeds height.toNat cfg.fmMaxRows = false) (hrows : rows.length < height.toNat)
    (fits : ∀ r ∈ rows, r.WellFormed ∧ RowFits cfg r) (hx : exceeds width.toNat cfg.fmMaxRowCmds = true)
    (h : cfg.fmStream.drop pos =
      encode32 size ++ (encode32 height ++ (rows.flatMap encodeRow ++ (encode16 width ++ after)))) :
    readFiltermap cfg s pos = .fail .capacityError s (pos + 4 + 4 + (rows.flatMap encodeRow).length + 2) := by
  have h1 : cfg.fmStream.drop (pos + 4) = _ := drop_add_of_drop_eq_append h
  have h2 : cfg.fmStream.drop (pos + 4 + 4) = _ := drop_add_of_drop_eq_append h1
  have hsize := (strU32_consumes_encode32 size).whole pos _ (by simpa using h)
  have hcount := (strU32_consumes_encode32 height).whole (pos + 4) _ (by simpa using h1)
  have hread := (Consumes.loop (f := fun _ pos => readRow cfg s pos) rows 0
    fun r hr _ => readRow_consumes (fits r hr).1 (fits r hr).2).whole (pos + 4 + 4) _
      (by rw [flatten_flatMap_reads rowReads_flatten]; exact h2)
  rw [flatten_flatMap_reads rowReads_flatten] at hread
  have hrow : readRow cfg s (pos + 4 + 4 + (rows.flatMap encodeRow).length) = _ :=
    readRow_of_many_cmds hx (drop_add_of_drop_eq_append h2)
  rw [readFiltermap, hsize, Rd.bind_ok]
  show (strU32 _ (pos + 4)).bind _ = _
  rw [hcount, Rd.bind_ok, if_neg (by simp [hheight])]
  show (repeatRd _ _ _ (pos + 4 + 4)).bind _ = _
  rw [repeatRd_fail hrows hread hrow, Rd.bind_fail]

end Sys2Proof.Machine

namespace Sys2Proof

open Sys2Proof.Machine

/-- Settles O5: the command's reader consumes the command's reads, which are its encoding. -/
theorem commandDecodesFromItsEncoding : Obligations.CommandDecodesFromItsEncoding := by
  unfold Obligations.CommandDecodesFromItsEncoding
  intro c before after hc
  have h := (readCmd_consumes (b := before ++ encodeCmd c ++ after) hc).whole before.length after
    (by rw [List.append_assoc, List.drop_left, cmdReads_flatten])
  rwa [cmdReads_flatten, encodeCmd_length, hc] at h

/-- Settles O39: the load's readers consume the store's reads, which are its encoding. -/
theorem fmLoadReadsTheEncodedStore : Obligations.FmLoadReadsTheEncodedStore := by
  unfold Obligations.FmLoadReadsTheEncodedStore
  intro s fm after unloaded ⟨hlen, hfm⟩ hstream fits
  have h := (readFiltermaps_consumes fun f hf => ⟨hfm f hf, fits f hf⟩).whole 0 after
    (by rw [storeReads_flatten, List.drop_zero, hstream])
  rw [hlen, storeReads_flatten, Nat.zero_add] at h
  exact exec_fmLoad_of_ok unloaded h

/-- Settles O56: the same readers, at a stream that ends inside a read. -/
theorem fmLoadOfACutStreamIsAnIoError : Obligations.FmLoadOfACutStreamIsAnIoError := by
  unfold Obligations.FmLoadOfACutStreamIsAnIoError
  refine ⟨storeReads_flatten, ?_⟩
  intro s fm done toCome read part unloaded ⟨hlen, hfm⟩ fits hreads hstream hpart
  have h := (readFiltermaps_consumes fun f hf => ⟨hfm f hf, fits f hf⟩).cut 0 done read toCome part hreads hpart hstream
  rw [hlen, Nat.zero_add] at h
  exact exec_fmLoad_of_fail unloaded h

/-- Settles O57: the filtermaps before are consumed whole, and the next one's reader stops at the count. -/
theorem fmLoadChecksTheCapacities : Obligations.FmLoadChecksTheCapacities := by
  unfold Obligations.FmLoadChecksTheCapacities
  intro s earlier size height after unloaded hlen hearlier counted fail
  have load_fails {p : Nat} {rest : List Byte} (hstream : s.cfg.fmStream = earlier.flatMap encodeFiltermap ++ rest)
      (hnext : readFiltermap s.cfg earlier.length (earlier.flatMap encodeFiltermap).length =
        .fail .capacityError earlier.length p) : exec .fmLoad s = fail p := by
    have h := (readFiltermaps_consumes hearlier).whole 0 rest (by rw [storeReads_flatten]; exact hstream)
    rw [storeReads_flatten, Nat.zero_add] at h
    exact exec_fmLoad_of_fail unloaded (repeatRd_fail hlen h hnext)
  have drop_earlier {rest : List Byte} (hstream : s.cfg.fmStream = earlier.flatMap encodeFiltermap ++ rest) :
      s.cfg.fmStream.drop (earlier.flatMap encodeFiltermap).length = rest := by rw [hstream, List.drop_left]
  refine ⟨fun m hm hlt hstream => ?rows, fun rows width m hheight hrows fits hm hlt hstream => ?cmds⟩
  case rows =>
    simp only [counted, List.append_assoc] at hstream
    have hnext := readFiltermap_of_many_rows (s := earlier.length) (by rw [hm, exceeds_some, decide_eq_true hlt])
      (drop_earlier hstream)
    rw [load_fails hstream hnext]
    simp only [counted, List.length_append]
    rfl
  case cmds =>
    simp only [counted, List.append_assoc] at hstream
    have hnext := readFiltermap_of_many_cmds (s := earlier.length) (exceeds_eq_false_iff.mpr hheight) hrows fits
      (by rw [hm, exceeds_some, decide_eq_true hlt]) (drop_earlier hstream)
    rw [load_fails hstream hnext]
    simp only [counted, List.length_append]
    rfl

end Sys2Proof
end

section
/-! `ST_LOAD` (43_slope_template.md rules R221 to R226): loops over reads of one width, then each pass as such loops, whole
and where the stream ends inside them. -/

namespace Sys2Proof.Machine

variable {α β γ : Type} {b : List Byte} {pos n i : Nat}

/-! ### Loops over reads of one width -/

theorem Rd.bind_assoc (r : Rd α) (f : α → Nat → Rd β) (g : β → Nat → Rd γ) :
    (r.bind f).bind g = r.bind fun x p => (f x p).bind g := by
  cases r <;> rfl

/-- Units of `w` bytes that the stream holds are read one after another. -/
theorem exists_repeatRd_units {f : Nat → Nat → Rd α} {len w : Nat}
    (hf : ∀ j p, p + w ≤ len → ∃ x, f j p = .ok x (p + w)) (j : Nat) (h : pos + w * n ≤ len) :
    ∃ xs, xs.length = n ∧ repeatRd f n j pos = .ok xs (pos + w * n) ∧
      ∀ i x, xs[i]? = some x → f (j + i) (pos + w * i) = .ok x (pos + w * i + w) := by
  induction n generalizing j pos with
  | zero => exact ⟨[], rfl, rfl, by simp⟩
  | succ n ih =>
    rw [Nat.mul_succ] at h ⊢
    obtain ⟨x, hx⟩ := hf j pos (by omega)
    obtain ⟨xs, hlen, hread, hxs⟩ := ih (pos := pos + w) (j + 1) (by omega)
    refine ⟨x :: xs, by rw [List.length_cons, hlen], ?_, fun i y hy => ?_⟩
    · rw [repeatRd, hx, Rd.bind_ok, hread, Rd.bind_ok, Nat.add_assoc, Nat.add_comm w]
    · cases i with
      | zero => cases hy; exact hx
      | succ i =>
        rw [show j + (i + 1) = j + 1 + i by omega, Nat.mul_succ, show pos + (w * i + w) = pos + w + w * i by omega]
        exact hxs i y hy

/-- A loop stops at the first unit that fails, the units before it being held by the stream. -/
theorem repeatRd_units_fail {f : Nat → Nat → Rd α} {len w q info : Nat} {c : Code}
    (hf : ∀ j p, p + w ≤ len → ∃ x, f j p = .ok x (p + w)) (hi : i < n) (h : pos + w * i ≤ len)
    (hfail : f i (pos + w * i) = .fail c info q) : repeatRd f n 0 pos = .fail c info q := by
  obtain ⟨xs, -, hread, -⟩ := exists_repeatRd_units hf 0 h
  exact repeatRd_fail hi hread hfail

/-! ### Loops over words -/

theorem exists_strU32 (h : pos + 4 ≤ b.length) : ∃ x, strU32 b pos = .ok x (pos + 4) := by
  obtain ⟨v, hv⟩ := exists_wordAt h
  exact ⟨_, strU32_of_wordAt hv⟩

theorem wordAt_toNat_ofNat {v : Nat} (h : wordAt b pos = some v) : (BitVec.ofNat 32 v).toNat = v := by
  rw [BitVec.toNat_ofNat, Nat.mod_eq_of_lt (wordAt_lt h)]

theorem strU32_of_toNat {v : Word} (h : wordAt b pos = some v.toNat) : strU32 b pos = .ok v (pos + 4) := by
  rw [strU32_of_wordAt h, BitVec.ofNat_toNat, BitVec.setWidth_eq]

theorem strU16_of_toNat {v : Half} (h : halfAt b pos = some v.toNat) : strU16 b pos = .ok v (pos + 2) := by
  rw [strU16_of_halfAt h, BitVec.ofNat_toNat, BitVec.setWidth_eq]

theorem words_of_wordAt (vs : List Word) (h : ∀ i v, vs[i]? = some v → wordAt b (pos + 4 * i) = some v.toNat) :
    repeatRd (fun _ p => strU32 b p) vs.length 0 pos = .ok vs (pos + 4 * vs.length) :=
  repeatRd_of_get (at_ := fun i => pos + 4 * i) vs 0 fun i v hv => strU32_of_toNat (h i v hv)

theorem words_of_cut (hi : i < n) (h : pos + 4 * i ≤ b.length) (hcut : b.length < pos + 4 * i + 4) :
    repeatRd (fun _ p => strU32 b p) n 0 pos = .fail .ioError (pos + 4 * i) (pos + 4 * i) :=
  repeatRd_units_fail (fun _ _ => exists_strU32) hi h (strU32_of_cut hcut)

/-! ### Pass 1: a header (R222 to R225) -/

variable {c : Config} {s start size : Nat} {h : Header}

/-- What pass 1 makes of the seven fields of a block that starts at `start`: the capacity check, then the skip. -/
def headerOfFields (c : Config) (s start size : Nat) (fields : List Word) (pos : Nat) : Rd Header :=
  if exceeds (fields.getD 1 0).toNat c.stMaxRows then .fail .capacityError s pos
  else
    (strSeek c.stStream (start + size) pos).bind fun _ pos =>
    .ok { width := fields.getD 0 0, height := fields.getD 1 0, hotx := fields.getD 2 0, hoty := fields.getD 3 0
          dataSize := fields.getD 4 0, outlineOff := (fields.getD 5 0).toNat + start
          cmdOff := (fields.getD 6 0).toNat + start } pos

/-- A header is a block size, then a loop over the seven fields. -/
theorem readHeader_eq_words (c : Config) (s pos : Nat) : readHeader c s pos =
    (strU32 c.stStream pos).bind fun size start =>
    (repeatRd (fun _ p => strU32 c.stStream p) 7 0 start).bind fun fields pos =>
    headerOfFields c s start size.toNat fields pos := by
  simp only [repeatRd, Rd.bind_assoc, Rd.bind_ok]
  rfl

/-- Behind a block size that the stream holds stand the fields. -/
theorem readHeader_of_size (hstart : 4 ≤ start) (hsize : wordAt c.stStream (start - 4) = some size) :
    readHeader c s (start - 4) = (repeatRd (fun _ p => strU32 c.stStream p) 7 0 start).bind fun fields pos =>
      headerOfFields c s start size fields pos := by
  rw [readHeader_eq_words, strU32_of_wordAt hsize, Rd.bind_ok, Nat.sub_add_cancel hstart,
    wordAt_toNat_ofNat hsize]

theorem readHeader_of_headerAt (hstart : 4 ≤ start) (hh : HeaderAt c.stStream start size h)
    (fits : ∀ m ∈ c.stMaxRows, h.height.toNat ≤ m) : readHeader c s (start - 4) = .ok h (start + size) := by
  obtain ⟨hsize, hend, hwidth, hheight, hhotx, hhoty, hdata, ⟨ro, hro, ho⟩, rc, hrc, hc⟩ := hh
  have hro' : (BitVec.ofNat 32 ro).toNat = ro := wordAt_toNat_ofNat hro
  have hrc' : (BitVec.ofNat 32 rc).toNat = rc := wordAt_toNat_ofNat hrc
  have fields := words_of_wordAt (b := c.stStream) (pos := start)
    [h.width, h.height, h.hotx, h.hoty, h.dataSize, BitVec.ofNat 32 ro, BitVec.ofNat 32 rc] fun i v hv => by
      match i, hv with
      | 0, rfl => exact hwidth
      | 1, rfl => exact hheight
      | 2, rfl => exact hhotx
      | 3, rfl => exact hhoty
      | 4, rfl => exact hdata
      | 5, rfl => rw [hro']; exact hro
      | 6, rfl => rw [hrc']; exact hrc
  rw [readHeader_of_size hstart hsize]
  show (repeatRd _ [h.width, h.height, h.hotx, h.hoty, h.dataSize, BitVec.ofNat 32 ro, BitVec.ofNat 32 rc].length
    0 start).bind _ = _
  rw [fields, Rd.bind_ok, headerOfFields, if_neg (by simp [exceeds_eq_false_iff.mpr fits]), strSeek_of_le hend,
    Rd.bind_ok]
  simp only [List.getD_cons_zero, List.getD_cons_succ, hro', hrc', ← ho, ← hc]

/-- The stream ends in the block size. -/
theorem readHeader_of_cut_size (hstart : 4 ≤ start) (hcut : c.stStream.length < start) :
    readHeader c s (start - 4) = .fail .ioError (start - 4) (start - 4) := by
  rw [readHeader_eq_words, strU32_of_cut (by omega), Rd.bind_fail]

/-- The stream ends in field `i`. -/
theorem readHeader_of_cut_field (hstart : 4 ≤ start) (hi : i < 7) (hle : start + 4 * i ≤ c.stStream.length)
    (hcut : c.stStream.length < start + 4 * i + 4) :
    readHeader c s (start - 4) = .fail .ioError (start + 4 * i) (start + 4 * i) := by
  obtain ⟨size, hsize⟩ := exists_wordAt (b := c.stStream) (pos := start - 4) (by omega)
  rw [readHeader_of_size hstart hsize, words_of_cut hi hle hcut, Rd.bind_fail]

/-- The stream holds all seven fields: the capacity check and the skip decide, on the height that stands in it. -/
theorem readHeader_of_fields {height : Nat} (hstart : 4 ≤ start) (hle : start + 28 ≤ c.stStream.length)
    (hsize : wordAt c.stStream (start - 4) = some size) (hheight : wordAt c.stStream (start + 4) = some height) :
    ∃ fields : List Word, (fields.getD 1 0).toNat = height ∧
      readHeader c s (start - 4) = headerOfFields c s start size fields (start + 28) := by
  obtain ⟨fields, hlen, hread, hfields⟩ := exists_repeatRd_units (f := fun _ p => strU32 c.stStream p) (n := 7)
    (pos := start) (fun _ _ => exists_strU32) 0 hle
  refine ⟨fields, ?_, by rw [readHeader_of_size hstart hsize, hread, Rd.bind_ok]⟩
  have hget : fields[1]? = some (fields.getD 1 0) := by
    rw [List.getD_eq_getElem?_getD, List.getElem?_eq_getElem (by omega), Option.getD_some]
  have hword := (hfields 1 _ hget).symm.trans (strU32_of_wordAt hheight)
  rw [Rd.ok.injEq] at hword
  rw [hword.1, wordAt_toNat_ofNat hheight]

theorem readHeader_of_many_rows {height m : Nat} (hstart : 4 ≤ start) (hle : start + 28 ≤ c.stStream.length)
    (hheight : wordAt c.stStream (start + 4) = some height) (hm : c.stMaxRows = some m) (hlt : m < height) :
    readHeader c s (start - 4) = .fail .capacityError s (start + 28) := by
  obtain ⟨size, hsize⟩ := exists_wordAt (b := c.stStream) (pos := start - 4) (by omega)
  obtain ⟨fields, rfl, hread⟩ := readHeader_of_fields (s := s) hstart hle hsize hheight
  rw [hread, headerOfFields, if_pos (by rw [hm, exceeds_some, decide_eq_true hlt])]

theorem readHeader_of_cut_block {height : Nat} (hstart : 4 ≤ start) (hle : start + 28 ≤ c.stStream.length)
    (hheight : wordAt c.stStream (start + 4) = some height) (fits : ∀ m ∈ c.stMaxRows, height ≤ m)
    (hsize : wordAt c.stStream (start - 4) = some size) (hcut : c.stStream.length < start + size) :
    readHeader c s (start - 4) = .fail .ioError (start + size) (start + 28) := by
  obtain ⟨fields, rfl, hread⟩ := readHeader_of_fields (s := s) hstart hle hsize hheight
  rw [hread, headerOfFields, exceeds_eq_false_iff.mpr fits, if_neg Bool.false_ne_true, strSeek_of_cut hcut,
    Rd.bind_fail]

/-! ### Pass 1 over several slots -/

/-- The blocks of the slots in `hs` lie in the stream, each next size field where the block before ends, and their heights
are within the capacity. -/
structure HeadersAt (c : Config) (start size : Nat → Nat) (hs : List Header) : Prop where
  first : start 0 = 4
  next : ∀ j < hs.length, start (j + 1) = start j + size j + 4
  header : ∀ j h, hs[j]? = some h → HeaderAt c.stStream (start j) (size j) h ∧
    ∀ m ∈ c.stMaxRows, h.height.toNat ≤ m

theorem HeadersAt.four_le {start size : Nat → Nat} {hs : List Header} (hat : HeadersAt c start size hs) {j : Nat}
    (hj : j ≤ hs.length) : 4 ≤ start j := by
  cases j with
  | zero => rw [hat.first]
  | succ j => rw [hat.next j hj]; omega

theorem HeadersAt.read {start size : Nat → Nat} {hs : List Header} (hat : HeadersAt c start size hs) :
    repeatRd (readHeader c) hs.length 0 0 = .ok hs (start hs.length - 4) := by
  have h := repeatRd_of_get (f := readHeader c) (at_ := fun j => start j - 4) hs 0 fun j h hj => by
    have hlt : j < hs.length := (List.getElem?_eq_some_iff.mp hj).1
    rw [readHeader_of_headerAt (hat.four_le hlt.le) (hat.header j h hj).1 (hat.header j h hj).2, hat.next j hlt,
      Nat.add_sub_cancel]
  simpa only [hat.first, Nat.sub_self] using h

/-! ### Pass 2: a template's tables (R226) -/

theorem readEdges_of_halfAt {l r : Half} (hl : halfAt b pos = some l.toNat) (hr : halfAt b (pos + 2) = some r.toNat) :
    readEdges b pos = .ok (l, r) (pos + 4) := by
  rw [readEdges, strU16_of_toNat hl, Rd.bind_ok, strU16_of_toNat hr, Rd.bind_ok]

theorem exists_readEdges (h : pos + 4 ≤ b.length) : ∃ x, readEdges b pos = .ok x (pos + 4) := by
  obtain ⟨l, hl⟩ := exists_halfAt (b := b) (pos := pos) (by omega)
  obtain ⟨r, hr⟩ := exists_halfAt (b := b) (pos := pos + 2) (by omega)
  rw [readEdges, strU16_of_halfAt hl, Rd.bind_ok, strU16_of_halfAt hr, Rd.bind_ok]
  exact ⟨_, rfl⟩

/-- The stream ends in half `i` of the outline table, each row of which is two halves. -/
theorem edges_of_cut {rows : Nat} (hi : i < 2 * rows) (hle : pos + 2 * i ≤ b.length)
    (hcut : b.length < pos + 2 * i + 2) :
    repeatRd (fun _ p => readEdges b p) rows 0 pos = .fail .ioError (pos + 2 * i) (pos + 2 * i) := by
  refine repeatRd_units_fail (i := i / 2) (fun _ _ => exists_readEdges) (by omega) (by omega) ?_
  obtain heven | hodd := Nat.mod_two_eq_zero_or_one i
  · rw [readEdges, show pos + 4 * (i / 2) = pos + 2 * i by omega, strU16_of_cut hcut, Rd.bind_fail]
  · obtain ⟨l, hl⟩ := exists_halfAt (b := b) (pos := pos + 4 * (i / 2)) (by omega)
    rw [readEdges, strU16_of_halfAt hl, Rd.bind_ok, show pos + 4 * (i / 2) + 2 = pos + 2 * i by omega,
      strU16_of_cut hcut, Rd.bind_fail]

/-- The outline table, where the stream holds all of it. -/
theorem exists_edges {rows : Nat} (hle : pos + 4 * rows ≤ b.length) :
    ∃ es, repeatRd (fun _ p => readEdges b p) rows 0 pos = .ok es (pos + 4 * rows) := by
  obtain ⟨es, -, hread, -⟩ := exists_repeatRd_units (f := fun _ p => readEdges b p) (fun _ _ => exists_readEdges) 0 hle
  exact ⟨es, hread⟩

/-- Where pass 2 leaves the stream after a template. -/
def tablesEnd (t : Template) : Nat := t.hdr.cmdOff + 4 * t.hdr.height.toNat

theorem readTables_of_tablesAt {t : Template} (ht : TablesAt b t) : readTables b t.hdr pos = .ok t (tablesEnd t) := by
  obtain ⟨ho, hc, hleft, hright, hcmds, hrows⟩ := ht
  have hzip : (t.left.zip t.right).length = t.hdr.height.toNat := by rw [List.length_zip, hleft, hright, Nat.min_self]
  have edges := repeatRd_of_get (f := fun _ p => readEdges b p) (at_ := fun y => t.hdr.outlineOff + 4 * y)
    (t.left.zip t.right) 0 fun y e he => by
      obtain ⟨hl, hr⟩ := List.getElem?_zip_eq_some.mp he
      have hy : y < t.hdr.height.toNat := hleft ▸ (List.getElem?_eq_some_iff.mp hl).1
      obtain ⟨rowLeft, rowRight, -⟩ := hrows y hy
      exact readEdges_of_halfAt (by rw [rowLeft, hl]; rfl) (by rw [rowRight, hr]; rfl)
  have offs := words_of_wordAt (b := b) (pos := t.hdr.cmdOff) t.cmdOffRow fun y v hv => by
    have hy : y < t.hdr.height.toNat := hcmds ▸ (List.getElem?_eq_some_iff.mp hv).1
    rw [(hrows y hy).2.2, hv]; rfl
  rw [hzip] at edges
  rw [hcmds] at offs
  rw [readTables, strSeek_of_le ho, Rd.bind_ok]
  show (repeatRd _ _ _ (t.hdr.outlineOff + 4 * 0)).bind _ = _
  rw [edges, Rd.bind_ok, strSeek_of_le hc, Rd.bind_ok, offs, Rd.bind_ok, List.map_fst_zip (by omega),
    List.map_snd_zip (by omega)]
  rfl

theorem readTables_of_cut_outline (h : Header) (hcut : b.length < h.outlineOff) :
    readTables b h pos = .fail .ioError h.outlineOff pos := by
  rw [readTables, strSeek_of_cut hcut, Rd.bind_fail]

theorem readTables_of_cut_edge (h : Header) (hi : i < 2 * h.height.toNat) (hle : h.outlineOff + 2 * i ≤ b.length)
    (hcut : b.length < h.outlineOff + 2 * i + 2) :
    readTables b h pos = .fail .ioError (h.outlineOff + 2 * i) (h.outlineOff + 2 * i) := by
  rw [readTables, strSeek_of_le (by omega), Rd.bind_ok, edges_of_cut hi hle hcut, Rd.bind_fail]

theorem readTables_of_cut_cmdOff (h : Header) (hle : h.outlineOff + 4 * h.height.toNat ≤ b.length)
    (hcut : b.length < h.cmdOff) :
    readTables b h pos = .fail .ioError h.cmdOff (h.outlineOff + 4 * h.height.toNat) := by
  obtain ⟨es, hes⟩ := exists_edges hle
  rw [readTables, strSeek_of_le (by omega), Rd.bind_ok, hes, Rd.bind_ok, strSeek_of_cut hcut, Rd.bind_fail]

theorem readTables_of_cut_offset (h : Header) (hi : i < h.height.toNat)
    (houtline : h.outlineOff + 4 * h.height.toNat ≤ b.length) (hle : h.cmdOff + 4 * i ≤ b.length)
    (hcut : b.length < h.cmdOff + 4 * i + 4) :
    readTables b h pos = .fail .ioError (h.cmdOff + 4 * i) (h.cmdOff + 4 * i) := by
  obtain ⟨es, hes⟩ := exists_edges houtline
  rw [readTables, strSeek_of_le (by omega), Rd.bind_ok, hes, Rd.bind_ok, strSeek_of_le (by omega), Rd.bind_ok,
    words_of_cut hi hle hcut, Rd.bind_fail]

/-! ### Pass 2 over several slots -/

/-- Pass 2 runs through the slots whose tables lie in the stream and goes on behind them. -/
theorem readAllTables_of_tablesAt (ts : List Template) (hs : List Header) (pos : Nat) (hts : ∀ t ∈ ts, TablesAt b t) :
    readAllTables b (ts.map Template.hdr ++ hs) pos =
      (readAllTables b hs ((ts.map tablesEnd).getLastD pos)).bind fun us pos => .ok (ts ++ us) pos := by
  induction ts generalizing pos with
  | nil =>
    show readAllTables b hs pos = (readAllTables b hs pos).bind fun us pos => .ok us pos
    cases readAllTables b hs pos <;> rfl
  | cons t ts ih =>
    rw [List.map_cons, List.cons_append, readAllTables, readTables_of_tablesAt (hts t List.mem_cons_self), Rd.bind_ok,
      ih (tablesEnd t) fun u hu => hts u (List.mem_cons_of_mem t hu), Rd.bind_assoc, List.map_cons, List.getLastD_cons]
    rfl

/-- Headers whose first slots are those of `ts`, and the one after them. -/
theorem eq_map_hdr_append {hs : List Header} {ts : List Template} {h : Header}
    (hts : ∀ (j : Nat) (t : Template), ts[j]? = some t → hs[j]? = some t.hdr) (hh : hs[ts.length]? = some h) :
    hs = ts.map Template.hdr ++ h :: hs.drop (ts.length + 1) := by
  obtain ⟨hlt, rfl⟩ := List.getElem?_eq_some_iff.mp hh
  have htake : hs.take ts.length = ts.map Template.hdr := by
    apply List.ext_getElem?
    intro j
    by_cases hj : j < ts.length
    · rw [List.getElem?_take_of_lt hj, List.getElem?_map, List.getElem?_eq_getElem hj,
        hts j _ (List.getElem?_eq_getElem hj)]
      rfl
    · rw [List.getElem?_eq_none (by rw [List.length_take]; omega), List.getElem?_eq_none (by rw [List.length_map]; omega)]
  rw [← htake, ← List.drop_eq_getElem_cons hlt, List.take_append_drop]

/-! ### `ST_LOAD` -/

variable {st : State}

theorem exec_stLoad_of_loaded (h : st.stState = 1) : exec .stLoad st = .next (st.raise .preconditionError 0x30) :=
  congrArg Host.Outcome.next (if_pos h)

theorem exec_stLoad_of_ok {ts : List Template} (h : st.stState ≠ 1) (hr : readTemplates st.cfg = .ok ts pos) :
    exec .stLoad st = .next (st.stLoadDone ts pos) := by
  show execStLoad st = _
  rw [execStLoad, if_neg h, hr]

theorem exec_stLoad_of_fail {code : Code} {info : Nat} (h : st.stState ≠ 1)
    (hr : readTemplates st.cfg = .fail code info pos) : exec .stLoad st = .next (st.stFail code info pos) := by
  show execStLoad st = _
  rw [execStLoad, if_neg h, hr]

variable {start size : Nat → Nat} {hs : List Header} {code : Code} {info : Nat}

/-- The load ends in pass 1, at the slot after the headers read. -/
theorem readTemplates_of_header_fail (hat : HeadersAt c start size hs) (hlen : hs.length < 17)
    (hfail : readHeader c hs.length (start hs.length - 4) = .fail code info pos) :
    readTemplates c = .fail code info pos := by
  rw [readTemplates, repeatRd_fail hlen hat.read hfail, Rd.bind_fail]

/-- Pass 1 runs whole. -/
theorem readTemplates_of_headers (hat : HeadersAt c start size hs) (hlen : hs.length = 17) :
    readTemplates c = readAllTables c.stStream hs (start 16 + size 16) := by
  have hend : start 17 - 4 = start 16 + size 16 := by rw [hat.next 16 (by omega), Nat.add_sub_cancel]
  have hread := hat.read
  rw [hlen] at hread
  rw [readTemplates, hread, Rd.bind_ok, hend]

/-- The load ends in pass 2, at the slot after the tables read. -/
theorem readTemplates_of_table_fail {ts : List Template} (hat : HeadersAt c start size hs) (hlen : hs.length = 17)
    (hts : ∀ (j : Nat) (t : Template), ts[j]? = some t → hs[j]? = some t.hdr ∧ TablesAt c.stStream t)
    (hh : hs[ts.length]? = some h)
    (hfail : readTables c.stStream h ((ts.map tablesEnd).getLastD (start 16 + size 16)) = .fail code info pos) :
    readTemplates c = .fail code info pos := by
  have hread : ∀ t ∈ ts, TablesAt c.stStream t := fun t ht => by
    obtain ⟨j, hj⟩ := List.mem_iff_getElem?.mp ht
    exact (hts j t hj).2
  rw [readTemplates_of_headers hat hlen, eq_map_hdr_append (fun j t hj => (hts j t hj).1) hh,
    readAllTables_of_tablesAt ts _ _ hread, readAllTables, hfail]
  rfl

end Sys2Proof.Machine

namespace Sys2Proof

open Sys2Proof.Machine

/-- Settles O48: pass 1 reads the headers of the blocks, and pass 2 the tables of each. -/
theorem stLoadReadsTheTemplates : Obligations.StLoadReadsTheTemplates := by
  unfold Obligations.StLoadReadsTheTemplates
  intro s ts start size unloaded hlen hfirst hnext hslots
  have hat : HeadersAt s.cfg start size (ts.map Template.hdr) := by
    refine ⟨hfirst, fun j hj => hnext j (by rwa [List.length_map, hlen] at hj), fun j h hj => ?_⟩
    obtain ⟨t, ht, rfl⟩ := List.getElem?_map.symm.trans hj |> Option.map_eq_some_iff.mp
    exact ⟨(hslots j t ht).1.1, (hslots j t ht).2⟩
  have htables : ∀ t ∈ ts, TablesAt s.cfg.stStream t := fun t ht => by
    obtain ⟨j, hj⟩ := List.mem_iff_getElem?.mp ht
    exact (hslots j t hj).1.2
  have hread := readAllTables_of_tablesAt ts [] (start 16 + size 16) htables
  rw [List.append_nil, readAllTables, Rd.bind_ok, List.append_nil] at hread
  have hend : (ts.map tablesEnd).getLastD (start 16 + size 16) = (ts.map tablesEnd).getLastD 0 := by
    cases ts with
    | nil => simp at hlen
    | cons t ts => rfl
  rw [hend] at hread
  exact exec_stLoad_of_ok unloaded ((readTemplates_of_headers hat (by rw [List.length_map, hlen])).trans hread)

/-- Settles O58: the headers before the slot are read, and the slot's own reader fails as the clause says. -/
theorem stLoadHeaderPassFails : Obligations.StLoadHeaderPassFails := by
  unfold Obligations.StLoadHeaderPassFails
  intro s hs start size unloaded hlen hfirst hnext hheaders k len fail
  have hat : HeadersAt s.cfg start size hs := ⟨hfirst, hnext, hheaders⟩
  have hk : 4 ≤ start k := hat.four_le le_rfl
  have load_fails {code : Code} {info pos : Nat} (h : readHeader s.cfg k (start k - 4) = .fail code info pos) :
      exec .stLoad s = fail code info pos :=
    exec_stLoad_of_fail unloaded (readTemplates_of_header_fail hat hlen h)
  exact ⟨fun hcut => load_fails (readHeader_of_cut_size hk hcut),
    fun i hi hle hcut => load_fails (readHeader_of_cut_field hk hi hle hcut),
    fun height m hle hheight hm hlt => load_fails (readHeader_of_many_rows hk hle hheight hm hlt),
    fun height blockSize hle hheight fits hsize hcut =>
      load_fails (readHeader_of_cut_block hk hle hheight fits hsize hcut)⟩

/-- Settles O59: pass 1 runs whole, the tables before the slot are read, and the slot's own reader fails as the clause
says. -/
theorem stLoadTablePassFails : Obligations.StLoadTablePassFails := by
  unfold Obligations.StLoadTablePassFails
  intro s hs ts h start size unloaded hlen hfirst hnext hheaders hts hh len rows before fail
  have hat : HeadersAt s.cfg start size hs := ⟨hfirst, fun j hj => hnext j (hlen ▸ hj), hheaders⟩
  have load_fails {info pos : Nat} (hfail : readTables s.cfg.stStream h before = .fail .ioError info pos) :
      exec .stLoad s = fail info pos :=
    exec_stLoad_of_fail unloaded (readTemplates_of_table_fail hat hlen hts hh hfail)
  exact ⟨fun hcut => load_fails (readTables_of_cut_outline h hcut),
    fun i hi hle hcut => load_fails (readTables_of_cut_edge h hi hle hcut),
    fun hle hcut => load_fails (readTables_of_cut_cmdOff h hle hcut),
    fun i hi houtline hle hcut => load_fails (readTables_of_cut_offset h hi houtline hle hcut)⟩

end Sys2Proof
end

section
/-! The compositor (42_filtermap.md rules R190, R196 to R202): the three outcomes of a composite, the corners of the decided
blend, and the steps of a command against the command as one function. -/

namespace Sys2Proof.Machine

variable {s t : State} {f : OutFrame} {light n : BitVec 4} {y k slope : Nat} {l : Half}

/-! ### The destination (R199) -/

theorem destAddress_of_row_outside (h : f.height.toNat ≤ y) :
    destAddress f y k = .error (.destRangeFault, packInfo y k) := if_pos h

theorem destAddress_of_column_outside (hl : f.left[y]? = some l) (hy : y < f.height.toNat)
    (h : f.width.toNat ≤ l.toNat + k) : destAddress f y k = .error (.destRangeFault, packInfo y (l.toNat + k)) := by
  rw [destAddress, if_neg (by omega), List.getD_eq_getElem?_getD, hl, Option.getD_some]
  exact if_pos h

theorem destAddress_of_inside (hl : f.left[y]? = some l) (hy : y < f.height.toNat) (h : l.toNat + k < f.width.toNat) :
    destAddress f y k = .ok (y * f.width.toNat + (l.toNat + k)) := by
  rw [destAddress_eq_ok, List.getD_eq_getElem?_getD, hl, Option.getD_some]
  exact ⟨hy, h, rfl⟩

/-! ### The selection of a cube (R165, R166) -/

/-- The cube that a non-empty pattern list selects at a light index, before the test that it is held. -/
def State.foldedCube (s : State) (light : Nat) (p : Byte) (ps : List Byte) : Word :=
  (lightmapAt s.cfg (s.foldMasks light ps (entryCandidate (s.pmEntry p.toNat light))).toNat light).setWidth 32

theorem getIcm_of_held {light : Nat} {p : Byte} {ps : List Byte}
    (held : (s.foldedCube light p ps).toNat < s.icmCount.toNat) :
    s.getIcm light (p :: ps) = (s, s.foldedCube light p ps) :=
  if_neg (Nat.not_le.mpr held)

theorem getIcm_of_absent {light : Nat} {p : Byte} {ps : List Byte}
    (absent : s.icmCount.toNat ≤ (s.foldedCube light p ps).toNat) :
    s.getIcm light (p :: ps) = (s.emit .warning .rangeError (s.foldedCube light p ps), 4) :=
  if_pos absent

/-! ### The three outcomes of a composite -/

/-- What `getIcm` answers for the command's light and the active pattern list. -/
def State.selected (s : State) (light : BitVec 4) : State × Word := s.getIcm light.toNat s.patternList

/-- Selecting a cube changes the log alone. -/
theorem selected_fst (s : State) (light : BitVec 4) : (s.selected light).1 = { s with log := (s.selected light).1.log } := by
  obtain ⟨recs, h⟩ := getIcm_fst s light.toNat s.patternList
  rw [State.selected, h]

/-- The cube's cell for the blended colour. -/
def State.quantized (s : State) (light : BitVec 4) : Byte :=
  byteAt .icm s.icm ((s.selected light).2.toNat * 32768 + (cubeAddress (blendFn s.cfg s.taps)).toNat)

theorem selected_paletteIndex_of_held (held : (s.selected light).2.toNat < s.icmCount.toNat) :
    (s.selected light).1.paletteIndex (s.selected light).2 (blendFn s.cfg s.taps) = .ok (s.quantized light) := by
  rw [selected_fst]
  exact paletteIndex_eq_ok.mpr ⟨held, rfl⟩

theorem composite_of_absent (absent : s.icmCount.toNat ≤ (s.selected light).2.toNat) :
    s.composite light = .next ((s.selected light).1.patchFail .icmAbsentFault (s.selected light).2) := by
  have h : (s.selected light).1.paletteIndex (s.selected light).2 (blendFn s.cfg s.taps) = _ :=
    paletteIndex_of_absent _ (by rw [selected_fst]; exact absent)
  unfold State.selected at *
  simp only [State.composite, h]

theorem composite_of_dest_error {c : Code} {info : Word} (held : (s.selected light).2.toNat < s.icmCount.toNat)
    (hout : s.out = some f) (hd : destAddress f s.curY.toNat s.curK.toNat = .error (c, info)) :
    s.composite light = .next ((s.selected light).1.patchFail c info) := by
  have h := selected_paletteIndex_of_held held
  unfold State.selected at *
  simp only [State.composite, h, hout, hd]

theorem composite_of_ok {a : Nat} (held : (s.selected light).2.toNat < s.icmCount.toNat)
    (hout : s.out = some f) (hd : destAddress f s.curY.toNat s.curK.toNat = .ok a) :
    s.composite light = .next ((s.selected light).1.commandDone f a (s.quantized light)) := by
  have h := selected_paletteIndex_of_held held
  unfold State.selected at *
  simp only [State.composite, h, hout, hd]

/-- The model's own stop (assumption 13). -/
theorem composite_of_no_frame (held : (s.selected light).2.toNat < s.icmCount.toNat) (hout : s.out = none) :
    s.composite light = .fault .undefStore := by
  have h := selected_paletteIndex_of_held held
  unfold State.selected at *
  simp only [State.composite, h, hout]

theorem exec_blend_of_operands (hp : s.phase = .patching slope) (hn : s.taps.length = n.toNat) :
    exec (.blend light n) s = s.composite light := by
  show execBlend light n s = _
  rw [execBlend, hp]
  exact if_pos hn

/-! ### The decided blend (R196, R200, R202) -/

/-- One lane as a function of the weights and the channel's values. -/
def weightedLane (weights : List (BitVec 9)) (values : List Byte) : Byte :=
  BitVec.ofNat 8 (min 255 ((List.zipWith (fun a c => a.toNat * c.toNat) weights values).sum >>> 8))

theorem blendLane_eq_weightedLane (taps : List Tap) (channel : Rgb → Byte) :
    blendLane taps channel = weightedLane (taps.map Tap.alpha) (taps.map fun t => channel t.rgb) := by
  rw [blendLane, weightedLane, List.zipWith_map, List.zipWith_self]

theorem blendLane_of_zero_weights {taps : List Tap} (h : ∀ t ∈ taps, t.alpha = 0) (channel : Rgb → Byte) :
    blendLane taps channel = 0 := by
  have hsum : (taps.map fun t => t.alpha.toNat * (channel t.rgb).toNat).sum = 0 :=
    List.sum_eq_zero fun x hx => by
      obtain ⟨t, ht, rfl⟩ := List.mem_map.mp hx
      rw [h t ht]
      exact Nat.zero_mul _
  rw [blendLane, hsum]
  rfl

theorem blendLane_single_toNat (a : BitVec 9) (c : Rgb) (channel : Rgb → Byte) :
    (blendLane [⟨a, c⟩] channel).toNat = min 255 (a.toNat * (channel c).toNat / 256) := by
  rw [blendLane_toNat, List.map_singleton, List.sum_singleton]

theorem blendLane_unity (c : Rgb) (channel : Rgb → Byte) : blendLane [⟨256, c⟩] channel = channel c := by
  have hlt := (channel c).isLt
  have hunity : (256 : BitVec 9).toNat = 256 := rfl
  apply BitVec.eq_of_toNat_eq
  rw [blendLane_single_toNat, hunity]
  omega

/-! ### The steps of a command -/

/-- An `ST_PATCH` of the slope stands at the command `c`. -/
structure StandsAt (s : State) (slope : Nat) (c : FilterCmd) : Prop where
  phase : s.phase = .patching slope
  command : ∃ f row, s.fm[slope]? = some f ∧ s.curY.toNat < f.height.toNat ∧ f.rows[s.curY.toNat]? = some row ∧
    s.curK.toNat < row.width.toNat ∧ row.cmds[s.curK.toNat]? = some c

variable {c : FilterCmd} {i : Instr}

theorem step_of_standsAt (h : StandsAt s slope c) (hi : nextOfCommand c s.taps.length = some i) :
    step s = exec i s := by
  obtain ⟨hp, f, row, hf, hy, hrow, hk, hc⟩ := h
  rw [step_eq, State.fetch, hp]
  simp only [State.runControl, hf, if_neg (Nat.not_le.mpr hy), hrow, if_neg (Nat.not_le.mpr hk), hc, Option.bind_some, hi]
  rfl

theorem nextOfCommand_of_record {p : SrcPx} {k : Nat} (hk : k < c.n.toNat) (hp : c.src[k]? = some p) :
    nextOfCommand c k = some (.srcpx p.sourceIndex p.alpha) := by
  rw [nextOfCommand, if_pos hk, hp]

theorem nextOfCommand_of_header {k : Nat} (hk : c.n.toNat ≤ k) : nextOfCommand c k = some (.blend c.light c.n) :=
  if_neg (Nat.not_lt.mpr hk)

/-! ### Runs -/

theorem run_zero (s : State) : Sys2Proof.core.run 0 s = .next s := rfl

theorem run_succ_of_next (M : Host.Core) {x y : M.State} (h : M.step x = .next y) (k : Nat) :
    M.run (k + 1) x = M.run k y := by
  rw [Host.Core.run, h]

theorem run_one_eq_step (M : Host.Core) (x : M.State) : M.run 1 x = M.step x := by
  rw [Host.Core.run]
  cases M.step x <;> rfl

theorem run_succ (h : step s = .next t) (k : Nat) : Sys2Proof.core.run (k + 1) s = Sys2Proof.core.run k t :=
  run_succ_of_next Sys2Proof.core h k

theorem run_one (s : State) : Sys2Proof.core.run 1 s = step s := run_one_eq_step Sys2Proof.core s

/-! ### The command as one function -/

/-- The rest of a command with the operands `taps` gathered: the records still to come, then the blend. -/
def State.blendRest (s : State) (c : FilterCmd) (ps : List SrcPx) (taps : List Tap) :
    Host.Outcome State Fault Refusal :=
  match s.gather s.curY.toNat ps taps with
  | .error (code, info) => .next (s.patchFail code info)
  | .ok taps => State.composite { s with taps := taps } c.light

theorem blendWhole_eq_blendRest (h : s.taps = []) : s.blendWhole c = s.blendRest c c.src s.taps := by
  rw [h]
  rfl

/-- Gathering does not read the operands that the state holds. -/
theorem gather_with_taps (s : State) (held : List Tap) (y : Nat) (ps : List SrcPx) (taps : List Tap) :
    ({ s with taps := held } : State).gather y ps taps = s.gather y ps taps := by
  induction ps generalizing taps with
  | nil => rfl
  | cons p ps ih =>
    have hcolour : ({ s with taps := held } : State).sourceColour y p.sourceIndex = s.sourceColour y p.sourceIndex := rfl
    rw [State.gather, State.gather, hcolour]
    cases s.sourceColour y p.sourceIndex with
    | error e => rfl
    | ok rgb => exact ih _

theorem blendRest_nil (s : State) (c : FilterCmd) : s.blendRest c [] s.taps = s.composite c.light := rfl

theorem blendRest_cons_of_error {p : SrcPx} {ps : List SrcPx} {code : Code} {info : Word}
    (h : s.sourceColour s.curY.toNat p.sourceIndex = .error (code, info)) :
    s.blendRest c (p :: ps) s.taps = .next (s.patchFail code info) := by
  rw [State.blendRest, State.gather, h]

theorem blendRest_cons_of_ok {p : SrcPx} {ps : List SrcPx} {rgb : Rgb}
    (h : s.sourceColour s.curY.toNat p.sourceIndex = .ok rgb) :
    s.blendRest c (p :: ps) s.taps =
      ({ s with taps := s.taps ++ [⟨p.alpha, rgb⟩] } : State).blendRest c ps (s.taps ++ [⟨p.alpha, rgb⟩]) := by
  rw [State.blendRest, State.blendRest, State.gather, h, gather_with_taps]
  rfl

/-- The steps from a state with the records `front` executed do the rest of the command: each step is a record, until
the first fault, or the header. -/
theorem run_eq_blendRest (ps : List SrcPx) : ∀ {s : State} {front : List SrcPx}, StandsAt s slope c → c.WellFormed →
    c.src = front ++ ps → front.length = s.taps.length →
    ∃ k, 1 ≤ k ∧ k ≤ ps.length + 1 ∧ Sys2Proof.core.run k s = s.blendRest c ps s.taps := by
  induction ps with
  | nil =>
    intro s front hs hc hsrc hfront
    have hn : s.taps.length = c.n.toNat := by rw [← hc, hsrc, List.append_nil, hfront]
    refine ⟨1, le_rfl, le_rfl, ?_⟩
    rw [run_one, step_of_standsAt hs (nextOfCommand_of_header hn.ge), exec_blend_of_operands hs.phase hn, blendRest_nil]
  | cons p ps ih =>
    intro s front hs hc hsrc hfront
    have hlt : s.taps.length < c.n.toNat := by rw [← hc, hsrc, List.length_append, List.length_cons, hfront]; omega
    have hget : c.src[s.taps.length]? = some p := by
      rw [hsrc, ← hfront, List.getElem?_append_right le_rfl, Nat.sub_self, List.getElem?_cons_zero]
    have hstep := step_of_standsAt hs (nextOfCommand_of_record hlt hget)
    cases hcolour : s.sourceColour s.curY.toNat p.sourceIndex with
    | error e =>
      refine ⟨1, le_rfl, by omega, ?_⟩
      rw [run_one, hstep, exec_srcpx_of_error hs.phase hcolour, blendRest_cons_of_error hcolour]
    | ok rgb =>
      rw [exec_srcpx_of_ok hs.phase hcolour] at hstep
      obtain ⟨k, -, hk, hrun⟩ := ih (s := { s with taps := s.taps ++ [⟨p.alpha, rgb⟩] }) (front := front ++ [p])
        ⟨hs.phase, hs.command⟩ hc (by rw [hsrc, List.append_assoc]; rfl)
        (by rw [List.length_append, hfront, List.length_append]; rfl)
      refine ⟨k + 1, by omega, by rw [List.length_cons]; omega, ?_⟩
      rw [run_succ hstep, hrun, blendRest_cons_of_ok hcolour]

end Sys2Proof.Machine

namespace Sys2Proof

open Sys2Proof.Machine

/-- Settles O7: the step executes what the sequencer fetches, the command's next record or its header. -/
theorem stepRunsTheCommandAtTheCursor : Obligations.StepRunsTheCommandAtTheCursor := by
  unfold Obligations.StepRunsTheCommandAtTheCursor
  intro s slope f row c hp hf hy hrow hk hc
  have hs : StandsAt s slope c := ⟨hp, f, row, hf, hy, hrow, hk, hc⟩
  exact ⟨fun p hlt hget => step_of_standsAt hs (nextOfCommand_of_record hlt hget),
    fun hle => step_of_standsAt hs (nextOfCommand_of_header hle)⟩

/-- Settles O45: from no operand gathered, the steps do the whole command. -/
theorem commandStepsRefineBlend : Obligations.CommandStepsRefineBlend := by
  unfold Obligations.CommandStepsRefineBlend
  intro s slope f row c hp hf hy hrow hk hc wf htaps
  obtain ⟨k, hpos, hle, hrun⟩ := run_eq_blendRest (slope := slope) c.src (front := [])
    ⟨hp, f, row, hf, hy, hrow, hk, hc⟩ wf rfl (by rw [htaps]; rfl)
  exact ⟨k, hpos, wf ▸ hle, hrun.trans (blendWhole_eq_blendRest htaps).symm⟩

/-- Settles O43: the cube is held and the destination lies in the plane, so the composite writes its pixel there. -/
theorem blendWritesItsPixel : Obligations.BlendWritesItsPixel := by
  unfold Obligations.BlendWritesItsPixel
  intro s slope light n f l hp hn hout hwf hl hy hx held lane colour idx
  refine ⟨fun decided => ?lanes, Memory.write f.pix _ idx, ?exec, fun b => Memory.read_write _ _ b idx hwf⟩
  case lanes =>
    have h : colour = weightedBlend s.taps := blendFn_decided decided s.taps
    rw [h]
    exact ⟨blendLane_toNat s.taps Rgb.r, blendLane_toNat s.taps Rgb.g, blendLane_toNat s.taps Rgb.b⟩
  case exec =>
    have hidx : s.quantized light = idx := by rw [State.quantized, cubeAddress_toNat]; rfl
    rw [exec_blend_of_operands hp hn, composite_of_ok held hout (destAddress_of_inside hl hy hx), hidx, selected_fst]
    rfl

/-- Settles O44: the cube is tested, then the row, then the column. -/
theorem blendFaultsEndThePatch : Obligations.BlendFaultsEndThePatch := by
  unfold Obligations.BlendFaultsEndThePatch
  intro s slope light n hp hn sel fail
  have failed (code : Code) (info : Word) : Host.Outcome.next ((s.selected light).1.patchFail code info) =
      fail code info := by rw [selected_fst]; rfl
  rw [exec_blend_of_operands hp hn]
  refine ⟨fun absent => ?cube, fun f held hout hy => ?row, fun f l held hout hy hl hx => ?column⟩
  case cube => rw [composite_of_absent absent, failed]; rfl
  case row => rw [composite_of_dest_error held hout (destAddress_of_row_outside hy), failed, packInfo_eq_ofNat]
  case column =>
    rw [composite_of_dest_error held hout (destAddress_of_column_outside hl hy hx), failed, packInfo_eq_ofNat]

/-- Settles O46: each corner is the three lanes' own. -/
theorem blendFunctionCorners : Obligations.BlendFunctionCorners := by
  unfold Obligations.BlendFunctionCorners
  intro cfg decided
  simp only [blendFn_decided decided, weightedBlend]
  refine ⟨rfl, fun taps zero => ?zero, fun c => ?unity, fun a c => ?single⟩
  case zero => simp only [blendLane_of_zero_weights zero]
  case unity => simp only [blendLane_unity]
  case single => exact ⟨blendLane_single_toNat a c _, blendLane_single_toNat a c _, blendLane_single_toNat a c _⟩

/-- Settles O47: the lane is the weighted sum of the weights and the channel's values. -/
theorem blendLanesAreIndependent : Obligations.BlendLanesAreIndependent := by
  unfold Obligations.BlendLanesAreIndependent
  refine ⟨weightedLane, fun cfg taps decided => ?_⟩
  rw [blendFn_decided decided, weightedBlend, blendLane_eq_weightedLane, blendLane_eq_weightedLane,
    blendLane_eq_weightedLane]

end Sys2Proof
end

section
/-! What every instruction changes (10_state.md rule R43): its frame, field by field, from its inversion lemma; and what
neither an instruction nor another step writes. -/

namespace Sys2Proof.Machine

variable {s t : State} {i : Instr}

/-! ### Frames (R43) -/

/-- Only the three result registers and the log may differ. -/
def ReportsOnly (s t : State) : Prop :=
  t = { s with status := t.status, result := t.result, resultValid := t.resultValid, log := t.log }

theorem maskQuery_reportsOnly (s : State) (f : Byte → Word) : ReportsOnly s (s.maskQuery f) := by
  obtain ⟨c, info, h⟩ | ⟨v, h⟩ := maskQuery_cases s f <;> rw [h] <;> rfl

/-- The seven queries. -/
theorem exec_query_reportsOnly
    (hi : i ∈ [Instr.icmLookup, .pmIgnore, .pmBrighten, .pmDarken, .pmApply, .pmGetIcm, .stIsLoaded])
    (h : exec i s = .next t) : ReportsOnly s t := by
  simp only [List.mem_cons, List.not_mem_nil, or_false] at hi
  obtain rfl | rfl | rfl | rfl | rfl | rfl | rfl := hi
  · obtain ⟨c, info, rfl⟩ | ⟨v, rfl⟩ := execIcmLookup_cases h <;> rfl
  · cases h; exact maskQuery_reportsOnly s _
  · cases h; exact maskQuery_reportsOnly s _
  · cases h; exact maskQuery_reportsOnly s _
  · cases h; exact maskQuery_reportsOnly s _
  · obtain ⟨c, info, rfl⟩ | ⟨recs, v, rfl⟩ := execPmGetIcm_cases h <;> rfl
  · cases h; rfl

theorem exec_icmLoad_frame (h : exec .icmLoad s = .next t) : t = { s with
    status := t.status, result := t.result, resultValid := t.resultValid, log := t.log
    icmState := t.icmState, icmCount := t.icmCount, icm := t.icm, icmPos := t.icmPos } := by
  obtain ⟨-, rfl⟩ | ⟨-, c, info, p, -, rfl⟩ | ⟨-, bytes, k, -, -, -, rfl⟩ := execIcmLoad_cases h <;> rfl

theorem exec_pmLoad_frame (h : exec .pmLoad s = .next t) : t = { s with
    status := t.status, result := t.result, resultValid := t.resultValid, log := t.log
    pmState := t.pmState, pm := t.pm, pmPos := t.pmPos } := by
  obtain ⟨-, rfl⟩ | ⟨-, c, info, p, -, rfl⟩ | ⟨-, bytes, p, -, -, rfl⟩ := execPmLoad_cases h <;> rfl

theorem exec_fmLoad_frame (h : exec .fmLoad s = .next t) : t = { s with
    status := t.status, result := t.result, resultValid := t.resultValid, log := t.log
    fmState := t.fmState, fm := t.fm, fmPos := t.fmPos } := by
  obtain ⟨-, rfl⟩ | ⟨-, c, info, p, -, rfl⟩ | ⟨-, fm, p, -, -, rfl⟩ := execFmLoad_cases h <;> rfl

theorem exec_stLoad_frame (h : exec .stLoad s = .next t) : t = { s with
    status := t.status, result := t.result, resultValid := t.resultValid, log := t.log
    stState := t.stState, templates := t.templates, stPos := t.stPos } := by
  obtain ⟨-, rfl⟩ | ⟨-, c, info, p, -, rfl⟩ | ⟨-, ts, p, -, -, -, rfl⟩ := execStLoad_cases h <;> rfl

theorem exec_stUnload_frame (h : exec .stUnload s = .next t) : t = { s with
    status := t.status, result := t.result, resultValid := t.resultValid, log := t.log
    stState := t.stState, templates := t.templates } := by
  by_cases loaded : s.stState = 1
  · cases (exec_stUnload_of_loaded loaded).symm.trans h; rfl
  · cases (exec_stUnload_of_not_loaded loaded).symm.trans h; rfl

theorem exec_stPatch_frame (h : exec .stPatch s = .next t) : t = { s with
    status := t.status, result := t.result, resultValid := t.resultValid, log := t.log
    out := t.out, phase := t.phase, taps := t.taps, curY := t.curY, curK := t.curK } := by
  obtain ⟨c, info, -, rfl⟩ | ⟨-, tpl, -, rfl⟩ := execStPatch_cases h <;> rfl

theorem exec_srcpx_frame {si : BitVec 15} {a : BitVec 9} (h : exec (.srcpx si a) s = .next t) : t = { s with
    status := t.status, result := t.result, resultValid := t.resultValid, log := t.log
    out := t.out, phase := t.phase, taps := t.taps } := by
  obtain ⟨-, ⟨c, info, rfl⟩ | ⟨rgb, rfl⟩⟩ := execSrcpx_cases h <;> rfl

theorem exec_blend_frame {light n : BitVec 4} (h : exec (.blend light n) s = .next t) : t = { s with
    status := t.status, result := t.result, resultValid := t.resultValid, log := t.log
    out := t.out, phase := t.phase, taps := t.taps, curK := t.curK } := by
  obtain ⟨-, -, ⟨recs, c, info, rfl⟩ | ⟨recs, f, a, idx, -, -, rfl⟩⟩ := execBlend_cases h <;> rfl

/-- Of what no instruction writes: the configuration, the operand stores, and the host's list. -/
structure Given where
  cfg : Config
  base : BaseFrame
  pal : Sparse Rgb
  pset : Memory
  pending : List HostEvent

def State.given (s : State) : Given := ⟨s.cfg, s.base, s.pal, s.pset, s.pending⟩

theorem exec_given (h : exec i s = .next t) : t.given = s.given := by
  cases i with
  | icmLoad => exact (congrArg State.given (exec_icmLoad_frame h)).trans rfl
  | pmLoad => exact (congrArg State.given (exec_pmLoad_frame h)).trans rfl
  | fmLoad => exact (congrArg State.given (exec_fmLoad_frame h)).trans rfl
  | stLoad => exact (congrArg State.given (exec_stLoad_frame h)).trans rfl
  | stUnload => exact (congrArg State.given (exec_stUnload_frame h)).trans rfl
  | stPatch => exact (congrArg State.given (exec_stPatch_frame h)).trans rfl
  | srcpx => exact (congrArg State.given (exec_srcpx_frame h)).trans rfl
  | blend => exact (congrArg State.given (exec_blend_frame h)).trans rfl
  | _ => exact (congrArg State.given (exec_query_reportsOnly (by simp) h)).trans rfl

theorem exec_cfg (h : exec i s = .next t) : t.cfg = s.cfg := congrArg Given.cfg (exec_given h)

theorem exec_base (h : exec i s = .next t) : t.base = s.base := congrArg Given.base (exec_given h)

/-- A step of an `ST_PATCH` writes none of that either. -/
theorem step_given_of_patching {slope : Nat} (hp : s.phase = .patching slope) (h : step s = .next t) :
    t.given = s.given := by
  obtain ⟨f, -, -, hs⟩ | ⟨f, row, -, -, -, -, hs⟩ | ⟨f, row, c, i, -, -, -, -, -, hi, hs⟩ | ⟨-, hs⟩ :=
    step_patching_cases hp
  all_goals rw [hs] at h
  · cases h; rfl
  · cases h; rfl
  · exact exec_given h
  · cases h

/-- No host access but reset touches the configuration or the log. -/
theorem serve_cfg_and_log {e : HostEvent} (he : e ≠ .reset) (h : s.serve e = .next t) : t.cfg = s.cfg ∧ t.log = s.log := by
  cases e with
  | writeReg r v =>
    cases h
    unfold State.writeReg
    split <;> exact ⟨rfl, rfl⟩
  | readReg r =>
    cases hv : s.regValue r with
    | none => simp [State.serve, hv] at h
    | some v =>
      simp only [State.serve, hv, Host.Outcome.next.injEq] at h
      exact h ▸ ⟨rfl, rfl⟩
  | readBase f => cases h; cases BaseFrame.read s.base f <;> exact ⟨rfl, rfl⟩
  | readOut f => cases h; cases s.outView.bind fun o => OutFrame.read o f <;> exact ⟨rfl, rfl⟩
  | writeBase f v | writePal p c | writePset j id => cases h; exact ⟨rfl, rfl⟩
  | reset => exact absurd rfl he

/-- Reset keeps the configuration too. -/
theorem serve_cfg {e : HostEvent} (h : s.serve e = .next t) : t.cfg = s.cfg := by
  by_cases he : e = .reset
  · subst he
    cases h
    rfl
  · exact (serve_cfg_and_log he h).1

end Sys2Proof.Machine

namespace Sys2Proof

open Sys2Proof.Machine

/-- Settles O20: each instruction's frame, from the cases of what it answers. -/
theorem instructionsChangeOnlyTheirState : Obligations.InstructionsChangeOnlyTheirState := by
  unfold Obligations.InstructionsChangeOnlyTheirState
  exact fun s t => ⟨fun i hi => exec_query_reportsOnly hi, exec_icmLoad_frame, exec_pmLoad_frame, exec_fmLoad_frame,
    exec_stLoad_frame, exec_stUnload_frame, exec_stPatch_frame, fun si a => exec_srcpx_frame,
    fun light n => exec_blend_frame⟩

/-- Settles O15: no instruction and no host access writes the configuration. -/
theorem configurationIsNeverWritten : Obligations.ConfigurationIsNeverWritten := by
  unfold Obligations.ConfigurationIsNeverWritten
  intro s t h
  cases hp : s.phase with
  | patching slope => exact congrArg Given.cfg (step_given_of_patching hp h)
  | idle =>
    obtain ⟨-, hs⟩ | ⟨v, rest, i, -, -, hs⟩ | ⟨v, rest, -, -, hs⟩ | ⟨e, rest, -, -, hs⟩ := step_idle_cases hp
    all_goals rw [hs] at h
    · cases h; rfl
    · have same := exec_cfg h
      exact same
    · cases h; rfl
    · have same := serve_cfg h
      exact same

/-- Settles O16: the base frame is one of the operands that no instruction and no step of an `ST_PATCH` writes. -/
theorem baseFrameIsNeverWrittenByTheBlock : Obligations.BaseFrameIsNeverWrittenByTheBlock := by
  unfold Obligations.BaseFrameIsNeverWrittenByTheBlock
  exact ⟨fun i s t h => exec_base h, fun s t slope hp h => congrArg Given.base (step_given_of_patching hp h)⟩

end Sys2Proof
end

section
/-! What every instruction reports (60_exceptions.md rules R260, R266; 10_state.md rule R38): the codes that its checks and
readers raise, the one outcome it ends with, and the log of a step. -/

namespace Sys2Proof.Machine

variable {s t : State} {i : Instr} {α β : Type}

/-! ### The codes that an operation raises -/

/-- The outcomes that end an operation with an error: all but `OK` and the recovered `RangeError`. -/
abbrev Code.IsError (c : Code) : Prop := c ≠ .ok ∧ c ≠ .rangeError

theorem Code.IsError.toByte_ne_zero {c : Code} (h : c.IsError) : c.toByte ≠ 0 := by
  cases c
  case ok => exact absurd rfl h.1
  all_goals decide

theorem sourceColour_isError {y : Nat} {si : BitVec 15} {c : Code} {info : Word}
    (h : s.sourceColour y si = .error (c, info)) : c.IsError := by
  cases hf : s.fetchSrc y si with
  | error e =>
    rw [sourceColour_of_fetch_error hf] at h
    cases h
    unfold State.fetchSrc at hf
    split at hf <;> cases hf
    decide
  | ok p =>
    rw [sourceColour_of_fetch_ok hf, State.resolve] at h
    split at h <;> cases h
    decide

theorem destAddress_isError {f : OutFrame} {y k : Nat} {c : Code} {info : Word}
    (h : destAddress f y k = .error (c, info)) : c.IsError := by
  unfold destAddress at h
  dsimp only at h
  split at h
  · cases h; decide
  · split at h <;> cases h
    decide

theorem maskCause_isError {c : Code} {info : Word} (h : s.maskCause = some (c, info)) : c.IsError := by
  unfold State.maskCause at h
  split_ifs at h <;> cases h <;> decide

theorem patternCause_isError {c : Code} {info : Word} (h : s.patternCause = some (c, info)) : c.IsError := by
  unfold State.patternCause at h
  split at h
  · cases h; decide
  · obtain ⟨id, -, he⟩ := Option.map_eq_some_iff.mp h
    cases he
    decide

theorem getIcmCause_isError {c : Code} {info : Word} (h : s.getIcmCause = some (c, info)) : c.IsError := by
  unfold State.getIcmCause at h
  split at h
  · cases h; decide
  · split at h
    case h_1 e he => exact patternCause_isError (he.trans h)
    case h_2 =>
      split at h <;> cases h
      decide

theorem patchCause_isError {c : Code} {info : Word} (h : s.patchCause = some (c, info)) : c.IsError := by
  unfold State.patchCause at h
  split at h
  · cases h; decide
  · split at h
    · cases h; decide
    · split at h
      · cases h; decide
      · split at h
        case h_1 e he => exact patternCause_isError (he.trans h)
        case h_2 => split_ifs at h <;> cases h <;> decide

/-! ### The codes that a reader raises -/

/-- Where the reader fails, its code has the property `P`. -/
def Rd.Raises (P : Code → Prop) : Rd α → Prop
  | .ok _ _ => True
  | .fail c _ _ => P c

variable {P : Code → Prop} {b : List Byte} {pos : Nat}

theorem Rd.Raises.bind {r : Rd α} {f : α → Nat → Rd β} (hr : r.Raises P) (hf : ∀ x p, (f x p).Raises P) :
    (r.bind f).Raises P := by
  cases r with
  | ok x p => exact hf x p
  | fail => exact hr

theorem repeatRd_raises {f : Nat → Nat → Rd α} (hf : ∀ j p, (f j p).Raises P) (n j pos : Nat) :
    (repeatRd f n j pos).Raises P := by
  induction n generalizing j pos with
  | zero => trivial
  | succ n ih => exact (hf j pos).bind fun x p => (ih (j + 1) p).bind fun _ _ => trivial

section
variable (hio : P .ioError)
include hio

theorem strU8_raises : (strU8 b pos).Raises P := by
  unfold strU8
  split
  · trivial
  · exact hio

theorem strU16_raises : (strU16 b pos).Raises P := by
  unfold strU16
  split
  · trivial
  · exact hio

theorem strU32_raises : (strU32 b pos).Raises P := by
  unfold strU32
  split
  · trivial
  · exact hio

theorem strBytes_raises {n : Nat} : (strBytes b n pos).Raises P := by
  unfold strBytes
  split
  · trivial
  · exact hio

theorem strSeek_raises {target : Nat} : (strSeek b target pos).Raises P := by
  unfold strSeek
  split
  · trivial
  · exact hio

theorem pmMasks_raises (hformat : P .formatError) : (pmMasks b).Raises P := by
  refine repeatRd_raises (fun id p => (strU32_raises hio).bind fun len p => ?_) 40 0 0
  split
  · exact strBytes_raises hio
  · exact hformat

theorem icmCubes_raises (hformat : P .formatError) (hcapacity : P .capacityError) (mx : Option Nat) (fuel n : Nat) :
    (icmCubes b mx fuel n pos).Raises P := by
  induction fuel generalizing n pos with
  | zero => trivial
  | succ fuel ih =>
    unfold icmCubes
    split
    · trivial
    · split
      · exact hformat
      · split
        · exact hcapacity
        · exact (strBytes_raises hio).bind fun _ _ => (ih (n + 1)).bind fun _ _ => trivial

theorem readCmd_raises : (readCmd b pos).Raises P := by
  refine (strU8_raises hio).bind fun h p => (repeatRd_raises (fun _ q => ?_) _ 0 p).bind fun _ _ => trivial
  have value : (strU24 b q).Raises P := (strU8_raises hio).bind fun _ _ => (strU16_raises hio).bind fun _ _ => trivial
  exact value.bind fun _ _ => trivial

theorem readRow_raises (hcapacity : P .capacityError) (c : Config) (k : Nat) : (readRow c k pos).Raises P := by
  refine (strU16_raises hio).bind fun w p => ?_
  split
  · exact hcapacity
  · exact (repeatRd_raises (fun _ _ => readCmd_raises hio) _ 0 p).bind fun _ _ => trivial

theorem readFiltermap_raises (hcapacity : P .capacityError) (c : Config) (k : Nat) :
    (readFiltermap c k pos).Raises P := by
  refine (strU32_raises hio).bind fun size p => (strU32_raises hio).bind fun height p => ?_
  split
  · exact hcapacity
  · exact (repeatRd_raises (fun _ _ => readRow_raises hio hcapacity c k) _ 0 p).bind fun _ _ => trivial

theorem readHeader_raises (hcapacity : P .capacityError) (c : Config) (k : Nat) : (readHeader c k pos).Raises P := by
  rw [readHeader_eq_words]
  refine (strU32_raises hio).bind fun size start => (repeatRd_raises (fun _ _ => strU32_raises hio) _ 0 _).bind
    fun fields p => ?_
  unfold headerOfFields
  split
  · exact hcapacity
  · exact (strSeek_raises hio).bind fun _ _ => trivial

theorem readTables_raises (h : Header) : (readTables b h pos).Raises P := by
  have edges (p : Nat) : (readEdges b p).Raises P :=
    (strU16_raises hio).bind fun _ _ => (strU16_raises hio).bind fun _ _ => trivial
  exact (strSeek_raises hio).bind fun _ _ => (repeatRd_raises (fun _ => edges) _ 0 _).bind fun _ _ =>
    (strSeek_raises hio).bind fun _ _ => (repeatRd_raises (fun _ _ => strU32_raises hio) _ 0 _).bind fun _ _ => trivial

theorem readAllTables_raises (hs : List Header) : (readAllTables b hs pos).Raises P := by
  induction hs generalizing pos with
  | nil => trivial
  | cons h hs ih => exact (readTables_raises hio h).bind fun _ _ => ih.bind fun _ _ => trivial

theorem readTemplates_raises (hcapacity : P .capacityError) (c : Config) : (readTemplates c).Raises P :=
  (repeatRd_raises (fun k _ => readHeader_raises hio hcapacity c k) 17 0 0).bind fun hs _ => readAllTables_raises hio hs

end

/-! ### The one outcome of an instruction (R260, R266) -/

/-- From `s` to `t`, with some warnings logged, one thing is reported: nothing yet, success, or one error. -/
def ReportsOne (s t : State) : Prop :=
  ∃ warnings : List LogRecord, (∀ r ∈ warnings, r.level = .warning) ∧
    ((∃ slope, t.phase = .patching slope ∧ t.status = s.status ∧ t.result = s.result ∧
        t.resultValid = s.resultValid ∧ t.log = s.log ++ warnings) ∨
      (t.status = 0 ∧ t.log = s.log ++ warnings) ∨
      (∃ c info, c ≠ .ok ∧ c ≠ .rangeError ∧ t.status = c.toByte ∧ t.result = 0 ∧
        t.resultValid = 0 ∧
        t.log = s.log ++ warnings ++ [{ level := .error, code := c, info := info }]))

theorem reportsOne_of_error {c : Code} {info : Word} (hc : c.IsError) (hstatus : t.status = c.toByte)
    (hresult : t.result = 0) (hvalid : t.resultValid = 0) (hlog : t.log = s.log ++ [⟨.error, c, info⟩]) :
    ReportsOne s t :=
  ⟨[], by simp, .inr (.inr ⟨c, info, hc.1, hc.2, hstatus, hresult, hvalid, by rw [hlog, List.append_nil]⟩)⟩

theorem reportsOne_of_ok (hstatus : t.status = 0) (hlog : t.log = s.log) : ReportsOne s t :=
  ⟨[], by simp, .inr (.inl ⟨hstatus, by rw [hlog, List.append_nil]⟩)⟩

theorem reportsOne_of_going_on {slope : Nat} (hp : t.phase = .patching slope) (hstatus : t.status = s.status)
    (hresult : t.result = s.result) (hvalid : t.resultValid = s.resultValid) (hlog : t.log = s.log) :
    ReportsOne s t :=
  ⟨[], by simp, .inl ⟨slope, hp, hstatus, hresult, hvalid, by rw [hlog, List.append_nil]⟩⟩

/-- An operation only adds to the log. -/
theorem ReportsOne.log_grows (h : ReportsOne s t) : ∃ records, t.log = s.log ++ records := by
  obtain ⟨warnings, -, ⟨-, -, -, -, -, hlog⟩ | ⟨-, hlog⟩ | ⟨c, info, -, -, -, -, -, hlog⟩⟩ := h
  · exact ⟨_, hlog⟩
  · exact ⟨_, hlog⟩
  · exact ⟨_, hlog.trans (List.append_assoc _ _ _)⟩

/-- `getIcm` logs warnings only. -/
theorem getIcm_warns (s : State) (light : Nat) (ids : List Byte) : ∃ warnings : List LogRecord,
    (∀ r ∈ warnings, r.level = .warning) ∧ (s.getIcm light ids).1 = { s with log := s.log ++ warnings } := by
  cases ids with
  | nil => exact ⟨[], by simp, by simp [State.getIcm]⟩
  | cons p ps =>
    obtain absent | held := le_or_gt s.icmCount.toNat (s.foldedCube light p ps).toNat
    · exact ⟨[⟨.warning, .rangeError, s.foldedCube light p ps⟩], by simp, by rw [getIcm_of_absent absent]; rfl⟩
    · exact ⟨[], by simp, by rw [getIcm_of_held held, List.append_nil]⟩

/-- What a composite answers where there is an output frame: an error that ends the `ST_PATCH`, or the command done. -/
theorem composite_outcome {f : OutFrame} (s : State) (light : BitVec 4) (hout : s.out = some f) :
    (∃ c info, c.IsError ∧ s.composite light = .next ((s.selected light).1.patchFail c info)) ∨
    (∃ a, destAddress f s.curY.toNat s.curK.toNat = .ok a ∧
      s.composite light = .next ((s.selected light).1.commandDone f a (s.quantized light))) := by
  obtain absent | held := le_or_gt s.icmCount.toNat (s.selected light).2.toNat
  · exact .inl ⟨_, _, by decide, composite_of_absent absent⟩
  · cases hd : destAddress f s.curY.toNat s.curK.toNat with
    | error e => exact .inl ⟨e.1, e.2, destAddress_isError hd, composite_of_dest_error held hout hd⟩
    | ok a => exact .inr ⟨a, rfl, composite_of_ok held hout hd⟩

theorem maskQuery_reportsOne (s : State) (f : Byte → Word) : ReportsOne s (s.maskQuery f) := by
  cases h : s.maskCause with
  | some e => rw [maskQuery_of_cause h]; exact reportsOne_of_error (maskCause_isError h) rfl rfl rfl rfl
  | none => rw [maskQuery_of_no_cause h]; exact reportsOne_of_ok rfl rfl

theorem exec_icmLookup_reportsOne (h : exec .icmLookup s = .next t) : ReportsOne s t := by
  obtain absent | held := le_or_gt s.icmCount.toNat s.arg0.toNat
  · cases (exec_icmLookup_of_error (paletteIndex_of_absent _ absent)).symm.trans h
    exact reportsOne_of_error (by decide) rfl rfl rfl rfl
  · cases (exec_icmLookup_of_ok (paletteIndex_eq_ok.mpr ⟨held, rfl⟩)).symm.trans h
    exact reportsOne_of_ok rfl rfl

theorem exec_pmGetIcm_of_cause {c : Code} {info : Word} (h : s.getIcmCause = some (c, info)) :
    exec .pmGetIcm s = .next (s.raise c info) := by
  show execPmGetIcm s = _
  rw [execPmGetIcm, h]

theorem exec_pmGetIcm_of_no_cause (h : s.getIcmCause = none) : exec .pmGetIcm s =
    .next ((s.getIcm s.arg0.toNat s.patternList).1.doneWith (s.getIcm s.arg0.toNat s.patternList).2) := by
  show execPmGetIcm s = _
  rw [execPmGetIcm, h]

theorem exec_pmGetIcm_reportsOne (h : exec .pmGetIcm s = .next t) : ReportsOne s t := by
  cases hc : s.getIcmCause with
  | some e =>
    cases (exec_pmGetIcm_of_cause hc).symm.trans h
    exact reportsOne_of_error (getIcmCause_isError hc) rfl rfl rfl rfl
  | none =>
    cases (exec_pmGetIcm_of_no_cause hc).symm.trans h
    obtain ⟨warnings, hw, hlog⟩ := getIcm_warns s s.arg0.toNat s.patternList
    exact ⟨warnings, hw, .inr (.inl ⟨rfl, congrArg State.log hlog⟩)⟩

theorem exec_pmLoad_of_loaded (h : s.pmState = 1) : exec .pmLoad s = .next (s.raise .preconditionError 0x10) :=
  congrArg Host.Outcome.next (if_pos h)

theorem exec_pmLoad_of_ok {masks : List (List Byte)} (h : s.pmState = 0)
    (hr : pmMasks s.cfg.pmStream = .ok masks pos) : exec .pmLoad s = .next (s.pmLoadDone masks.flatten pos) := by
  show execPmLoad s = _
  rw [execPmLoad, if_neg (by simp [h]), hr]

theorem exec_pmLoad_of_fail {c : Code} {info : Nat} (h : s.pmState = 0)
    (hr : pmMasks s.cfg.pmStream = .fail c info pos) : exec .pmLoad s = .next (s.pmFail c info pos) := by
  show execPmLoad s = _
  rw [execPmLoad, if_neg (by simp [h]), hr]

theorem exec_icmLoad_reportsOne (h : exec .icmLoad s = .next t) : ReportsOne s t := by
  obtain unloaded | loaded := bit_cases s.icmState
  · have raises := icmCubes_raises (P := Code.IsError) (b := s.cfg.icmStream) (pos := 0) (by decide) (by decide)
      (by decide) s.cfg.icmMaxCubes (s.cfg.icmStream.length / 32768 + 1) 0
    cases hr : icmCubes s.cfg.icmStream s.cfg.icmMaxCubes (s.cfg.icmStream.length / 32768 + 1) 0 0 with
    | ok bytes p => cases (exec_icmLoad_of_ok unloaded hr).symm.trans h; exact reportsOne_of_ok rfl rfl
    | fail c info p =>
      rw [hr] at raises
      cases (exec_icmLoad_of_fail unloaded hr).symm.trans h
      exact reportsOne_of_error raises rfl rfl rfl rfl
  · cases (exec_icmLoad_of_loaded loaded).symm.trans h
    exact reportsOne_of_error (by decide) rfl rfl rfl rfl

theorem exec_pmLoad_reportsOne (h : exec .pmLoad s = .next t) : ReportsOne s t := by
  obtain unloaded | loaded := bit_cases s.pmState
  · have raises := pmMasks_raises (P := Code.IsError) (b := s.cfg.pmStream) (by decide) (by decide)
    cases hr : pmMasks s.cfg.pmStream with
    | ok masks p => cases (exec_pmLoad_of_ok unloaded hr).symm.trans h; exact reportsOne_of_ok rfl rfl
    | fail c info p =>
      rw [hr] at raises
      cases (exec_pmLoad_of_fail unloaded hr).symm.trans h
      exact reportsOne_of_error raises rfl rfl rfl rfl
  · cases (exec_pmLoad_of_loaded loaded).symm.trans h
    exact reportsOne_of_error (by decide) rfl rfl rfl rfl

theorem exec_fmLoad_reportsOne (h : exec .fmLoad s = .next t) : ReportsOne s t := by
  obtain unloaded | loaded := bit_cases s.fmState
  · have raises := repeatRd_raises (P := Code.IsError) (f := readFiltermap s.cfg)
      (fun k _ => readFiltermap_raises (by decide) (by decide) s.cfg k) 17 0 0
    cases hr : repeatRd (readFiltermap s.cfg) 17 0 0 with
    | ok fm p => cases (exec_fmLoad_of_ok unloaded hr).symm.trans h; exact reportsOne_of_ok rfl rfl
    | fail c info p =>
      rw [hr] at raises
      cases (exec_fmLoad_of_fail unloaded hr).symm.trans h
      exact reportsOne_of_error raises rfl rfl rfl rfl
  · cases (exec_fmLoad_of_loaded loaded).symm.trans h
    exact reportsOne_of_error (by decide) rfl rfl rfl rfl

theorem exec_stLoad_reportsOne (h : exec .stLoad s = .next t) : ReportsOne s t := by
  by_cases loaded : s.stState = 1
  · cases (exec_stLoad_of_loaded loaded).symm.trans h
    exact reportsOne_of_error (by decide) rfl rfl rfl rfl
  · have raises := readTemplates_raises (P := Code.IsError) (by decide) (by decide) s.cfg
    cases hr : readTemplates s.cfg with
    | ok ts p => cases (exec_stLoad_of_ok loaded hr).symm.trans h; exact reportsOne_of_ok rfl rfl
    | fail c info p =>
      rw [hr] at raises
      cases (exec_stLoad_of_fail loaded hr).symm.trans h
      exact reportsOne_of_error raises rfl rfl rfl rfl

theorem exec_stUnload_reportsOne (h : exec .stUnload s = .next t) : ReportsOne s t := by
  by_cases loaded : s.stState = 1
  · cases (exec_stUnload_of_loaded loaded).symm.trans h
    exact reportsOne_of_ok rfl rfl
  · cases (exec_stUnload_of_not_loaded loaded).symm.trans h
    exact ⟨[_], by simp, .inr (.inl ⟨rfl, rfl⟩)⟩

theorem exec_stPatch_reportsOne (h : exec .stPatch s = .next t) : ReportsOne s t := by
  obtain ⟨c, info, hc, rfl⟩ | ⟨-, tpl, -, rfl⟩ := execStPatch_cases h
  · exact reportsOne_of_error (patchCause_isError hc) rfl rfl rfl rfl
  · exact reportsOne_of_going_on rfl rfl rfl rfl rfl

theorem exec_srcpx_reportsOne {si : BitVec 15} {a : BitVec 9} (h : exec (.srcpx si a) s = .next t) :
    ReportsOne s t := by
  obtain ⟨⟨slope, hp⟩, -⟩ := execSrcpx_cases h
  cases hcolour : s.sourceColour s.curY.toNat si with
  | error e =>
    cases (exec_srcpx_of_error hp hcolour).symm.trans h
    exact reportsOne_of_error (sourceColour_isError hcolour) rfl rfl rfl rfl
  | ok rgb =>
    cases (exec_srcpx_of_ok hp hcolour).symm.trans h
    exact reportsOne_of_going_on hp rfl rfl rfl rfl

theorem exec_blend_reportsOne {light n : BitVec 4} (h : exec (.blend light n) s = .next t) : ReportsOne s t := by
  obtain ⟨⟨slope, hp⟩, hn, -⟩ := execBlend_cases h
  rw [exec_blend_of_operands hp hn] at h
  obtain ⟨warnings, hw, hsel⟩ := getIcm_warns s light.toNat s.patternList
  have hsel : (s.selected light).1 = _ := hsel
  have failed {c : Code} {info : Word} (hc : c.IsError) : ReportsOne s ((s.selected light).1.patchFail c info) := by
    rw [hsel]
    exact ⟨warnings, hw, .inr (.inr ⟨c, info, hc.1, hc.2, rfl, rfl, rfl, rfl⟩)⟩
  cases hout : s.out with
  | none =>
    obtain absent | held := le_or_gt s.icmCount.toNat (s.selected light).2.toNat
    · cases (composite_of_absent absent).symm.trans h
      exact failed (by decide)
    · cases (composite_of_no_frame held hout).symm.trans h
  | some f =>
    obtain ⟨c, info, hc, hs⟩ | ⟨a, -, hs⟩ := composite_outcome s light hout
    · cases hs.symm.trans h
      exact failed hc
    · cases hs.symm.trans h
      rw [hsel]
      exact ⟨warnings, hw, .inl ⟨slope, hp, rfl, rfl, rfl, rfl⟩⟩

theorem exec_reportsOne (h : exec i s = .next t) : ReportsOne s t := by
  cases i with
  | icmLoad => exact exec_icmLoad_reportsOne h
  | icmLookup => exact exec_icmLookup_reportsOne h
  | pmLoad => exact exec_pmLoad_reportsOne h
  | pmGetIcm => exact exec_pmGetIcm_reportsOne h
  | fmLoad => exact exec_fmLoad_reportsOne h
  | stLoad => exact exec_stLoad_reportsOne h
  | stUnload => exact exec_stUnload_reportsOne h
  | stPatch => exact exec_stPatch_reportsOne h
  | srcpx => exact exec_srcpx_reportsOne h
  | blend => exact exec_blend_reportsOne h
  | stIsLoaded => cases h; exact reportsOne_of_ok rfl rfl
  | pmIgnore | pmBrighten | pmDarken | pmApply => cases h; exact maskQuery_reportsOne s _

/-! ### The log of a step -/

theorem step_log_grows_of_idle (idle : s.phase = .idle) (noReset : s.pending.head? ≠ some .reset)
    (h : step s = .next t) : ∃ records, t.log = s.log ++ records := by
  obtain ⟨-, hs⟩ | ⟨v, rest, i, -, -, hs⟩ | ⟨v, rest, -, -, hs⟩ | ⟨e, rest, hp, -, hs⟩ := step_idle_cases idle
  all_goals rw [hs] at h
  · cases h; exact ⟨[], (List.append_nil _).symm⟩
  · exact (exec_reportsOne h).log_grows
  · cases h; exact ⟨_, rfl⟩
  · have he : e ≠ .reset := fun he => noReset (by rw [hp, he, List.head?_cons])
    exact ⟨[], (serve_cfg_and_log he h).2.trans (List.append_nil _).symm⟩

theorem step_log_grows_of_patching {slope : Nat} (hp : s.phase = .patching slope) (h : step s = .next t) :
    ∃ records, t.log = s.log ++ records := by
  obtain ⟨f, -, -, hs⟩ | ⟨f, row, -, -, -, -, hs⟩ | ⟨f, row, c, i, -, -, -, -, -, hi, hs⟩ | ⟨-, hs⟩ :=
    step_patching_cases hp
  all_goals rw [hs] at h
  · cases h; exact ⟨[], (List.append_nil _).symm⟩
  · cases h; exact ⟨[], (List.append_nil _).symm⟩
  · exact (exec_reportsOne h).log_grows
  · cases h

end Sys2Proof.Machine

namespace Sys2Proof

open Sys2Proof.Machine

/-- Settles O19: each instruction's checks and readers raise error codes, and its successes log warnings only. -/
theorem everyInstructionReportsOneOutcome : Obligations.EveryInstructionReportsOneOutcome := by
  unfold Obligations.EveryInstructionReportsOneOutcome
  exact fun i s t h => exec_reportsOne h

/-- Settles O18: an instruction adds what it reports, and no host access but reset touches the log. -/
theorem logOnlyGrows : Obligations.LogOnlyGrows := by
  unfold Obligations.LogOnlyGrows
  intro s t h noReset
  cases hp : s.phase with
  | idle => exact step_log_grows_of_idle hp (noReset hp) h
  | patching slope => exact step_log_grows_of_patching hp h

/-- Settles O40: a load that does not succeed is refused or clears its unit. -/
theorem failedLoadsClearTheirUnit : Obligations.FailedLoadsClearTheirUnit := by
  unfold Obligations.FailedLoadsClearTheirUnit
  intro s t failed
  refine ⟨fun h => ?icm, fun h => ?pm, fun h => ?fm, fun h => ?st⟩
  case icm =>
    obtain ⟨loaded, rfl⟩ | ⟨unloaded, c, info, p, -, rfl⟩ | ⟨-, bytes, k, -, -, -, rfl⟩ := execIcmLoad_cases h
    · rw [if_pos loaded]; exact ⟨loaded, rfl, rfl, rfl⟩
    · rw [if_neg (by simp [unloaded])]; exact ⟨rfl, rfl, rfl⟩
    · exact absurd rfl failed
  case pm =>
    obtain ⟨loaded, rfl⟩ | ⟨unloaded, c, info, p, -, rfl⟩ | ⟨-, bytes, p, -, -, rfl⟩ := execPmLoad_cases h
    · rw [if_pos loaded]; exact ⟨loaded, rfl, rfl⟩
    · rw [if_neg (by simp [unloaded])]; exact ⟨rfl, rfl⟩
    · exact absurd rfl failed
  case fm =>
    obtain ⟨loaded, rfl⟩ | ⟨unloaded, c, info, p, -, rfl⟩ | ⟨-, fm, p, -, -, rfl⟩ := execFmLoad_cases h
    · rw [if_pos loaded]; exact ⟨loaded, rfl, rfl⟩
    · rw [if_neg (by simp [unloaded])]; exact ⟨rfl, rfl⟩
    · exact absurd rfl failed
  case st =>
    obtain ⟨loaded, rfl⟩ | ⟨unloaded, c, info, p, -, rfl⟩ | ⟨-, ts, p, -, -, -, rfl⟩ := execStLoad_cases h
    · rw [if_pos loaded]; exact ⟨loaded, rfl, rfl⟩
    · rw [if_neg unloaded]; exact ⟨rfl, rfl⟩
    · exact absurd rfl failed

/-- Settles O41: the first test of each of the three loads. -/
theorem loadedUnitsRefuseALoad : Obligations.LoadedUnitsRefuseALoad := by
  unfold Obligations.LoadedUnitsRefuseALoad
  exact fun s => ⟨exec_pmLoad_of_loaded, exec_fmLoad_of_loaded, exec_stLoad_of_loaded⟩

end Sys2Proof
end

section
/-! The invariant of 10_state.md rule R40: reset has it, each instruction and each host access keeps it, and so does each
step of an `ST_PATCH`, whose possible next states are listed once; and a state with it does not stop. -/

namespace Sys2Proof.Machine

variable {s t : State} {i : Instr} {slope : Nat}

/-! ### What an operation in progress relies on -/

/-- `PhaseSound` of an `ST_PATCH` of the slope, field by field. -/
structure PatchSound (s : State) (slope : Nat) : Prop where
  slope_lt : slope < 17
  srcPresent : s.srcPresent = 1
  fmLoaded : s.fmState = 1
  stLoaded : s.stState = 1
  ids : ∀ id ∈ s.patternList, id.toNat < 40
  pmLoaded : s.psetLen ≠ 0 → s.pmState = 1
  frame : s.out.isSome
  taps : s.taps.length ≤ ((s.commandAt slope).map fun c => c.n.toNat).getD 0

/-- Between operations no operand is gathered. -/
theorem phaseSound_iff_of_idle (hp : s.phase = .idle) : PhaseSound s ↔ s.taps = [] := by
  simp only [PhaseSound, hp]

theorem phaseSound_of_idle (hp : s.phase = .idle) (ht : s.taps = []) : PhaseSound s :=
  (phaseSound_iff_of_idle hp).mpr ht

theorem PatchSound.of_phaseSound (hp : s.phase = .patching slope) (h : PhaseSound s) : PatchSound s slope := by
  simp only [PhaseSound, hp] at h
  obtain ⟨hslope, hsrc, hfm, hst, hids, hpm, hframe, htaps⟩ := h
  exact ⟨hslope, hsrc, hfm, hst, hids, hpm, hframe, htaps⟩

theorem PatchSound.phaseSound (h : PatchSound s slope) (hp : s.phase = .patching slope) : PhaseSound s := by
  simp only [PhaseSound, hp]
  exact ⟨h.slope_lt, h.srcPresent, h.fmLoaded, h.stLoaded, h.ids, h.pmLoaded, h.frame, h.taps⟩

theorem commandAt_of_standsAt {c : FilterCmd} (h : StandsAt s slope c) : s.commandAt slope = some c := by
  obtain ⟨-, f, row, hf, -, hrow, -, hc⟩ := h
  rw [State.commandAt, hf, Option.bind_some, hrow, Option.bind_some, hc]

/-- Behind the last command of a row no operand is gathered. -/
theorem taps_nil_of_row_end {f : Filtermap} {row : FilterRow} (h : PatchSound s slope) (hf : s.fm[slope]? = some f)
    (hrow : f.rows[s.curY.toNat]? = some row) (hwf : row.WellFormed) (hk : row.width.toNat ≤ s.curK.toNat) :
    s.taps = [] := by
  have hnone : s.commandAt slope = none := by
    rw [State.commandAt, hf, Option.bind_some, hrow, Option.bind_some, List.getElem?_eq_none (by rw [hwf.1]; exact hk)]
  have hlen := h.taps
  rw [hnone] at hlen
  exact List.eq_nil_of_length_eq_zero (Nat.le_zero.mp hlen)

/-! ### The next states of an `ST_PATCH` -/

theorem step_of_completed {f : Filtermap} (hp : s.phase = .patching slope) (hf : s.fm[slope]? = some f)
    (hy : f.height.toNat ≤ s.curY.toNat) : step s = .next s.patchDone := by
  rw [step_eq, State.fetch, hp]
  simp only [State.runControl, hf, if_pos hy]
  rfl

theorem step_of_row_end {f : Filtermap} {row : FilterRow} (hp : s.phase = .patching slope)
    (hf : s.fm[slope]? = some f) (hy : s.curY.toNat < f.height.toNat) (hrow : f.rows[s.curY.toNat]? = some row)
    (hk : row.width.toNat ≤ s.curK.toNat) : step s = .next (s.nextRow f.height) := by
  rw [step_eq, State.fetch, hp]
  simp only [State.runControl, hf, if_neg (Nat.not_le.mpr hy), hrow, if_pos hk]
  rfl

/-- The next states that a step of an `ST_PATCH` of the slope may answer. -/
inductive PatchStep (s : State) (slope : Nat) : State → Prop where
  /-- No row is left. -/
  | completed (f : Filtermap) (hf : s.fm[slope]? = some f) (hy : f.height.toNat ≤ s.curY.toNat) :
      PatchStep s slope s.patchDone
  /-- No command of the row is left. -/
  | rowEnd (f : Filtermap) (row : FilterRow) (hf : s.fm[slope]? = some f) (hy : s.curY.toNat < f.height.toNat)
      (hrow : f.rows[s.curY.toNat]? = some row) (hk : row.width.toNat ≤ s.curK.toNat) :
      PatchStep s slope (s.nextRow f.height)
  /-- A record of the command at the cursor is executed. -/
  | record (c : FilterCmd) (tap : Tap) (hc : StandsAt s slope c) (hlt : s.taps.length < c.n.toNat) :
      PatchStep s slope { s with taps := s.taps ++ [tap] }
  /-- The command at the cursor is done. -/
  | command (c : FilterCmd) (f : OutFrame) (a : Nat) (idx : Byte) (log : List LogRecord) (hc : StandsAt s slope c)
      (hn : s.taps.length = c.n.toNat) (hout : s.out = some f) :
      PatchStep s slope (({ s with log := log } : State).commandDone f a idx)
  /-- A fault ends the operation. -/
  | fault (code : Code) (info : Word) (log : List LogRecord) (hcode : code.IsError) :
      PatchStep s slope (({ s with log := log } : State).patchFail code info)

theorem exists_patchStep_of_record {c : FilterCmd} (hc : StandsAt s slope c) (hwf : c.WellFormed)
    (hlt : s.taps.length < c.n.toNat) : ∃ t, step s = .next t ∧ PatchStep s slope t := by
  have hget := List.getElem?_eq_getElem (hwf.symm ▸ hlt : s.taps.length < c.src.length)
  rw [step_of_standsAt hc (nextOfCommand_of_record hlt hget)]
  cases hcolour : s.sourceColour s.curY.toNat c.src[s.taps.length].sourceIndex with
  | error e =>
    exact ⟨_, exec_srcpx_of_error hc.phase hcolour, .fault e.1 e.2 s.log (sourceColour_isError hcolour)⟩
  | ok rgb => exact ⟨_, exec_srcpx_of_ok hc.phase hcolour, .record c _ hc hlt⟩

theorem exists_patchStep_of_header {c : FilterCmd} (hc : StandsAt s slope c) (hn : s.taps.length = c.n.toNat)
    (hframe : s.out.isSome) : ∃ t, step s = .next t ∧ PatchStep s slope t := by
  obtain ⟨f, hout⟩ := Option.isSome_iff_exists.mp hframe
  rw [step_of_standsAt hc (nextOfCommand_of_header hn.ge), exec_blend_of_operands hc.phase hn]
  obtain ⟨code, info, hcode, hs⟩ | ⟨a, -, hs⟩ := composite_outcome s c.light hout
  · rw [hs, selected_fst]
    exact ⟨_, rfl, .fault code info _ hcode⟩
  · rw [hs, selected_fst]
    exact ⟨_, rfl, .command c f a _ _ hc hn hout⟩

/-- From a state with the invariant the step answers one of them. -/
theorem exists_patchStep (h : StateSound s) (hp : s.phase = .patching slope) :
    ∃ t, step s = .next t ∧ PatchStep s slope t := by
  obtain ⟨-, -, -, ⟨-, -, hfm, -⟩, -, hphase⟩ := h
  have sound := PatchSound.of_phaseSound hp hphase
  obtain ⟨hlen, hstore⟩ := hfm.2 sound.fmLoaded
  obtain ⟨f, hf⟩ : ∃ f, s.fm[slope]? = some f :=
    ⟨_, List.getElem?_eq_getElem (by rw [hlen]; exact sound.slope_lt)⟩
  obtain ⟨hheight, hrows⟩ := hstore f (List.mem_of_getElem? hf)
  obtain hy | hy := le_or_gt f.height.toNat s.curY.toNat
  · exact ⟨_, step_of_completed hp hf hy, .completed f hf hy⟩
  · obtain ⟨row, hrow⟩ : ∃ row, f.rows[s.curY.toNat]? = some row :=
      ⟨_, List.getElem?_eq_getElem (by rw [hheight]; exact hy)⟩
    obtain ⟨hwidth, hcmds⟩ := hrows row (List.mem_of_getElem? hrow)
    obtain hk | hk := le_or_gt row.width.toNat s.curK.toNat
    · exact ⟨_, step_of_row_end hp hf hy hrow hk, .rowEnd f row hf hy hrow hk⟩
    · obtain ⟨c, hcmd⟩ : ∃ c, row.cmds[s.curK.toNat]? = some c :=
        ⟨_, List.getElem?_eq_getElem (by rw [hwidth]; exact hk)⟩
      have hc : StandsAt s slope c := ⟨hp, f, row, hf, hy, hrow, hk, hcmd⟩
      have htaps := sound.taps
      rw [commandAt_of_standsAt hc] at htaps
      obtain hlt | hn := Nat.lt_or_eq_of_le htaps
      · exact exists_patchStep_of_record hc (hcmds c (List.mem_of_getElem? hcmd)) hlt
      · exact exists_patchStep_of_header hc hn sound.frame

/-! ### Steps of an `ST_PATCH` keep the invariant -/

theorem PatchStep.sound (hstep : PatchStep s slope t) (h : StateSound s) (hp : s.phase = .patching slope) :
    StateSound t := by
  obtain ⟨hcfg, hstores, hpos, htables, hout, hphase⟩ := h
  have sound := PatchSound.of_phaseSound hp hphase
  obtain ⟨-, -, ⟨-, hloaded⟩, -⟩ := id htables
  obtain ⟨-, hstore⟩ := hloaded sound.fmLoaded
  cases hstep with
  | completed f hf hy => exact ⟨hcfg, hstores, hpos, htables, hout, phaseSound_of_idle rfl rfl⟩
  | rowEnd f row hf hy hrow hk =>
    have hwf : row.WellFormed := (hstore f (List.mem_of_getElem? hf)).2 row (List.mem_of_getElem? hrow)
    have htaps : (s.nextRow f.height).taps.length = 0 := by
      rw [State.nextRow_taps, taps_nil_of_row_end sound hf hrow hwf hk, List.length_nil]
    exact ⟨hcfg, hstores, hpos, htables, hout,
      PatchSound.phaseSound (slope := slope) { sound with taps := by rw [htaps]; exact Nat.zero_le _ } hp⟩
  | record c tap hc hlt =>
    have hcmd : State.commandAt { s with taps := s.taps ++ [tap] } slope = some c :=
      commandAt_of_standsAt (s := { s with taps := s.taps ++ [tap] }) ⟨hc.phase, hc.command⟩
    refine ⟨hcfg, hstores, hpos, htables, hout,
      PatchSound.phaseSound (slope := slope) { sound with taps := ?_ } hp⟩
    rw [hcmd, List.length_append]
    exact hlt
  | command c f a idx log hc hn hf =>
    obtain ⟨hicm, hpm, hleft, hright, hpix, hpal, hpset, hframe⟩ := hstores
    have hwf : Memory.wf (Memory.write f.pix a idx) := Memory.wf_write f.pix a idx (hframe f hf)
    refine ⟨hcfg, ⟨hicm, hpm, hleft, hright, hpix, hpal, hpset, ?_⟩, hpos, htables, ?_,
      PatchSound.phaseSound (slope := slope) { sound with frame := rfl, taps := Nat.zero_le _ } hp⟩
    · rintro g ⟨⟩
      exact hwf
    · rintro g ⟨⟩
      exact hout f hf
  | fault code info log hcode =>
    obtain ⟨hicm, hpm, hleft, hright, hpix, hpal, hpset, -⟩ := hstores
    exact ⟨hcfg, ⟨hicm, hpm, hleft, hright, hpix, hpal, hpset, nofun⟩, hpos, htables, nofun,
      phaseSound_of_idle rfl rfl⟩

/-! ### Reset -/

/-- With no cube every capacity is kept. -/
theorem icmSound_of_empty (hcount : s.icmCount = 0) (hicm : s.icm = []) : IcmSound s := by
  refine ⟨fun _ => ⟨hcount, hicm⟩, fun a ha => ?_, ?_⟩
  · rw [hcount] at ha
    simp at ha
  · rw [hcount]
    exact exceeds_eq_false_iff.mpr fun m _ => Nat.zero_le m

theorem resetWith_sound {c : Config} (hc : c.WellFormed) : StateSound (State.resetWith c) :=
  ⟨hc, ⟨.nil, .nil, .nil, .nil, .nil, .nil, .nil, nofun⟩,
    ⟨Nat.zero_le _, Nat.zero_le _, Nat.zero_le _, Nat.zero_le _⟩,
    ⟨icmSound_of_empty rfl rfl, ⟨fun _ => rfl, nofun⟩, ⟨fun _ => rfl, nofun⟩,
      ⟨nofun, fun _ => rfl, fun h => absurd rfl h, nofun, nofun, nofun⟩⟩,
    nofun, phaseSound_of_idle rfl rfl⟩

/-! ### The units after their instructions -/

theorem ofNat_toNat_le {p n : Nat} (h : p ≤ n) : (BitVec.ofNat 32 p).toNat ≤ n := by
  rw [BitVec.toNat_ofNat]
  exact (Nat.mod_le _ _).trans h

theorem icmSound_icmLoadDone {bytes : List Byte} {k p : Nat} (hlen : bytes.length = k * 32768)
    (hstream : bytes.length < 2 ^ 32) (hk : exceeds k s.cfg.icmMaxCubes = false) :
    IcmSound (s.icmLoadDone k bytes p) := by
  have hcount : (s.icmLoadDone k bytes p).icmCount.toNat = k := by
    rw [State.icmLoadDone_icmCount, BitVec.toNat_ofNat, Nat.mod_eq_of_lt (by omega)]
  refine ⟨nofun, fun a ha => ?_, by rw [hcount]; exact hk⟩
  rw [hcount, ← hlen] at ha
  rw [State.icmLoadDone_icm, Memory.read_ofList_zero, List.getElem?_eq_getElem ha]
  rfl

theorem pmSound_pmLoadDone {bytes : List Byte} {p : Nat} (hlen : bytes.length = 163840) :
    PmSound (s.pmLoadDone bytes p) := by
  refine ⟨nofun, fun _ a ha => ?_⟩
  rw [State.pmLoadDone_pm, Memory.read_ofList_zero, List.getElem?_eq_getElem (hlen ▸ ha)]
  rfl

theorem stSound_stFail (s : State) (c : Code) (info p : Nat) : StSound (s.stFail c info p) :=
  ⟨nofun, fun _ => rfl, fun h => absurd rfl h, nofun, nofun, nofun⟩

theorem stSound_stLoadDone {ts : List Template} {p : Nat} (hlen : ts.length = 17)
    (hts : ∀ x ∈ ts, TemplateRead s.cfg.stStream.length x) : StSound (s.stLoadDone ts p) :=
  ⟨nofun, nofun, fun _ => hlen, fun x hx => ⟨(hts x hx).1, (hts x hx).2.1⟩, fun _ x hx => (hts x hx).2.2,
    fun h => absurd rfl h⟩

/-- `ST_UNLOAD` keeps the templates' number and headers and leaves a state that is not Loaded. -/
theorem stSound_clearRows (h : StSound s) (ht : t.templates = s.templates.map Template.clearRows)
    (hcfg : t.cfg = s.cfg) (hst : t.stState ≠ 3 ∧ t.stState ≠ 1 ∧ (t.stState = 0 ↔ s.stState = 0)) : StSound t := by
  obtain ⟨-, hnone, hlen, hoffs, -, -⟩ := h
  obtain ⟨hne3, hne1, hiff⟩ := hst
  refine ⟨hne3, fun h0 => ?_, fun h0 => ?_, fun x hx => ?_, fun h1 => absurd h1 hne1, fun _ x hx => ?_⟩
  · rw [ht, hnone (hiff.mp h0), List.map_nil]
  · rw [ht, List.length_map]
    exact hlen (mt hiff.mpr h0)
  · rw [ht] at hx
    obtain ⟨y, hy, rfl⟩ := List.mem_map.mp hx
    rw [hcfg]
    exact hoffs y hy
  · rw [ht] at hx
    obtain ⟨y, -, rfl⟩ := List.mem_map.mp hx
    exact ⟨rfl, rfl, rfl⟩

/-! ### Instructions of the host keep the invariant -/

/-- An instruction that reports only. -/
theorem ReportsOnly.sound (hr : ReportsOnly s t) (h : StateSound s) : StateSound t := by
  rw [hr]
  exact h

theorem exec_icmLoad_sound (h : StateSound s) (he : exec .icmLoad s = .next t) : StateSound t := by
  obtain ⟨hcfg, ⟨-, hstores⟩, ⟨-, hpos⟩, ⟨-, htables⟩, hout, hphase⟩ := id h
  obtain ⟨-, rfl⟩ | ⟨-, c, info, p, hp, rfl⟩ | ⟨-, bytes, k, hlen, hle, hk, rfl⟩ := execIcmLoad_cases he
  · exact h
  · exact ⟨hcfg, ⟨.nil, hstores⟩, ⟨ofNat_toNat_le hp, hpos⟩, ⟨icmSound_of_empty rfl rfl, htables⟩, hout, hphase⟩
  · exact ⟨hcfg, ⟨Memory.wf_ofList 0 bytes, hstores⟩, ⟨ofNat_toNat_le hle, hpos⟩,
      ⟨icmSound_icmLoadDone hlen (hle.trans_lt hcfg.1) hk, htables⟩, hout, hphase⟩

theorem exec_pmLoad_sound (hp : s.phase = .idle) (h : StateSound s) (he : exec .pmLoad s = .next t) :
    StateSound t := by
  obtain ⟨hcfg, ⟨hicm, -, hstores⟩, ⟨hipos, -, hpos⟩, ⟨hi, -, htables⟩, hout, hphase⟩ := id h
  obtain ⟨-, rfl⟩ | ⟨-, c, info, p, hle, rfl⟩ | ⟨-, bytes, p, hlen, hle, rfl⟩ := execPmLoad_cases he
  · exact h
  · exact ⟨hcfg, ⟨hicm, .nil, hstores⟩, ⟨hipos, ofNat_toNat_le hle, hpos⟩, ⟨hi, ⟨fun _ => rfl, nofun⟩, htables⟩, hout,
      phaseSound_of_idle hp ((phaseSound_iff_of_idle hp).mp hphase)⟩
  · exact ⟨hcfg, ⟨hicm, Memory.wf_ofList 0 bytes, hstores⟩, ⟨hipos, ofNat_toNat_le hle, hpos⟩,
      ⟨hi, pmSound_pmLoadDone hlen, htables⟩, hout, phaseSound_of_idle hp ((phaseSound_iff_of_idle hp).mp hphase)⟩

theorem exec_fmLoad_sound (hp : s.phase = .idle) (h : StateSound s) (he : exec .fmLoad s = .next t) :
    StateSound t := by
  obtain ⟨hcfg, hstores, ⟨hipos, hppos, -, hpos⟩, ⟨hi, hpm, -, hst⟩, hout, hphase⟩ := id h
  obtain ⟨-, rfl⟩ | ⟨-, c, info, p, hle, rfl⟩ | ⟨-, fm, p, hwf, hle, rfl⟩ := execFmLoad_cases he
  · exact h
  · exact ⟨hcfg, hstores, ⟨hipos, hppos, ofNat_toNat_le hle, hpos⟩, ⟨hi, hpm, ⟨fun _ => rfl, nofun⟩, hst⟩, hout,
      phaseSound_of_idle hp ((phaseSound_iff_of_idle hp).mp hphase)⟩
  · exact ⟨hcfg, hstores, ⟨hipos, hppos, ofNat_toNat_le hle, hpos⟩, ⟨hi, hpm, ⟨nofun, fun _ => hwf⟩, hst⟩, hout,
      phaseSound_of_idle hp ((phaseSound_iff_of_idle hp).mp hphase)⟩

theorem exec_stLoad_sound (hp : s.phase = .idle) (h : StateSound s) (he : exec .stLoad s = .next t) :
    StateSound t := by
  obtain ⟨hcfg, hstores, ⟨hipos, hppos, hfpos, -⟩, ⟨hi, hpm, hfm, -⟩, hout, hphase⟩ := id h
  obtain ⟨-, rfl⟩ | ⟨-, c, info, p, hle, rfl⟩ | ⟨-, ts, p, hlen, hts, hle, rfl⟩ := execStLoad_cases he
  · exact h
  · exact ⟨hcfg, hstores, ⟨hipos, hppos, hfpos, ofNat_toNat_le hle⟩, ⟨hi, hpm, hfm, stSound_stFail s c info p⟩, hout,
      phaseSound_of_idle hp ((phaseSound_iff_of_idle hp).mp hphase)⟩
  · exact ⟨hcfg, hstores, ⟨hipos, hppos, hfpos, ofNat_toNat_le hle⟩, ⟨hi, hpm, hfm, stSound_stLoadDone hlen hts⟩, hout,
      phaseSound_of_idle hp ((phaseSound_iff_of_idle hp).mp hphase)⟩

theorem exec_stUnload_sound (hp : s.phase = .idle) (h : StateSound s) (he : exec .stUnload s = .next t) :
    StateSound t := by
  obtain ⟨hcfg, hstores, hpos, ⟨hi, hpm, hfm, hst⟩, hout, hphase⟩ := h
  by_cases loaded : s.stState = 1
  · cases (exec_stUnload_of_loaded loaded).symm.trans he
    exact ⟨hcfg, hstores, hpos, ⟨hi, hpm, hfm, stSound_clearRows hst rfl rfl (by simp [loaded])⟩, hout,
      phaseSound_of_idle hp ((phaseSound_iff_of_idle hp).mp hphase)⟩
  · cases (exec_stUnload_of_not_loaded loaded).symm.trans he
    exact ⟨hcfg, hstores, hpos, ⟨hi, hpm, hfm, stSound_clearRows hst rfl rfl ⟨hst.1, loaded, Iff.rfl⟩⟩, hout,
      phaseSound_of_idle hp ((phaseSound_iff_of_idle hp).mp hphase)⟩

theorem exec_stPatch_sound (h : StateSound s) (he : exec .stPatch s = .next t) : StateSound t := by
  obtain ⟨hcfg, ⟨hicm, hpm, hleft, hright, hpix, hpal, hpset, -⟩, hpos, htables, -, -⟩ := h
  obtain ⟨c, info, -, rfl⟩ | ⟨hcause, tpl, htpl, rfl⟩ := execStPatch_cases he
  · exact ⟨hcfg, ⟨hicm, hpm, hleft, hright, hpix, hpal, hpset, nofun⟩, hpos, htables, nofun,
      phaseSound_of_idle rfl rfl⟩
  · obtain ⟨hsrc, hfm, hslope, -, hids, hst, hpmState⟩ := patchCause_eq_none.mp hcause
    obtain ⟨-, -, -, -, -, -, -, hloaded, -⟩ := id htables
    refine ⟨hcfg, ⟨hicm, hpm, hleft, hright, hpix, hpal, hpset, ?_⟩, hpos, htables, ?_,
      PatchSound.phaseSound ⟨hslope, (bit_cases _).resolve_left hsrc, (bit_cases _).resolve_left hfm, hst,
        hids, fun hne => (bit_cases _).resolve_left (hpmState hne), rfl, Nat.zero_le _⟩ rfl⟩
    · rintro g ⟨⟩
      exact .nil
    · rintro g ⟨⟩
      obtain ⟨hl, hr, -⟩ := hloaded hst tpl (List.mem_of_getElem? htpl)
      exact ⟨hl, hr⟩

theorem exec_sound_of_idle (hp : s.phase = .idle) (h : StateSound s) (he : exec i s = .next t) : StateSound t := by
  cases i with
  | icmLoad => exact exec_icmLoad_sound h he
  | pmLoad => exact exec_pmLoad_sound hp h he
  | fmLoad => exact exec_fmLoad_sound hp h he
  | stLoad => exact exec_stLoad_sound hp h he
  | stUnload => exact exec_stUnload_sound hp h he
  | stPatch => exact exec_stPatch_sound h he
  | srcpx =>
    obtain ⟨⟨slope, hpatching⟩, -⟩ := execSrcpx_cases he
    simp [hp] at hpatching
  | blend =>
    obtain ⟨⟨slope, hpatching⟩, -, -⟩ := execBlend_cases he
    simp [hp] at hpatching
  | _ => exact (exec_query_reportsOnly (by simp) he).sound h

/-! ### The host's accesses keep the invariant -/

theorem serve_writeBase_sound {fld : FrameField} {v : Nat} (h : StateSound s) :
    StateSound { s with base := BaseFrame.write s.base v fld } := by
  obtain ⟨hcfg, ⟨hicm, hpm, hleft, hright, hpix, hrest⟩, hpos, htables, hout, hphase⟩ := id h
  cases fld with
  | left y => exact ⟨hcfg, ⟨hicm, hpm, Memory.wf_write _ y _ hleft, hright, hpix, hrest⟩, hpos, htables, hout, hphase⟩
  | right y => exact ⟨hcfg, ⟨hicm, hpm, hleft, Memory.wf_write _ y _ hright, hpix, hrest⟩, hpos, htables, hout, hphase⟩
  | pix a => exact ⟨hcfg, ⟨hicm, hpm, hleft, hright, Memory.wf_write _ a _ hpix, hrest⟩, hpos, htables, hout, hphase⟩
  | _ => exact h

theorem serve_sound {e : HostEvent} (hp : s.phase = .idle) (h : StateSound s) (he : s.serve e = .next t) :
    StateSound t := by
  obtain ⟨hcfg, hstores, hpos, htables, hout, hphase⟩ := id h
  have htaps := (phaseSound_iff_of_idle hp).mp hphase
  cases e with
  | writeReg r v =>
    cases he
    unfold State.writeReg
    split
    all_goals exact ⟨hcfg, hstores, hpos, htables, hout, phaseSound_of_idle hp htaps⟩
  | readReg r =>
    cases hv : s.regValue r with
    | none => simp [State.serve, hv] at he
    | some v =>
      simp only [State.serve, hv, Host.Outcome.next.injEq] at he
      subst he
      exact h
  | readBase f =>
    cases he
    cases BaseFrame.read s.base f <;> exact h
  | readOut f =>
    cases he
    cases s.outView.bind fun o => OutFrame.read o f <;> exact h
  | writeBase f v => cases he; exact serve_writeBase_sound h
  | writePal p c =>
    cases he
    obtain ⟨hicm, hpm, hleft, hright, hpix, hpal, hrest⟩ := hstores
    exact ⟨hcfg, ⟨hicm, hpm, hleft, hright, hpix, Memory.wf_write _ _ c hpal, hrest⟩, hpos, htables, hout, hphase⟩
  | writePset j id =>
    cases he
    obtain ⟨hicm, hpm, hleft, hright, hpix, hpal, hpset, hframe⟩ := hstores
    exact ⟨hcfg, ⟨hicm, hpm, hleft, hright, hpix, hpal, Memory.wf_write _ _ id hpset, hframe⟩, hpos, htables, hout,
      phaseSound_of_idle hp htaps⟩
  | reset => cases he; exact resetWith_sound hcfg

/-! ### Steps keep the invariant, and do not stop -/

theorem step_sound (h : StateSound s) (hstep : step s = .next t) : StateSound t := by
  cases hp : s.phase with
  | patching slope =>
    obtain ⟨u, hs, hu⟩ := exists_patchStep h hp
    cases hs.symm.trans hstep
    exact hu.sound h hp
  | idle =>
    obtain ⟨-, hs⟩ | ⟨v, rest, i, -, -, hs⟩ | ⟨v, rest, -, -, hs⟩ | ⟨e, rest, -, -, hs⟩ := step_idle_cases hp
    all_goals rw [hs] at hstep
    · cases hstep; exact h
    · exact exec_sound_of_idle (s := { s with pending := rest }) hp h hstep
    · cases hstep; exact h
    · exact serve_sound (s := { s with pending := rest }) hp h hstep

/-- An `ST_PATCH` that passes its checks finds its template. -/
theorem exec_stPatch_next (h : StateSound s) : ∃ t, exec .stPatch s = .next t := by
  obtain ⟨-, -, -, ⟨-, -, -, -, -, hlen, -⟩, -, -⟩ := h
  cases hc : s.patchCause with
  | some e => exact ⟨s.patchFail e.1 e.2, by show execStPatch s = _; rw [execStPatch, hc]⟩
  | none =>
    obtain ⟨-, -, hslope, -, -, hst, -⟩ := patchCause_eq_none.mp hc
    have hlt : s.arg0.toNat < s.templates.length := by
      rw [hlen (by simp [hst])]
      exact hslope
    exact ⟨_, exec_stPatch_of_no_cause hc (List.getElem?_eq_getElem hlt)⟩

/-- Of the host's operations only `ST_PATCH` could stop. -/
theorem exec_operation_next (h : StateSound s) (hi : i.format = .ho) : ∃ t, exec i s = .next t := by
  cases i with
  | stPatch => exact exec_stPatch_next h
  | srcpx | blend => cases hi
  | _ => exact ⟨_, rfl⟩

/-- Of the host's other accesses only the read of `OP` stops. -/
theorem serve_next {e : HostEvent} (he : e ≠ .readReg 0) : ∃ t, s.serve e = .next t := by
  cases e with
  | readReg r =>
    have hr : r ≠ 0 := fun hr => he (by rw [hr])
    have hpos : 0 < r.toNat := by bv_omega
    have hlt : r.toNat < 16 := r.isLt
    obtain ⟨v, hv⟩ : ∃ v, s.regValue r = some v := by
      unfold State.regValue
      interval_cases r.toNat <;> exact ⟨_, rfl⟩
    exact ⟨s.deliver (some v), by simp only [State.serve, hv]⟩
  | _ => exact ⟨_, rfl⟩

/-! ### Runs -/

/-- What every step keeps holds of every state that a run reaches. -/
theorem run_invariant (M : Host.Core) {I : M.State → Prop} (keep : ∀ x y, I x → M.step x = .next y → I y)
    (k : Nat) (x y : M.State) (hx : I x) (h : M.run k x = .next y) : I y := by
  induction k generalizing x with
  | zero => cases h; exact hx
  | succ k ih =>
    rw [Host.Core.run] at h
    split at h
    case h_1 z hz => exact ih z (keep x z hx hz) h
    all_goals cases h

/-! ### The cursor -/

/-- A 32-bit cursor below a bound counts on without wrap-around. -/
theorem toNat_add_one_of_lt {x : Word} {n : Nat} (hlt : x.toNat < n) (hn : n < 2 ^ 32) :
    (x + 1).toNat = x.toNat + 1 := by
  rw [BitVec.toNat_add, show (1 : Word).toNat = 1 from rfl, Nat.mod_eq_of_lt (by omega)]

end Sys2Proof.Machine

namespace Sys2Proof

open Sys2Proof.Machine

/-- Settles O10: the instructions, the host's accesses and the steps of an `ST_PATCH` keep each part of the invariant. -/
theorem stepKeepsTheInvariant : Obligations.StepKeepsTheInvariant := by
  unfold Obligations.StepKeepsTheInvariant
  exact fun s t h hstep => step_sound h hstep

/-- Settles O11: nothing is held after reset; the host's list is in no part of the invariant. -/
theorem resetHasTheInvariant : Obligations.ResetHasTheInvariant := by
  unfold Obligations.ResetHasTheInvariant
  exact ⟨fun c events hc => resetWith_sound hc, resetWith_sound (by decide)⟩

/-- Settles O12: the invariant holds after reset and every step of the run keeps it. -/
theorem reachableTablesAreSound : Obligations.ReachableTablesAreSound := by
  unfold Obligations.ReachableTablesAreSound
  intro c events k t hc hrun
  obtain ⟨-, -, -, htables, -, -⟩ : StateSound t :=
    run_invariant Sys2Proof.core (I := StateSound) (fun _ _ h hstep => step_sound h hstep) k _ t
      (resetHasTheInvariant.1 c events hc) hrun
  exact htables

/-- Settles O13: an `ST_PATCH` in progress has a next state, and so has every operation and host access but the read of
`OP`. -/
theorem invariantStatesDoNotStop : Obligations.InvariantStatesDoNotStop := by
  unfold Obligations.InvariantStatesDoNotStop
  intro s h
  cases hp : s.phase with
  | patching slope =>
    obtain ⟨t, hstep, -⟩ := exists_patchStep h hp
    exact .inl ⟨t, hstep⟩
  | idle =>
    obtain ⟨-, hs⟩ | ⟨v, rest, i, -, hi, hs⟩ | ⟨v, rest, -, -, hs⟩ | ⟨e, rest, hpending, -, hs⟩ := step_idle_cases hp
    all_goals rw [hs]
    · exact .inl ⟨_, rfl⟩
    · exact .inl (exec_operation_next (s := { s with pending := rest }) h (decodeOperation_format hi))
    · exact .inl ⟨_, rfl⟩
    · by_cases he : e = .readReg 0
      · exact .inr ⟨rfl, by rw [hpending, he, List.head?_cons]⟩
      · exact .inl (serve_next he)

/-- Settles O8: the two acts of the sequencer, whose cursor does not wrap around below the height. -/
theorem rowsEndAndThePatchCompletes : Obligations.RowsEndAndThePatchCompletes := by
  unfold Obligations.RowsEndAndThePatchCompletes
  refine fun s slope f hp hf => ⟨fun hy => step_of_completed hp hf hy, fun row hy hrow hk => ?_⟩
  have hnext := toNat_add_one_of_lt hy f.height.isLt
  have hcur : s.curY + 1 = BitVec.ofNat 32 (s.curY.toNat + 1) := by
    rw [← hnext, BitVec.ofNat_toNat, BitVec.setWidth_eq]
  rw [step_of_row_end hp hf hy hrow hk, State.nextRow, hnext, hcur]

end Sys2Proof
end

section
/-! Every `ST_PATCH` ends (43_slope_template.md rules R243, R244; 70_reset_and_hazards.md rule R320): the number of steps it
has left is at most its filtermap's budget, and each step lowers it or is the last. -/

namespace Sys2Proof.Machine

variable {s t : State} {slope : Nat}

/-- The steps of a list of commands. -/
def cmdsCost (cs : List FilterCmd) : Nat := (cs.map fun c => c.n.toNat + 1).sum

/-- The steps of a row: its commands', and its end. -/
def rowCost (r : FilterRow) : Nat := 1 + cmdsCost r.cmds

/-- The steps of the rows from `y` on. -/
def rowsCost (f : Filtermap) (y : Nat) : Nat := ((f.rows.drop y).map rowCost).sum

/-- The steps left at row `y` and command `k` with some operands gathered, the completion included. -/
def stepsLeft (f : Filtermap) (y k taps : Nat) : Nat :=
  rowsCost f (y + 1) + ((f.rows[y]?.map fun r => 1 + cmdsCost (r.cmds.drop k)).getD 0 - taps) + 1

theorem cmdsCost_cons (c : FilterCmd) (cs : List FilterCmd) : cmdsCost (c :: cs) = c.n.toNat + 1 + cmdsCost cs := by
  rw [cmdsCost, List.map_cons, List.sum_cons, cmdsCost]

theorem cmdsCost_drop_le (cs : List FilterCmd) (k : Nat) : cmdsCost (cs.drop k) ≤ cmdsCost cs := by
  conv_rhs => rw [← List.take_append_drop k cs]
  rw [cmdsCost, cmdsCost, List.map_append, List.sum_append]
  exact Nat.le_add_left _ _

variable {f : Filtermap} {row : FilterRow} {y k : Nat}

theorem rowsCost_eq_of_row (hrow : f.rows[y]? = some row) : rowsCost f y = rowCost row + rowsCost f (y + 1) := by
  obtain ⟨hlt, rfl⟩ := List.getElem?_eq_some_iff.mp hrow
  rw [rowsCost, List.drop_eq_getElem_cons hlt, List.map_cons, List.sum_cons, rowsCost]

theorem rowsCost_eq_zero (h : f.rows[y]? = none) : rowsCost f (y + 1) = 0 := by
  rw [rowsCost, List.drop_eq_nil_of_le ((List.getElem?_eq_none_iff.mp h).trans (Nat.le_succ y))]
  rfl

theorem rowsCost_add_one_le_budget (f : Filtermap) (y : Nat) : rowsCost f y + 1 ≤ patchBudget f := by
  have hsplit : (f.rows.map rowCost).sum = ((f.rows.take y).map rowCost).sum + rowsCost f y := by
    rw [rowsCost, ← List.sum_append, ← List.map_append, List.take_append_drop]
  have hbudget : patchBudget f = (f.rows.map rowCost).sum + 1 := rfl
  omega

/-- At a row that is just entered all of it is left, and of a row already begun no more. -/
theorem stepsLeft_le (f : Filtermap) (y k taps : Nat) : stepsLeft f y k taps ≤ rowsCost f y + 1 := by
  unfold stepsLeft
  cases hrow : f.rows[y]? with
  | none => rw [rowsCost_eq_zero hrow]; simp
  | some row =>
    have := cmdsCost_drop_le row.cmds k
    rw [rowsCost_eq_of_row hrow, Option.map_some, Option.getD_some, rowCost]
    omega

theorem stepsLeft_of_command {c : FilterCmd} (taps : Nat) (hrow : f.rows[y]? = some row) (hc : row.cmds[k]? = some c) :
    stepsLeft f y k taps = rowsCost f (y + 1) + (1 + (c.n.toNat + 1 + cmdsCost (row.cmds.drop (k + 1))) - taps) + 1 := by
  obtain ⟨hlt, rfl⟩ := List.getElem?_eq_some_iff.mp hc
  rw [stepsLeft, hrow, Option.map_some, Option.getD_some, List.drop_eq_getElem_cons hlt, cmdsCost_cons]

theorem stepsLeft_of_row (taps : Nat) (hrow : f.rows[y]? = some row) :
    stepsLeft f y k taps = rowsCost f (y + 1) + (1 + cmdsCost (row.cmds.drop k) - taps) + 1 := by
  rw [stepsLeft, hrow, Option.map_some, Option.getD_some]

/-- The steps left of the operation in progress. -/
def State.stepsLeft (s : State) (f : Filtermap) : Nat :=
  Machine.stepsLeft f s.curY.toNat s.curK.toNat s.taps.length

/-- How an `ST_PATCH` has ended: delivered with its frame, or failed without. -/
def PatchEnded (t : State) : Prop :=
  t.phase = .idle ∧ ((t.status = 0 ∧ t.resultValid = 1 ∧ t.out.isSome) ∨
    (t.status ≠ 0 ∧ t.resultValid = 0 ∧ t.out = none))

/-- Each step ends the operation or leaves it in progress with fewer steps. -/
theorem PatchStep.ends_or_advances (hstep : PatchStep s slope t) (h : StateSound s) (hp : s.phase = .patching slope)
    (hf : s.fm[slope]? = some f) :
    PatchEnded t ∨ (t.phase = .patching slope ∧ t.fm = s.fm ∧ t.stepsLeft f < s.stepsLeft f) := by
  obtain ⟨-, -, -, ⟨-, -, hfm, -⟩, -, hphase⟩ := h
  have sound := PatchSound.of_phaseSound hp hphase
  have hwf : f.WellFormed := (hfm.2 sound.fmLoaded).2 f (List.mem_of_getElem? hf)
  cases hstep with
  | completed => exact .inl ⟨rfl, .inl ⟨rfl, rfl, sound.frame⟩⟩
  | fault code info log hcode => exact .inl ⟨rfl, .inr ⟨hcode.toByte_ne_zero, rfl, rfl⟩⟩
  | rowEnd g row hg hy hrow hk =>
    cases hf.symm.trans hg
    have hnil := taps_nil_of_row_end sound hf hrow (hwf.2 row (List.mem_of_getElem? hrow)) hk
    have hnext := stepsLeft_le f (s.curY.toNat + 1) (s.nextRow f.height).curK.toNat 0
    have hleft : s.stepsLeft f = rowsCost f (s.curY.toNat + 1) + (1 + cmdsCost (row.cmds.drop s.curK.toNat)) + 1 := by
      rw [State.stepsLeft, stepsLeft_of_row _ hrow, hnil]; rfl
    have hthen : (s.nextRow f.height).stepsLeft f =
        Machine.stepsLeft f (s.curY.toNat + 1) (s.nextRow f.height).curK.toNat 0 := by
      rw [State.stepsLeft, State.nextRow_taps, hnil, State.nextRow_curY, toNat_add_one_of_lt hy f.height.isLt]; rfl
    exact .inr ⟨hp, rfl, by omega⟩
  | record c tap hc hlt =>
    obtain ⟨-, g, row, hg, hy, hrow, hk, hcmd⟩ := hc
    cases hf.symm.trans hg
    have hleft := stepsLeft_of_command s.taps.length hrow hcmd
    have hthen := stepsLeft_of_command (s.taps ++ [tap]).length hrow hcmd
    rw [List.length_append, List.length_singleton] at hthen
    refine .inr ⟨hp, rfl, ?_⟩
    rw [State.stepsLeft, State.stepsLeft, hleft, List.length_append, List.length_singleton, hthen]
    omega
  | command c o a idx log hc hn ho =>
    obtain ⟨-, g, row, hg, hy, hrow, hk, hcmd⟩ := hc
    cases hf.symm.trans hg
    have hwidth := row.width.isLt
    have hleft := stepsLeft_of_command s.taps.length hrow hcmd
    have hthen := stepsLeft_of_row (k := s.curK.toNat + 1) 0 hrow
    refine .inr ⟨hp, rfl, ?_⟩
    rw [State.stepsLeft, State.stepsLeft, hleft, State.commandDone_curY, State.commandDone_curK, State.commandDone_taps,
      toNat_add_one_of_lt hk (by omega)]
    show Machine.stepsLeft f s.curY.toNat (s.curK.toNat + 1) 0 < _
    rw [hthen]
    omega

/-- An `ST_PATCH` ends within any number of steps that is no fewer than are left. -/
theorem exists_run_ended (m : Nat) : ∀ s : State, StateSound s → s.phase = .patching slope → s.fm[slope]? = some f →
    s.stepsLeft f ≤ m → ∃ k t, k ≤ m ∧ Sys2Proof.core.run k s = .next t ∧ PatchEnded t := by
  induction m with
  | zero => exact fun s _ _ _ hle => absurd hle (Nat.not_succ_le_zero _)
  | succ m ih =>
    intro s h hp hf hle
    obtain ⟨t, hstep, ht⟩ := exists_patchStep h hp
    obtain hended | ⟨hp', hfm, hlt⟩ := ht.ends_or_advances h hp hf
    · exact ⟨1, t, by omega, (run_one s).trans hstep, hended⟩
    · obtain ⟨k, u, hk, hrun, hu⟩ := ih t (ht.sound h hp) hp' (by rw [hfm]; exact hf) (by omega)
      exact ⟨k + 1, u, by omega, (run_succ hstep k).trans hrun, hu⟩

end Sys2Proof.Machine

namespace Sys2Proof

open Sys2Proof.Machine

/-- Settles O53: the steps left are at most the budget, and each step that does not end the operation lowers them. -/
theorem everyPatchEnds : Obligations.EveryPatchEnds := by
  unfold Obligations.EveryPatchEnds
  intro s slope f h hp hf
  obtain ⟨k, t, hk, hrun, hidle, hend⟩ := exists_run_ended (patchBudget f) s h hp hf
    ((stepsLeft_le f _ _ _).trans (rowsCost_add_one_le_budget f _))
  exact ⟨k, t, hk, hrun, hidle, hend⟩

end Sys2Proof
end

section
/-! The host's list while an `ST_PATCH` runs (10_state.md rule R22; 70_reset_and_hazards.md rule R310): with another list each
part of the step answers the same, but for that list. -/

namespace Sys2Proof.Machine

variable {s t : State} {slope : Nat}

theorem getIcm_with_pending (s : State) (events : List HostEvent) (light : Nat) (ids : List Byte) :
    ({ s with pending := events } : State).getIcm light ids =
      ({ (s.getIcm light ids).1 with pending := events }, (s.getIcm light ids).2) := by
  cases ids with
  | nil => rfl
  | cons p ps =>
    obtain absent | held := le_or_gt s.icmCount.toNat (s.foldedCube light p ps).toNat
    · rw [getIcm_of_absent absent]
      exact getIcm_of_absent (s := { s with pending := events }) absent
    · rw [getIcm_of_held held]
      exact getIcm_of_held (s := { s with pending := events }) held

theorem selected_with_pending (s : State) (events : List HostEvent) (light : BitVec 4) :
    ({ s with pending := events } : State).selected light =
      ({ (s.selected light).1 with pending := events }, (s.selected light).2) :=
  getIcm_with_pending s events light.toNat s.patternList

theorem composite_with_pending {light : BitVec 4} (events : List HostEvent) (h : s.composite light = .next t) :
    ({ s with pending := events } : State).composite light = .next { t with pending := events } := by
  have hsel := selected_with_pending s events light
  obtain absent | held := le_or_gt s.icmCount.toNat (s.selected light).2.toNat
  · cases (composite_of_absent absent).symm.trans h
    rw [composite_of_absent (by rw [hsel]; exact absent), hsel]
    rfl
  · have held' : (({ s with pending := events } : State).selected light).2.toNat < s.icmCount.toNat := by
      rw [hsel]; exact held
    obtain hout | ⟨o, hout⟩ := Option.eq_none_or_eq_some s.out
    · cases (composite_of_no_frame held hout).symm.trans h
    · cases hd : destAddress o s.curY.toNat s.curK.toNat with
      | error e =>
        cases (composite_of_dest_error held hout hd).symm.trans h
        rw [composite_of_dest_error (s := { s with pending := events }) held' hout hd, hsel]
        rfl
      | ok a =>
        cases (composite_of_ok held hout hd).symm.trans h
        rw [composite_of_ok (s := { s with pending := events }) held' hout hd, hsel, State.quantized, hsel]
        rfl

theorem exec_blend_with_pending {light n : BitVec 4} (events : List HostEvent) (h : exec (.blend light n) s = .next t) :
    exec (.blend light n) { s with pending := events } = .next { t with pending := events } := by
  obtain ⟨⟨slope, hp⟩, hn, -⟩ := execBlend_cases h
  rw [exec_blend_of_operands hp hn] at h
  rw [exec_blend_of_operands (s := { s with pending := events }) hp hn, composite_with_pending events h]

theorem exec_srcpx_with_pending {si : BitVec 15} {a : BitVec 9} (events : List HostEvent)
    (h : exec (.srcpx si a) s = .next t) :
    exec (.srcpx si a) { s with pending := events } = .next { t with pending := events } := by
  obtain ⟨⟨slope, hp⟩, -⟩ := execSrcpx_cases h
  cases hcolour : s.sourceColour s.curY.toNat si with
  | error e =>
    cases (exec_srcpx_of_error hp hcolour).symm.trans h
    exact exec_srcpx_of_error (s := { s with pending := events }) hp hcolour
  | ok rgb =>
    cases (exec_srcpx_of_ok hp hcolour).symm.trans h
    exact exec_srcpx_of_ok (s := { s with pending := events }) hp hcolour

theorem step_with_pending (events : List HostEvent) (hp : s.phase = .patching slope) (h : step s = .next t) :
    step { s with pending := events } = .next { t with pending := events } := by
  obtain ⟨f, hf, hy, hs⟩ | ⟨f, row, hf, hy, hrow, hk, hs⟩ | ⟨f, row, c, i, hf, hy, hrow, hk, hc, hi, hs⟩ | ⟨-, hs⟩ :=
    step_patching_cases hp
  all_goals rw [hs] at h
  · cases h; exact step_of_completed (s := { s with pending := events }) hp hf hy
  · cases h; exact step_of_row_end (s := { s with pending := events }) hp hf hy hrow hk
  · rw [step_of_standsAt (s := { s with pending := events }) (slope := slope) ⟨hp, f, row, hf, hy, hrow, hk, hc⟩ hi]
    obtain ⟨p, -, -, rfl⟩ | ⟨-, rfl⟩ := nextOfCommand_cases hi
    · exact exec_srcpx_with_pending events h
    · exact exec_blend_with_pending events h
  · cases h

end Sys2Proof.Machine

namespace Sys2Proof

open Sys2Proof.Machine

/-- Settles O21: no part of the step reads or writes the host's list. -/
theorem hostIsNotServedWhileBusy : Obligations.HostIsNotServedWhileBusy := by
  unfold Obligations.HostIsNotServedWhileBusy
  exact fun s t slope events hp h =>
    ⟨congrArg Given.pending (step_given_of_patching hp h), step_with_pending events hp h⟩

end Sys2Proof
end

section
/-! The PM unit (41_pattern_mask.md): its stream's records, whole, with a bad length and too short (R151); the entry
predicates (R153 to R155); and `getIcm` with its checks (R165 to R168). Then the checks of `ST_PATCH`
(43_slope_template.md rule R241), which share those on the pattern list. -/

namespace Sys2Proof.Machine

variable {s : State} {b : List Byte} {pos id n : Nat} {c : Code} {info : Word}

/-! ### The records of a PM stream (R151) -/

/-- A mask's record: its length field, then its entries. -/
def pmRecord (b : List Byte) (id pos : Nat) : Rd (List Byte) :=
  (strU32 b pos).bind fun len pos =>
  if len = 4096 then strBytes b 4096 pos else .fail .formatError id pos

theorem pmMasks_eq_records (b : List Byte) : pmMasks b = repeatRd (pmRecord b) 40 0 0 := rfl

theorem pmRecord_of_good_length (hlen : wordAt b pos = some 4096) (h : pos + 4100 ≤ b.length) :
    pmRecord b id pos = .ok ((b.drop (pos + 4)).take 4096) (pos + 4100) := by
  rw [pmRecord, strU32_of_wordAt hlen, Rd.bind_ok]
  exact (if_pos rfl).trans (strBytes_of_le (by omega))

theorem pmRecord_of_bad_length {len : Nat} (hlen : wordAt b pos = some len) (hbad : len ≠ 4096) :
    pmRecord b id pos = .fail .formatError id (pos + 4) := by
  have hne : BitVec.ofNat 32 len ≠ 4096 := fun h => hbad (by rw [← wordAt_toNat_ofNat hlen, h]; rfl)
  rw [pmRecord, strU32_of_wordAt hlen, Rd.bind_ok, if_neg hne]

/-- A record that is read takes 4100 bytes, which the stream holds. -/
theorem pmRecord_eq_ok {mask : List Byte} {q : Nat} (h : pmRecord b id pos = .ok mask q) :
    q = pos + 4100 ∧ q ≤ b.length := by
  obtain ⟨len, p, hlen, h⟩ := Rd.bind_eq_ok.mp h
  have hp : p = pos + 4 := by
    by_cases hle : pos + 4 ≤ b.length
    · obtain ⟨v, hv⟩ := exists_strU32 hle
      cases hv.symm.trans hlen
      rfl
    · cases (strU32_of_cut (by omega)).symm.trans hlen
  split at h
  case isTrue =>
    obtain ⟨hle, -, rfl⟩ := strBytes_eq_ok.mp h
    exact ⟨by omega, hle⟩
  case isFalse => cases h

/-- The masks that the first `n` records hold. -/
def pmMaskList (b : List Byte) (n : Nat) : List (List Byte) :=
  (List.range n).map fun id => (b.drop (id * 4100 + 4)).take 4096

theorem pmMaskList_length (b : List Byte) (n : Nat) : (pmMaskList b n).length = n := by
  rw [pmMaskList, List.length_map, List.length_range]

/-- Records with good lengths that the stream holds are read one after another. -/
theorem pmRecords_of_good_lengths (hlen : ∀ id < n, wordAt b (id * 4100) = some 4096) (h : n * 4100 ≤ b.length) :
    repeatRd (pmRecord b) n 0 0 = .ok (pmMaskList b n) (n * 4100) := by
  have hread := repeatRd_of_get (f := pmRecord b) (at_ := fun id => id * 4100) (pmMaskList b n) 0 fun id mask hmask => by
    have hid : id < n := by
      have hlt := (List.getElem?_eq_some_iff.mp hmask).1
      rwa [pmMaskList_length] at hlt
    rw [pmMaskList, List.getElem?_map, List.getElem?_range hid] at hmask
    have hend : (id + 1) * 4100 ≤ b.length := (Nat.mul_le_mul_right 4100 hid).trans h
    rw [Nat.succ_mul] at hend ⊢
    rw [Nat.zero_add, pmRecord_of_good_length (hlen id hid) hend]
    exact congrArg (Rd.ok · _) (Option.some.inj hmask)
  simpa only [pmMaskList_length, Nat.zero_mul] using hread

/-- A loop over records that ends well has taken 4100 bytes for each, which the stream holds. -/
theorem pmRecords_eq_ok (j : Nat) {masks : List (List Byte)} {q : Nat}
    (h : repeatRd (pmRecord b) (n + 1) j pos = .ok masks q) : q = pos + (n + 1) * 4100 ∧ q ≤ b.length := by
  induction n generalizing j pos masks with
  | zero =>
    obtain ⟨mask, p, hmask, h⟩ := Rd.bind_eq_ok.mp h
    cases h
    simpa using pmRecord_eq_ok hmask
  | succ n ih =>
    obtain ⟨mask, p, hmask, h⟩ := Rd.bind_eq_ok.mp h
    obtain ⟨rest, r, hrest, h⟩ := Rd.bind_eq_ok.mp h
    cases h
    obtain ⟨hq, hle⟩ := ih (j + 1) hrest
    obtain ⟨rfl, -⟩ := pmRecord_eq_ok hmask
    exact ⟨by omega, hle⟩

/-- The cell of a mask in the masks laid end to end (20_memory.md rule R71). -/
theorem getElem?_flatten_of_length {w : Nat} {masks : List (List Byte)} (hw : ∀ m ∈ masks, m.length = w)
    {mask : List Byte} (hmask : masks[id]? = some mask) {i : Nat} (hi : i < w) :
    masks.flatten[id * w + i]? = mask[i]? := by
  induction masks generalizing id with
  | nil => cases hmask
  | cons m ms ih =>
    have hm : m.length = w := hw m List.mem_cons_self
    cases id with
    | zero =>
      cases hmask
      rw [List.flatten_cons, Nat.zero_mul, Nat.zero_add, List.getElem?_append_left (by omega)]
    | succ id =>
      rw [List.flatten_cons, Nat.succ_mul, List.getElem?_append_right (by omega),
        show id * w + w + i - m.length = id * w + i by omega]
      exact ih (fun x hx => hw x (List.mem_cons_of_mem m hx)) hmask

/-- The stream byte that an entry of a mask is. -/
theorem pmMaskList_flatten_get (hn : n * 4100 ≤ b.length) (hid : id < n) {i : Nat} (hi : i < 4096) :
    (pmMaskList b n).flatten[id * 4096 + i]? = b[id * 4100 + 4 + i]? := by
  have hw : ∀ m ∈ pmMaskList b n, m.length = 4096 := fun m hm => by
    obtain ⟨k, hk, rfl⟩ := List.mem_map.mp hm
    have := List.mem_range.mp hk
    rw [List.length_take, List.length_drop]
    omega
  have hmask : (pmMaskList b n)[id]? = some ((b.drop (id * 4100 + 4)).take 4096) := by
    rw [pmMaskList, List.getElem?_map, List.getElem?_range hid]
    rfl
  rw [getElem?_flatten_of_length hw hmask hi, List.getElem?_take_of_lt hi, List.getElem?_drop]

/-! ### Entry predicates (R153 to R155) -/

theorem entryIgnore_toNat (m : Byte) : (entryIgnore m).toNat = m.toNat % 2 := by
  rw [entryIgnore, extractLsb'_eq_ofNat_div, pow_zero, Nat.div_one, BitVec.toNat_ofNat, pow_one]

theorem entryMode_eq_iff (m : Byte) (x : BitVec 1) : entryMode m = x ↔ m.toNat / 2 % 2 = x.toNat := by
  rw [entryMode, extractLsb'_eq_ofNat_div, BitVec.toNat_eq, BitVec.toNat_ofNat]
  rfl

/-! ### `PM_GETICM`: its checks and its fold (R165 to R168) -/

theorem foldMasks_toNat_le (s : State) (light : Nat) (ids : List Byte) {running : Byte} (h : running.toNat ≤ 63) :
    (s.foldMasks light ids running).toNat ≤ 63 := by
  induction ids generalizing running with
  | nil => exact h
  | cons id ids ih =>
    refine ih (running := applyEntry (s.pmEntry id.toNat light) running) ?_
    obtain ⟨-, hc⟩ | ⟨-, hc⟩ := applyEntry_cases (s.pmEntry id.toNat light) running
    · have := (s.pmEntry id.toNat light).isLt
      rw [hc, entryCandidate_toNat]
      omega
    · rwa [hc]

/-- A cube number is 16 bits wide, so widening keeps it. -/
theorem foldedCube_toNat (s : State) (light : Nat) (p : Byte) (ps : List Byte) : (s.foldedCube light p ps).toNat =
    (lightmapAt s.cfg (s.foldMasks light ps (entryCandidate (s.pmEntry p.toNat light))).toNat light).toNat :=
  BitVec.toNat_setWidth_of_le (by decide)

theorem exceeds_eq_true_iff {m : Option Nat} : exceeds n m = true ↔ ¬ ∀ k ∈ m, n ≤ k := by
  rw [← exceeds_eq_false_iff, Bool.not_eq_false]

theorem patternCause_of_long (h : ¬ ∀ m ∈ s.cfg.psetMax, s.psetLen.toNat ≤ m) :
    s.patternCause = some (.preconditionError, s.psetLen.setWidth 32) :=
  if_pos (exceeds_eq_true_iff.mpr h)

/-- Of the ids that name no mask the first counts. -/
theorem patternCause_of_bad_id {front back : List Byte} {x : Byte} (hshort : ∀ m ∈ s.cfg.psetMax, s.psetLen.toNat ≤ m)
    (hlist : s.patternList = front ++ x :: back) (hfront : ∀ y ∈ front, y.toNat < 40) (hx : 40 ≤ x.toNat) :
    s.patternCause = some (.preconditionError, x.setWidth 32) := by
  have hnone : front.find? (fun y => decide (40 ≤ y.toNat)) = none :=
    List.find?_eq_none.mpr fun y hy => by simpa using hfront y hy
  have hfind : s.patternList.find? (fun y => decide (40 ≤ y.toNat)) = some x := by
    rw [hlist, List.find?_append, hnone, Option.none_or]
    exact List.find?_cons_of_pos (by simpa using hx)
  rw [State.patternCause, exceeds_eq_false_iff.mpr hshort, hfind]
  rfl

theorem patternCause_of_good (hshort : ∀ m ∈ s.cfg.psetMax, s.psetLen.toNat ≤ m)
    (hids : ∀ x ∈ s.patternList, x.toNat < 40) : s.patternCause = none :=
  patternCause_eq_none.mpr ⟨exceeds_eq_false_iff.mpr hshort, hids⟩

theorem getIcmCause_of_bad_light (h : 16 ≤ s.arg0.toNat) : s.getIcmCause = some (.preconditionError, s.arg0) := if_pos h

theorem getIcmCause_of_pattern {e : Cause} (hlight : s.arg0.toNat < 16) (he : s.patternCause = some e) :
    s.getIcmCause = some e := by
  rw [State.getIcmCause, if_neg (by omega), he]

theorem getIcmCause_of_absent (hlight : s.arg0.toNat < 16) (hgood : s.patternCause = none) (hne : s.psetLen ≠ 0)
    (habsent : s.pmState = 0) : s.getIcmCause = some (.tableAbsentFault, 0x10) := by
  rw [State.getIcmCause, if_neg (by omega), hgood]
  exact if_pos ⟨hne, habsent⟩

/-- With no pattern in the list nothing but the light index is tested. -/
theorem patternList_of_len_zero (h : s.psetLen = 0) : s.patternList = [] := by
  rw [State.patternList, h]
  rfl

theorem getIcmCause_of_empty (hlight : s.arg0.toNat < 16) (h : s.psetLen = 0) : s.getIcmCause = none :=
  getIcmCause_eq_none.mpr ⟨hlight, exceeds_eq_false_iff.mpr fun m _ => by rw [h]; exact Nat.zero_le m,
    by rw [patternList_of_len_zero h]; simp, fun hne => absurd h hne⟩

/-! ### The checks of `ST_PATCH` (R241) -/

theorem exec_stPatch_of_cause (h : s.patchCause = some (c, info)) : exec .stPatch s = .next (s.patchFail c info) := by
  show execStPatch s = _
  rw [execStPatch, h]

theorem patchCause_of_no_source (h : s.srcPresent = 0) : s.patchCause = some (.preconditionError, 0) := if_pos h

/-- The checks that follow the one on the source frame, in a chain: each lemma's hypotheses are that the checks before it
pass. -/
theorem patchCause_of_no_filtermap (hsrc : s.srcPresent = 1) (h : s.fmState = 0) :
    s.patchCause = some (.preconditionError, 0x20) := by
  rw [State.patchCause, if_neg (by simp [hsrc]), if_pos h]

theorem patchCause_of_bad_slope (hsrc : s.srcPresent = 1) (hfm : s.fmState = 1) (h : 17 ≤ s.arg0.toNat) :
    s.patchCause = some (.preconditionError, s.arg0) := by
  rw [State.patchCause, if_neg (by simp [hsrc]), if_neg (by simp [hfm]), if_pos h]

theorem patchCause_of_pattern {e : Cause} (hsrc : s.srcPresent = 1) (hfm : s.fmState = 1) (hslope : s.arg0.toNat < 17)
    (he : s.patternCause = some e) : s.patchCause = some e := by
  rw [State.patchCause, if_neg (by simp [hsrc]), if_neg (by simp [hfm]), if_neg (by omega), he]

theorem patchCause_of_no_template (hsrc : s.srcPresent = 1) (hfm : s.fmState = 1) (hslope : s.arg0.toNat < 17)
    (hgood : s.patternCause = none) (h : s.stState ≠ 1) : s.patchCause = some (.tableAbsentFault, 0x30) := by
  rw [State.patchCause, if_neg (by simp [hsrc]), if_neg (by simp [hfm]), if_neg (by omega), hgood]
  exact if_pos h

theorem patchCause_of_no_mask (hsrc : s.srcPresent = 1) (hfm : s.fmState = 1) (hslope : s.arg0.toNat < 17)
    (hgood : s.patternCause = none) (hst : s.stState = 1) (hne : s.psetLen ≠ 0) (h : s.pmState = 0) :
    s.patchCause = some (.tableAbsentFault, 0x10) := by
  rw [State.patchCause, if_neg (by simp [hsrc]), if_neg (by simp [hfm]), if_neg (by omega), hgood]
  exact (if_neg (not_not.mpr hst)).trans (if_pos ⟨hne, h⟩)

end Sys2Proof.Machine

namespace Sys2Proof

open Sys2Proof.Machine

/-- Settles O28: the 40 records are read one after another, and the masks lie end to end. -/
theorem pmLoadStoresTheMasks : Obligations.PmLoadStoresTheMasks := by
  unfold Obligations.PmLoadStoresTheMasks
  intro s unloaded hle hlen
  refine ⟨_, exec_pmLoad_of_ok unloaded (pmRecords_of_good_lengths hlen hle), fun id hid i hi => ?_⟩
  rw [Memory.read_ofList_zero, pmMaskList_flatten_get hle hid hi]

/-- Settles O29: the records before the bad length are read, and its own record fails behind the length field. -/
theorem pmLoadRejectsABadLength : Obligations.PmLoadRejectsABadLength := by
  unfold Obligations.PmLoadRejectsABadLength
  intro s bad len unloaded hbad hlen hword hne
  have hle : bad * 4100 ≤ s.cfg.pmStream.length := by
    by_contra hlt
    cases (strU32_of_cut (b := s.cfg.pmStream) (pos := bad * 4100) (by omega)).symm.trans (strU32_of_wordAt hword)
  exact exec_pmLoad_of_fail unloaded
    (repeatRd_fail hbad (pmRecords_of_good_lengths hlen hle) (pmRecord_of_bad_length hword hne))

/-- Settles O30: 40 records take 164000 bytes, so a shorter stream fails, with one of the two codes that its readers raise. -/
theorem pmLoadOfAShortStreamFails : Obligations.PmLoadOfAShortStreamFails := by
  unfold Obligations.PmLoadOfAShortStreamFails
  intro s unloaded hshort
  have raises := pmMasks_raises (P := fun c => c = .ioError ∨ c = .formatError) (b := s.cfg.pmStream) (.inl rfl) (.inr rfl)
  cases hr : pmMasks s.cfg.pmStream with
  | ok masks pos =>
    obtain ⟨rfl, hle⟩ := pmRecords_eq_ok 0 ((pmMasks_eq_records _).symm.trans hr)
    omega
  | fail c info pos =>
    rw [hr] at raises
    refine ⟨_, exec_pmLoad_of_fail unloaded hr, ?_, rfl, rfl, rfl⟩
    exact raises.imp (fun h => by rw [h]; rfl) fun h => by rw [h]; rfl

/-- Settles O32: the checks pass, and the three results are the entry's bits 0 and 1. -/
theorem maskPredicatesReadTheirBits : Obligations.MaskPredicatesReadTheirBits := by
  unfold Obligations.MaskPredicatesReadTheirBits
  intro s loaded hid hi m brighter
  have query (f : Byte → Word) : s.maskQuery f = s.doneWith (f s.argEntry) :=
    maskQuery_of_no_cause (maskCause_of_in_range loaded hid hi)
  have hbright : entryMode s.argEntry = brightenBit s.cfg ↔ brighter = true :=
    (entryMode_eq_iff _ _).trans decide_eq_true_iff.symm
  refine ⟨?ignore, ?brighten, ?darken⟩
  case ignore =>
    show Host.Outcome.next (s.maskQuery _) = _
    rw [query, ← BitVec.ofNat_toNat, entryIgnore_toNat]
    rfl
  case brighten =>
    show Host.Outcome.next (s.maskQuery _) = _
    simp only [query, hbright]
    rfl
  case darken =>
    show Host.Outcome.next (s.maskQuery _) = _
    simp only [query, hbright]
    rfl

/-- Settles O35: no check fails, and `getIcm` of an empty list is the neutral cube. -/
theorem getIcmOfAnEmptyListIsNeutral : Obligations.GetIcmOfAnEmptyListIsNeutral := by
  unfold Obligations.GetIcmOfAnEmptyListIsNeutral
  intro s hlight hempty
  rw [exec_pmGetIcm_of_no_cause (getIcmCause_of_empty hlight hempty), patternList_of_len_zero hempty]
  rfl

/-- Settles O36: no check fails, and the folded cube is answered where it is held. -/
theorem getIcmFoldsAndFallsBack : Obligations.GetIcmFoldsAndFallsBack := by
  unfold Obligations.GetIcmFoldsAndFallsBack
  intro s p ps hlight hshort hlist hids loaded entry running cube
  have passed : s.getIcmCause = none := getIcmCause_eq_none.mpr
    ⟨hlight, exceeds_eq_false_iff.mpr hshort, by rw [hlist]; exact hids, fun _ => by simp [loaded]⟩
  have hseed : entryCandidate (s.pmEntry p.toNat s.arg0.toNat) = BitVec.ofNat 8 ((entry p).toNat / 4) := by
    rw [← entryCandidate_toNat, BitVec.ofNat_toNat, BitVec.setWidth_eq]
    rfl
  have hcube : s.foldedCube s.arg0.toNat p ps = cube.setWidth 32 := by
    rw [State.foldedCube, hseed]
    rfl
  have hnat : (s.foldedCube s.arg0.toNat p ps).toNat = cube.toNat := by
    rw [hcube]
    exact BitVec.toNat_setWidth_of_le (by decide)
  rw [exec_pmGetIcm_of_no_cause passed, hlist]
  refine ⟨fun held => ?_, fun absent => ?_⟩
  · rw [getIcm_of_held (by rw [hnat]; exact held), hcube]
    rfl
  · rw [getIcm_of_absent (by rw [hnat]; exact absent), hcube]
    rfl

/-- Settles O37: the light index, then the pattern list's own checks, then the unit. -/
theorem getIcmChecksInOrder : Obligations.GetIcmChecksInOrder := by
  unfold Obligations.GetIcmChecksInOrder
  intro s err short
  exact ⟨fun hlight => exec_pmGetIcm_of_cause (getIcmCause_of_bad_light hlight),
    fun hlight hlong => exec_pmGetIcm_of_cause (getIcmCause_of_pattern hlight (patternCause_of_long hlong)),
    fun front id back hlight hshort hlist hfront hid =>
      exec_pmGetIcm_of_cause (getIcmCause_of_pattern hlight (patternCause_of_bad_id hshort hlist hfront hid)),
    fun hlight hshort hne hids habsent =>
      exec_pmGetIcm_of_cause (getIcmCause_of_absent hlight (patternCause_of_good hshort hids) hne habsent)⟩

/-- Settles O38: the seed is a candidate, and each mask answers its own candidate or the running value. -/
theorem foldStaysInTheLightmap : Obligations.FoldStaysInTheLightmap := by
  unfold Obligations.FoldStaysInTheLightmap
  intro s light p ps
  refine foldMasks_toNat_le s light ps ?_
  have := (s.pmEntry p.toNat light).isLt
  rw [entryCandidate_toNat]
  omega

/-- Settles O51: `Precheck`'s tests in order; a cause is a failed `ST_PATCH`. -/
theorem patchChecksInOrder : Obligations.PatchChecksInOrder := by
  unfold Obligations.PatchChecksInOrder
  intro s fail short
  exact ⟨fun hsrc => exec_stPatch_of_cause (patchCause_of_no_source hsrc),
    fun hsrc hfm => exec_stPatch_of_cause (patchCause_of_no_filtermap hsrc hfm),
    fun hsrc hfm hslope => exec_stPatch_of_cause (patchCause_of_bad_slope hsrc hfm hslope),
    fun hsrc hfm hslope hlong =>
      exec_stPatch_of_cause (patchCause_of_pattern hsrc hfm hslope (patternCause_of_long hlong)),
    fun front id back hsrc hfm hslope hshort hlist hfront hid => exec_stPatch_of_cause
      (patchCause_of_pattern hsrc hfm hslope (patternCause_of_bad_id hshort hlist hfront hid)),
    fun hsrc hfm hslope hshort hids hst => exec_stPatch_of_cause
      (patchCause_of_no_template hsrc hfm hslope (patternCause_of_good hshort hids) hst),
    fun hsrc hfm hslope hshort hids hst hne habsent => exec_stPatch_of_cause
      (patchCause_of_no_mask hsrc hfm hslope (patternCause_of_good hshort hids) hst hne habsent)⟩

end Sys2Proof
end

section
/-! The host's accesses (10_state.md rules R21 to R36): the step that serves one, registers written and read, the frame
stores read, the operand stores written, and reset. -/

namespace Sys2Proof.Machine

variable {s : State} {e : HostEvent} {rest : List HostEvent}

/-! ### The step that takes an event -/

/-- An event other than a write to `OP` is served in the state from which it is taken. -/
theorem step_of_served (idle : s.phase = .idle) (hp : s.pending = e :: rest) (he : ∀ v, e ≠ .writeReg 0 v) :
    step s = ({ s with pending := rest } : State).serve e := by
  have hcontrol : s.hostControl = ({ s with pending := rest } : State).accept e := by rw [State.hostControl, hp]
  rw [step_idle idle, hcontrol, accept_of_ne he]
  rfl

theorem step_of_started {v : Nat} {i : Instr} (idle : s.phase = .idle) (hp : s.pending = .writeReg 0 v :: rest)
    (hi : decodeOperation (BitVec.ofNat 8 v) = some i) : step s = exec i { s with pending := rest } := by
  rw [step_idle idle, hostControl_of_writeOp hp, State.startOperation, hi]
  rfl

theorem decodeOperation_of_decode {c : Byte} {i : Instr} {bytes : List Byte} (h : decode .ho [c] = .ok (i, bytes)) :
    decodeOperation c = some i := by
  cases hd : decodeOperation c with
  | none => simp [decode, hd] at h
  | some j =>
    simp only [decode, hd, Except.ok.injEq, Prod.mk.injEq] at h
    rw [h.1]

/-! ### Registers (R21) -/

/-- The registers as numbers, in their order; `OP`, which no host reads, has none. -/
def State.registers (s : State) : List Nat :=
  [0, s.status.toNat, s.result.toNat, s.resultValid.toNat, s.arg0.toNat, s.arg1.toNat, s.arg2.toNat, s.arg3.toNat,
    s.srcPresent.toNat, s.psetLen.toNat, s.palLen.toNat, s.icmState.toNat, s.icmCount.toNat, s.pmState.toNat,
    s.fmState.toNat, s.stState.toNat]

/-- Every register but `OP` is read as its number, widened with zeros. -/
theorem regValue_eq_some {r : BitVec 4} (hr : r ≠ 0) :
    ∃ w, s.regValue r = some w ∧ w.toNat = s.registers.getD r.toNat 0 := by
  have hpos : 0 < r.toNat := by bv_omega
  have hlt : r.toNat < 16 := r.isLt
  have narrow {w : Nat} (hw : w ≤ 32) (v : BitVec w) : (v.setWidth 32).toNat = v.toNat :=
    BitVec.toNat_setWidth_of_le hw
  unfold State.regValue
  interval_cases r.toNat <;> refine ⟨_, rfl, ?_⟩
  exacts [narrow (by decide) s.status, rfl, narrow (by decide) s.resultValid, rfl, rfl, rfl, rfl,
    narrow (by decide) s.srcPresent, narrow (by decide) s.psetLen, narrow (by decide) s.palLen,
    narrow (by decide) s.icmState, rfl, narrow (by decide) s.pmState, narrow (by decide) s.fmState,
    narrow (by decide) s.stState]

/-! ### Frame stores read (R32, R33) -/

/-- What a field of an output frame holds, as a number. -/
def OutFrame.cell (f : OutFrame) : FrameField → Option Nat
  | .width => some f.width.toNat
  | .height => some f.height.toNat
  | .hotx => some f.hotx.toNat
  | .hoty => some f.hoty.toNat
  | .left y => f.left[y]?.map BitVec.toNat
  | .right y => f.right[y]?.map BitVec.toNat
  | .pix a => (Memory.read f.pix a).map BitVec.toNat

/-- What a field of the base frame holds, as a number. -/
def BaseFrame.cell (b : BaseFrame) : FrameField → Option Nat
  | .width => b.width.map BitVec.toNat
  | .height => b.height.map BitVec.toNat
  | .hotx => b.hotx.map BitVec.toNat
  | .hoty => b.hoty.map BitVec.toNat
  | .left y => (Memory.read b.left y).map BitVec.toNat
  | .right y => (Memory.read b.right y).map BitVec.toNat
  | .pix a => (Memory.read b.pix a).map BitVec.toNat

/-- A value widened with zeros is its number in 32 bits. -/
theorem map_setWidth_eq_map_ofNat {w : Nat} (x : Option (BitVec w)) :
    x.map (·.setWidth 32) = (x.map BitVec.toNat).map (BitVec.ofNat 32) := by
  cases x with
  | none => rfl
  | some v => exact congrArg some (BitVec.ofNat_toNat 32 v).symm

theorem eq_map_ofNat_toNat (x : Option Word) : x = (x.map BitVec.toNat).map (BitVec.ofNat 32) := by
  rw [← map_setWidth_eq_map_ofNat]
  cases x <;> simp

theorem OutFrame.read_eq_cell (f : OutFrame) (fld : FrameField) :
    OutFrame.read f fld = (f.cell fld).map (BitVec.ofNat 32) := by
  cases fld with
  | left y | right y | pix a => exact map_setWidth_eq_map_ofNat _
  | width | height | hotx | hoty => exact eq_map_ofNat_toNat (some _)

theorem BaseFrame.read_eq_cell (b : BaseFrame) (fld : FrameField) :
    BaseFrame.read b fld = (b.cell fld).map (BitVec.ofNat 32) := by
  cases fld with
  | left y | right y | pix a => exact map_setWidth_eq_map_ofNat _
  | width | height | hotx | hoty => exact eq_map_ofNat_toNat _

theorem outView_of_valid (h : s.resultValid = 1) : s.outView = s.out := if_pos h

theorem outView_of_invalid (h : s.resultValid = 0) : s.outView = none := if_neg (by simp [h])

/-! ### Operand stores written (R32) -/

/-- The width of a field of the base frame. -/
def FrameField.bits : FrameField → Nat
  | .left _ => 16
  | .right _ => 16
  | .pix _ => 8
  | _ => 32

/-- The low bits of a written value, widened with zeros. -/
theorem setWidth_ofNat_eq_mod {w : Nat} (hw : w ≤ 32) (v : Nat) :
    (BitVec.ofNat w v).setWidth 32 = BitVec.ofNat 32 (v % 2 ^ w) := by
  apply BitVec.eq_of_toNat_eq
  have hlt : v % 2 ^ w < 2 ^ 32 := (Nat.mod_lt v (Nat.two_pow_pos w)).trans_le (Nat.pow_le_pow_right (by decide) hw)
  rw [BitVec.toNat_setWidth_of_le hw, BitVec.toNat_ofNat, BitVec.toNat_ofNat, Nat.mod_eq_of_lt hlt]

/-- A written entry of a sparse store, as the host reads it back; `P` says that it is the entry read. -/
theorem read_write_widened {w : Nat} {m : Sparse (BitVec w)} (hw : w ≤ 32) (hm : Memory.wf m) {a b : Nat} {P : Prop}
    [Decidable P] (hP : P ↔ b = a) (v : Nat) :
    (Memory.read (Memory.write m a (BitVec.ofNat w v)) b).map (·.setWidth 32) =
      if P then some (BitVec.ofNat 32 (v % 2 ^ w)) else (Memory.read m b).map (·.setWidth 32) := by
  rw [Memory.read_write m a b _ hm]
  simp only [hP]
  split_ifs
  · exact congrArg some (setWidth_ofNat_eq_mod hw v)
  · rfl

/-- A written scalar field, as the host reads it back. -/
theorem some_ofNat_eq_mod (v : Nat) : some (BitVec.ofNat 32 v) = some (BitVec.ofNat 32 (v % 2 ^ 32)) := by
  rw [← setWidth_ofNat_eq_mod le_rfl, BitVec.setWidth_eq]

/-- A field of the base frame after a write of another or of the same. -/
theorem BaseFrame.read_write {b : BaseFrame} (hleft : Memory.wf b.left) (hright : Memory.wf b.right)
    (hpix : Memory.wf b.pix) (v : Nat) (fld g : FrameField) : BaseFrame.read (BaseFrame.write b v fld) g =
      if g = fld then some (BitVec.ofNat 32 (v % 2 ^ fld.bits)) else BaseFrame.read b g := by
  cases fld with
  | left y =>
    cases g with
    | left y' => exact read_write_widened (by decide) hleft (by rw [FrameField.left.injEq]) v
    | _ => rfl
  | right y =>
    cases g with
    | right y' => exact read_write_widened (by decide) hright (by rw [FrameField.right.injEq]) v
    | _ => rfl
  | pix a =>
    cases g with
    | pix a' => exact read_write_widened (by decide) hpix (by rw [FrameField.pix.injEq]) v
    | _ => rfl
  | width =>
    cases g with
    | width => exact some_ofNat_eq_mod v
    | _ => rfl
  | height =>
    cases g with
    | height => exact some_ofNat_eq_mod v
    | _ => rfl
  | hotx =>
    cases g with
    | hotx => exact some_ofNat_eq_mod v
    | _ => rfl
  | hoty =>
    cases g with
    | hoty => exact some_ofNat_eq_mod v
    | _ => rfl

/-! ### Reset (R42) -/

theorem resetWith_values (c : Config) : ResetValues (State.resetWith c) :=
  ⟨⟨rfl, rfl, rfl, rfl, rfl⟩, ⟨rfl, rfl, rfl, rfl⟩, ⟨rfl, rfl, rfl⟩, ⟨rfl, rfl, rfl, rfl, rfl, rfl, rfl⟩,
    ⟨rfl, rfl, fun fld => by cases fld <;> rfl, rfl⟩, rfl, rfl, rfl, rfl, rfl⟩

end Sys2Proof.Machine

namespace Sys2Proof

open Sys2Proof.Machine

/-- Settles O6: the write is taken and its code decodes to the operation. -/
theorem stepRunsTheStartedOperation : Obligations.StepRunsTheStartedOperation := by
  unfold Obligations.StepRunsTheStartedOperation
  exact fun s v rest i idle hp hi => step_of_started idle hp (decodeOperation_of_decode hi)

/-- Settles O14: every field of the state after reset is given, and the reset event answers that state but for the host's
own side. -/
theorem resetLeavesTheListedValues : Obligations.ResetLeavesTheListedValues := by
  unfold Obligations.ResetLeavesTheListedValues
  refine ⟨fun c => ⟨resetWith_values c, rfl⟩, fun s rest idle hp => ?_⟩
  exact ⟨_, step_of_served idle hp nofun, resetWith_values s.cfg, rfl, rfl, rfl, rfl, rfl, rfl⟩

/-- Settles O22: the registers by their numbers. -/
theorem hostWritesReachTheirRegisters : Obligations.HostWritesReachTheirRegisters := by
  unfold Obligations.HostWritesReachTheirRegisters
  intro s i v rest idle hp
  have served (hi : i ≠ 0) : step s = .next (({ s with pending := rest } : State).writeReg i v) :=
    step_of_served idle hp fun w hw => hi (HostEvent.writeReg.inj hw).1
  refine ⟨?_, ?_, ?_, ?_, ?_, ?_, ?_, fun hi => ?readOnly⟩
  case readOnly =>
    simp only [List.mem_cons, List.not_mem_nil, or_false] at hi
    obtain rfl | rfl | rfl | rfl | rfl | rfl | rfl | rfl := hi <;> exact served (by decide)
  all_goals
    rintro rfl
    exact served (by decide)

/-- Settles O23: a register other than `OP` is delivered, and `OP` has no value. -/
theorem hostReadsReturnTheRegisters : Obligations.HostReadsReturnTheRegisters := by
  unfold Obligations.HostReadsReturnTheRegisters
  intro s i rest idle hp
  rw [step_of_served idle hp nofun]
  refine ⟨fun hi => by rw [hi]; rfl, fun hi => ?_⟩
  obtain ⟨w, hw, hnat⟩ := regValue_eq_some (s := { s with pending := rest }) hi
  exact ⟨w, by simp only [State.serve, hw]; rfl, hnat⟩

/-- Settles O24: a read delivers the field's number in 32 bits, or a free value where the field holds none. -/
theorem hostReadsOfTheFrames : Obligations.HostReadsOfTheFrames := by
  unfold Obligations.HostReadsOfTheFrames
  intro s fld rest idle outCell baseCell returns returnsFree
  have hout (f : OutFrame) : outCell f = f.cell fld := by cases fld <;> rfl
  have hbase : baseCell = s.base.cell fld := by cases fld <;> rfl
  have delivers (v : Nat) : Host.Outcome.next (({ s with pending := rest } : State).deliver
      ((some v).map (BitVec.ofNat 32))) = returns v := rfl
  refine ⟨fun hp => ?out, fun hp => ?base⟩
  case out =>
    have served : step s = .next (({ s with pending := rest } : State).deliver
        (s.outView.bind fun o => OutFrame.read o fld)) := step_of_served idle hp nofun
    rw [served]
    refine ⟨fun f v valid hf hv => ?_, fun h => ?_⟩
    · have hsome : (s.outView.bind fun o => OutFrame.read o fld) = (some v).map (BitVec.ofNat 32) := by
        rw [outView_of_valid valid, hf, Option.bind_some, OutFrame.read_eq_cell, ← hout, hv]
      rw [hsome]
      exact delivers v
    · have hnone : (s.outView.bind fun o => OutFrame.read o fld) = none := by
        obtain invalid | valid := bit_cases s.resultValid
        · rw [outView_of_invalid invalid, Option.bind_none]
        · rw [outView_of_valid valid]
          obtain h | h | ⟨f, hf, hv⟩ := h
          · simp [valid] at h
          · rw [h, Option.bind_none]
          · rw [hf, Option.bind_some, OutFrame.read_eq_cell, ← hout, hv, Option.map_none]
      rw [hnone]
      rfl
  case base =>
    have served : step s = .next (({ s with pending := rest } : State).deliver (BaseFrame.read s.base fld)) :=
      step_of_served idle hp nofun
    rw [served, BaseFrame.read_eq_cell, ← hbase]
    refine ⟨fun v hv => ?_, fun hnone => ?_⟩
    · rw [hv]
      exact delivers v
    · rw [hnone]
      rfl

/-- Settles O25: each write is served by one write of its store. -/
theorem hostWritesReachTheirCells : Obligations.HostWritesReachTheirCells := by
  unfold Obligations.HostWritesReachTheirCells
  intro s rest idle
  refine ⟨?base, fun p c hm hp => ?pal, fun j id hm hp => ?pset⟩
  case base =>
    intro fld v hleft hright hpix hp bits
    have hbits : bits = fld.bits := by cases fld <;> rfl
    refine ⟨BaseFrame.write s.base v fld, step_of_served idle hp nofun, fun g => ?_⟩
    rw [hbits, BaseFrame.read_write hleft hright hpix]
  case pal => exact ⟨_, step_of_served idle hp nofun, fun b => Memory.read_write _ _ b c hm⟩
  case pset => exact ⟨_, step_of_served idle hp nofun, fun b => Memory.read_write _ _ b id hm⟩

end Sys2Proof
end
